-- ==== Sys2Proof/Word.lean ====
section
/-! DEFINITION. The word types of the block: a byte, a 32-bit command or response word, the ring a
command selects, and the bits an event port carries (R8, R49, R55, R57). -/

namespace Sys2Proof

/-- A byte is 8 bits (R8). -/
abbrev Byte := BitVec 8

/-- A command word or a response word (R49, R55). -/
abbrev Word := BitVec 32

/-- The ring a command's `r` field selects: `q(0) = RX`, `q(1) = TX` (R52). -/
inductive RingSel where
  | rx
  | tx
  deriving DecidableEq, Repr

/-- The bits of one event port, strobe bit above the data bits (R57). -/
inductive EventWord where
  /-- RX event port: `rx_strobe` is bit 8, `rx_data` bits 7:0. -/
  | rx (w : BitVec 9)
  /-- TX event port: `tx_strobe` is bit 0. -/
  | tx (w : BitVec 1)
  /-- Tick port: `tick_strobe` is bit 0. -/
  | tick (w : BitVec 1)
  /-- Reset port: `reset` is bit 0. -/
  | reset (w : BitVec 1)
  deriving DecidableEq, Repr

/-- What arrives at one of the block's input ports: a command word on the command port, or the
bits of an event port. Words are carried whole on parallel ports (R36). -/
inductive PortWord where
  | command (w : Word)
  | event (e : EventWord)
  deriving DecidableEq, Repr

end Sys2Proof
end

