-- ==== Sys2Proof/Config.lean ====
section
/-! DEFINITION. What an implementation fixes (the parameters of R6), the bounds R6 sets on them, what
the environment may do in a step and after a list of steps, and the sources of free values. -/

namespace Sys2Proof

/-- The implementation parameters of R6 that a rule of the step relation reads. They are fixed for
the life of the block; State carries them so that a claim ranges over all of them (log 5). -/
structure Params where
  /-- `RX_CAP`, number of byte slots of the RX ring. -/
  rxCap : Nat
  /-- `TX_CAP`, number of byte slots of the TX ring. -/
  txCap : Nat
  /-- `DEST_CAP`, number of slots of `REC`. -/
  destCap : Nat
  /-- `SOF`, the start sentinel. -/
  sof : Byte
  /-- `EOF_`, the end sentinel. -/
  eof : Byte
  /-- `CR`, the line terminator. -/
  cr : Byte
  /-- `TX_QUEUED`: queued transmission (true) or direct transmission (false). -/
  txQueued : Bool
  deriving DecidableEq, Repr

/-- The bounds R6 sets: `2 <= RX_CAP, TX_CAP <= 65536` and `1 <= DEST_CAP <= 255`. -/
abbrev Params.wf (p : Params) : Prop :=
  2 ≤ p.rxCap ∧ p.rxCap ≤ 65536 ∧ 2 ≤ p.txCap ∧ p.txCap ≤ 65536 ∧ 1 ≤ p.destCap ∧ p.destCap ≤ 255

/-- The values R6 gives (`DEST_CAP`, `SOF`, `EOF_`, `CR`), with the open ones as arguments.
PRESUMED: the codes of `SOF` and `EOF_` are ASCII, marked so by R6 itself (log 18); safe, since no
rule and no claim depends on them. -/
def Params.standard (rxCap txCap : Nat) (txQueued : Bool) : Params where
  rxCap := rxCap
  txCap := txCap
  destCap := 128
  sof := 0x53#8
  eof := 0x45#8
  cr := 0x0D#8
  txQueued := txQueued

/-- The parameters `State.reset` is built with. DESIGN CHOICE: R6 leaves `RX_CAP`, `TX_CAP` and
`TX_QUEUED` open; these are the conventions of 95_test_vectors.md (log 5); unsafe for a claim about
`State.reset` alone, so claims about reset range over all parameters. -/
def Params.atReset : Params := Params.standard 8 8 true

/-- `IW(q) = ceil(log2 CAP(q))`, the width of a ring index in bits (R7). -/
def indexWidth (cap : Nat) : Nat := Nat.clog 2 cap

/-- Free values: the `n`-th byte the spec leaves unspecified. It has no body, so nothing can be
proved of it but that it is a byte (log 10). -/
opaque Config.freeByte : Nat → Byte

namespace Machine

/-- Who moves in one step (R3): the poller issues the word that stands on the command port, the
engine takes a step, or an event port carries some bits. -/
inductive Move where
  | poller
  | engine
  | event (e : EventWord)
  deriving DecidableEq, Repr, Inhabited

/-- One step of the environment's schedule: who moves, and the two input levels at that step
(R27, R40, log 1, log 3). -/
structure Slot where
  move : Move
  cancel : Bool
  txReady : Bool
  deriving DecidableEq, Repr, Inhabited

/-- How a list that the environment supplies goes on when it is used up. R40 and R131 (3), (4) leave
the environment endless and unconstrained, so its part has no last element (log 26). -/
inductive Tail (α : Type) where
  /-- The environment falls silent: it supplies nothing more. -/
  | stop
  /-- The environment repeats these elements, of which there is at least one, for ever. -/
  | loop (first : α) (rest : List α)
  /-- The environment goes on with free values, of which nothing is known. -/
  | free
  deriving DecidableEq, Repr

end Machine

/-- Free values: the `n`-th unconstrained slot of a schedule that goes on freely. No body (log 26). -/
opaque Config.freeSlot : Nat → Machine.Slot

/-- Free values: the `n`-th unconstrained command word of a poller that goes on freely. No body
(log 26). -/
opaque Config.freeWord : Nat → Word

end Sys2Proof
end

