-- ==== Sys2Proof/Machine/State.lean ====
section
/-! DEFINITION. The machine's state as plain data (R32, R26, R27), the reasons a step can stop, and
the state after reset (R31). -/

namespace Sys2Proof.Machine

/-- A storage array: index and byte, indices strictly rising; an unlisted index has no value
(R33, log 7). -/
abbrev Mem := List Host.Cell

/-- The three storage arrays of R33, each an address space of its own. -/
inductive Space where
  | rxBuf
  | txBuf
  | record
  deriving DecidableEq, Repr

/-- Why the machine stops. The spec has no fault (R110): both are raised only in states that no run
from reset reaches, and both are safe. -/
inductive Fault where
  /-- A slot that nothing has written since reset is read: it has no value (R30, log 7). Raised by
  the steps that pop a ring and by `RDREC`. Safe. -/
  | unwrittenSlot (sp : Space) (i : Nat)
  /-- An index outside its array (R33, R37, log 8). Raised by the steps that push or pop a ring,
  store into `REC` or read it. Safe. -/
  | noSuchSlot (sp : Space) (i : Nat)
  deriving DecidableEq, Repr

/-- Why the machine refuses an instruction. -/
inductive Refusal where
  /-- The instruction has no meaning in this model. Raised by an arm of `exec` that rejects by name;
  no arm does. Safe. -/
  | notModelled (mnemonic : String)
  deriving DecidableEq, Repr

/-- The engine's phase (R19). -/
inductive Phase where
  | idle
  | recvWait
  | sendWait
  | frameHunt
  | frameCollect
  | lineCollect
  deriving DecidableEq, Repr

/-- A ring (R13). `CAP(q)` is a parameter, not part of the ring. -/
structure RingBuf where
  buf : Mem
  /-- `write_pos`: the slot the next pushed byte goes to. -/
  wp : Nat
  /-- `read_pos`: the slot the next popped byte comes from. -/
  rp : Nat
  /-- Sticky overflow flag (R17). -/
  ovf : Bool
  deriving DecidableEq, Repr

/-- Everything the spec gives the machine, and the environment's part as plain data. -/
structure State where
  /-- Parameters of R6; no step writes them (log 5). -/
  par : Params
  /-- Ring `RX` (R13). -/
  rx : RingBuf
  /-- Ring `TX` (R13). -/
  tx : RingBuf
  /-- R19. -/
  phase : Phase
  /-- `MAXLEN` (R21). -/
  maxLen : BitVec 8
  /-- `SBYTE` (R21). -/
  sByte : BitVec 8
  /-- `LEN` (R20). -/
  len : BitVec 8
  /-- `CNT` (R22). -/
  cnt : BitVec 16
  /-- `REC` (R20). -/
  record : Mem
  /-- The level of `cancel` at this step (R27, log 3). -/
  cancel : Bool
  /-- The level of `tx_ready` at this step (R27, log 3). -/
  txReady : Bool
  /-- Bytes handed to the serial unit, in order (R26). -/
  txout : List Byte
  /-- Response words returned to the poller, in order (R26). -/
  rspout : List Word
  /-- The model's own: command words the poller has yet to issue, the first one on the command port
  (R50, log 4). -/
  poller : List Word
  /-- The model's own: the environment's schedule, next step first (R40, log 1). -/
  sched : List Slot
  /-- The model's own: what the poller issues when `poller` is used up (log 4, log 26). -/
  pollerTail : Tail Word
  /-- The model's own: how the schedule goes on when `sched` is used up (R131, log 26). -/
  schedTail : Tail Slot
  /-- The model's own: how many free values have been drawn (log 10, log 26). -/
  fresh : Nat
  deriving DecidableEq, Repr

/-- A ring after reset: both indices 0, flag 0, no slot with a value (R31). -/
def RingBuf.atReset : RingBuf where
  buf := []
  wp := 0
  rp := 0
  ovf := false

/-- The machine right after reset, with given parameters (R31). DESIGN CHOICE, unsafe: `MAXLEN` and
`SBYTE`, which R31 leaves unspecified, are 0 (log 9); the two input levels are 0 (log 3). DESIGN
CHOICE: nothing is scheduled, the poller has no command, and the environment stays silent (log 21). -/
def State.resetWith (p : Params) : State where
  par := p
  rx := RingBuf.atReset
  tx := RingBuf.atReset
  phase := .idle
  maxLen := 0#8
  sByte := 0#8
  len := 0#8
  cnt := 0#16
  record := []
  cancel := false
  txReady := false
  txout := []
  rspout := []
  poller := []
  sched := []
  pollerTail := .stop
  schedTail := .stop
  fresh := 0

/-- The machine right after reset (R31), with the parameters of log 5. -/
def State.reset : State := State.resetWith Params.atReset

end Sys2Proof.Machine
end

