-- ==== Sys2Proof/Machine/Ops.lean ====
section
/-! DEFINITION. The named operations over the storage arrays, the rings and the record buffer (R14,
R20, R33, R61 to R64), the outputs (R26), the guard of the command port (R50) and the reset of the
block (R31, R117). The block has no trap and so no exception entry or return (R107, R109). -/

namespace Sys2Proof.Machine

/-- The byte at an index, if something has written it. -/
def Mem.get : Mem → Nat → Option Byte
  | [], _ => none
  | c :: m, i => if c.1 = i then some c.2 else Mem.get m i

/-- Put a byte at an index, keeping the indices rising. -/
def Mem.put : Mem → Nat → Byte → Mem
  | [], i, v => [(i, v)]
  | c :: m, i, v =>
    if i < c.1 then (i, v) :: c :: m
    else if i = c.1 then (i, v) :: m
    else c :: Mem.put m i v

/-- The canonical form: indices strictly rising. An unlisted index has no value, so no listed byte
can equal it (log 7). -/
def Mem.wf : Mem → Bool
  | [] => true
  | [_] => true
  | c :: d :: m => decide (c.1 < d.1) && Mem.wf (d :: m)

/-- Read one byte of an array of `size` cells (R33, R39). An index outside the array faults (log 8),
a cell nothing has written faults (log 7); both safe. -/
def Mem.read (sp : Space) (size : Nat) (m : Mem) (i : Nat) : Except Fault Byte :=
  if i < size then
    match Mem.get m i with
    | some v => .ok v
    | none => .error (.unwrittenSlot sp i)
  else .error (.noSuchSlot sp i)

/-- Write one byte of an array of `size` cells (R33, R39). An index outside the array faults (log 8),
safe. -/
def Mem.write (sp : Space) (size : Nat) (m : Mem) (i : Nat) (v : Byte) : Except Fault Mem :=
  if i < size then .ok (Mem.put m i v) else .error (.noSuchSlot sp i)

/-- The index after `x`, modulo the capacity (R65). -/
def nextIndex (cap x : Nat) : Nat := (x + 1) % cap

/-- `empty(q)` (R14). -/
def RingBuf.empty (q : RingBuf) : Bool := q.rp == q.wp

/-- `full(q)` (R14). -/
def RingBuf.full (cap : Nat) (q : RingBuf) : Bool := nextIndex cap q.wp == q.rp

/-- `avail(q)`, `(wp - rp) mod CAP` computed without underflow (R14, R63, R65; log 16). -/
def RingBuf.avail (cap : Nat) (q : RingBuf) : Nat := (q.wp + cap - q.rp) % cap

/-- `push(q, b)` (R61): drop and flag when full, else store and advance. -/
def RingBuf.push (sp : Space) (cap : Nat) (q : RingBuf) (b : Byte) : Except Fault RingBuf :=
  if q.full cap then .ok { q with ovf := true }
  else
    match Mem.write sp cap q.buf q.wp b with
    | .error f => .error f
    | .ok m => .ok { q with buf := m, wp := nextIndex cap q.wp }

/-- `pop(q)` (R62). -/
def RingBuf.pop (sp : Space) (cap : Nat) (q : RingBuf) : Except Fault (Option Byte × RingBuf) :=
  if q.empty then .ok (none, q)
  else
    match Mem.read sp cap q.buf q.rp with
    | .error f => .error f
    | .ok v => .ok (some v, { q with rp := nextIndex cap q.rp })

/-- `flush(q)` (R64). -/
def RingBuf.flush (q : RingBuf) : RingBuf := { q with rp := q.wp }

/-- `push(RX, b)`. -/
def pushRx (s : State) (b : Byte) : Except Fault State :=
  match s.rx.push .rxBuf s.par.rxCap b with
  | .error f => .error f
  | .ok q => .ok { s with rx := q }

/-- `push(TX, b)`. -/
def pushTx (s : State) (b : Byte) : Except Fault State :=
  match s.tx.push .txBuf s.par.txCap b with
  | .error f => .error f
  | .ok q => .ok { s with tx := q }

/-- `pop(RX)`. -/
def popRx (s : State) : Except Fault (Option Byte × State) :=
  match s.rx.pop .rxBuf s.par.rxCap with
  | .error f => .error f
  | .ok (v, q) => .ok (v, { s with rx := q })

/-- `pop(TX)`. -/
def popTx (s : State) : Except Fault (Option Byte × State) :=
  match s.tx.pop .txBuf s.par.txCap with
  | .error f => .error f
  | .ok (v, q) => .ok (v, { s with tx := q })

/-- `emit(b)`: hand a byte to the serial unit (R9, R26). On a `TXEV` it is `tx_valid = 1`,
`tx_data = b` (R71, log 20). -/
def emit (s : State) (b : Byte) : State := { s with txout := s.txout ++ [b] }

/-- `REC[LEN] <- b; LEN <- LEN + 1` (R89, R92). -/
def storeRecord (s : State) (b : Byte) : Except Fault State :=
  match Mem.write .record s.par.destCap s.record s.len.toNat b with
  | .error f => .error f
  | .ok m => .ok { s with record := m, len := s.len + 1#8 }

/-- `REC[i]` (R94). -/
def readRecord (s : State) (i : BitVec 8) : Except Fault Byte :=
  Mem.read .record s.par.destCap s.record i.toNat

/-- The guard of `Issue` (R50): a command is accepted only in `IDLE`; otherwise the port is not
ready, the poller is held and nothing changes (log 12). -/
def whenReady (s : State) (k : Host.Outcome State Fault Refusal) :
    Host.Outcome State Fault Refusal :=
  if s.phase = .idle then k else .next s

/-- The block's reset (R31, R117): rings empty, flags 0, `IDLE`, `CNT` and `LEN` 0, no slot with a
value, and `MAXLEN`, `SBYTE` free values (log 10). The parameters, the two streams, the input levels,
the poller's words, the schedule and their tails are no state of the block and stay (R26, R31, R32,
log 11). -/
def resetBlock (s : State) : State :=
  { s with
    rx := RingBuf.atReset
    tx := RingBuf.atReset
    phase := .idle
    maxLen := Config.freeByte s.fresh
    sByte := Config.freeByte (s.fresh + 1)
    len := 0#8
    cnt := 0#16
    record := []
    fresh := s.fresh + 2 }

end Sys2Proof.Machine
end

