-- ==== Sys2Proof/Machine/Operands.lean ====
section
/-! DEFINITION. Operands of the commands: the ring `q(r)` and the range checks that are part of the
meanings (R52). -/

namespace Sys2Proof.Machine

/-- `q(r)` (R52). -/
def ringOf (s : State) : RingSel → RingBuf
  | .rx => s.rx
  | .tx => s.tx

/-- `CAP(q(r))` (R13). -/
def capOf (s : State) : RingSel → Nat
  | .rx => s.par.rxCap
  | .tx => s.par.txCap

/-- The bound check of `FRAME` and `LINE`: `1 <= m <= DEST_CAP` (R52, R87, R91). -/
def boundOk (s : State) (m : BitVec 8) : Bool := decide (1 ≤ m.toNat) && decide (m.toNat ≤ s.par.destCap)

/-- The index check of `RDREC`: `i < LEN` (R52, R94). -/
def indexOk (s : State) (i : BitVec 8) : Bool := decide (i.toNat < s.len.toNat)

/-- `zext_16` of a byte, the `val` of a response that carries one (R55, R65). -/
def byteVal (b : Byte) : BitVec 16 := b.setWidth 16

/-- A count as the `val` of a response; it fits 16 bits (R7, R55). -/
def countVal (n : Nat) : BitVec 16 := BitVec.ofNat 16 n

end Sys2Proof.Machine
end

