-- ==== Sys2Proof/Machine/Flags.lean ====
section
/-! DEFINITION. The two sticky overflow flags (R17), the status codes (R99) and the response word,
whose two flag bits are sampled after all other writes of the responding step (R55, R56). -/

namespace Sys2Proof.Machine

/-- The status of a response (R99). Codes 8 to 15 are never produced. -/
inductive Status where
  | ok
  | empty
  | timeout
  | tooLong
  | exhausted
  | noStart
  | illegal
  | range
  deriving DecidableEq, Repr

/-- The numbers of R99. -/
def statusCode : Status → BitVec 4
  | .ok => 0#4
  | .empty => 1#4
  | .timeout => 2#4
  | .tooLong => 3#4
  | .exhausted => 4#4
  | .noStart => 5#4
  | .illegal => 6#4
  | .range => 7#4

/-- A flag as one bit. -/
def flagBit (b : Bool) : BitVec 1 := BitVec.ofBool b

/-- A response word of format `RSP`: st, ovf_rx, ovf_tx, cn, 0, len, val (R55). -/
def rspWord (st : Status) (ovfRx ovfTx cn : Bool) (len : BitVec 8) (val : BitVec 16) : Word :=
  statusCode st ++ flagBit ovfRx ++ flagBit ovfTx ++ flagBit cn ++ 0#1 ++ len ++ val

/-- `respond(st, len, val, cn)`: append one response word; its flag bits are the flags of the state
it is applied to, which is the step's final one (R55, R56). -/
def respond (s : State) (st : Status) (len : BitVec 8) (val : BitVec 16) (cn : Bool) : State :=
  { s with rspout := s.rspout ++ [rspWord st s.rx.ovf s.tx.ovf cn len val] }

/-- The completion of a multi-step command: respond and return to `IDLE` (R84). -/
def complete (s : State) (st : Status) (len : BitVec 8) (val : BitVec 16) (cn : Bool) : State :=
  respond { s with phase := .idle } st len val cn

/-- `q(r).ovf <- 0` (R73). -/
def clearOvf (s : State) : RingSel → State
  | .rx => { s with rx := { s.rx with ovf := false } }
  | .tx => { s with tx := { s.tx with ovf := false } }

/-- `flush(RX)` (R64, R72). -/
def flushRx (s : State) : State := { s with rx := s.rx.flush }

/-- The answer to a word that selects no row of the opcode map: accepted in `IDLE` like any command,
no state change, status `ILLEGAL` (R53). -/
def acceptIllegal (s : State) : Host.Outcome State Fault Refusal :=
  whenReady s (.next (respond s .illegal 0#8 0#16 false))

end Sys2Proof.Machine
end

