-- ==== Sys2Proof/Machine/Events.lean ====
section
/-! DEFINITION. The events `RXEV`, `TXEV`, `TICK` and `RESET`; each is taken whole in one step, in
every phase, and none responds (R23, R70, R71, R103, R117). -/

namespace Sys2Proof.Machine

/-- `RXEV(b)` (R70). -/
def execRxev (b : BitVec 8) (s : State) : Host.Outcome State Fault Refusal :=
  match pushRx s b with
  | .error f => .fault f
  | .ok t => .next t

/-- `TXEV` (R71). -/
def execTxev (s : State) : Host.Outcome State Fault Refusal :=
  if s.par.txQueued then
    match popTx s with
    | .error f => .fault f
    | .ok (some v, t) => .next (emit t v)
    | .ok (none, t) => .next t
  else .next s

/-- `TICK`; at `CNT == 0` the step is not enabled and nothing changes (R23, log 12). -/
def execTick (s : State) : Host.Outcome State Fault Refusal :=
  if s.cnt = 0#16 then .next s else .next { s with cnt := s.cnt - 1#16 }

/-- `RESET` (R117, R118). -/
def execReset (s : State) : Host.Outcome State Fault Refusal :=
  .next (resetBlock s)

end Sys2Proof.Machine
end

