-- ==== Sys2Proof/Machine/Framed.lean ====
section
/-! DEFINITION. Framed receive: acceptance of `FRAME` and `LINE`, `RDREC`, and the engine steps in
`FRAME_HUNT`, `FRAME_COLLECT` and `LINE_COLLECT` (R83, R87 to R94). -/

namespace Sys2Proof.Machine

/-- `FRAME m`, acceptance (R87). -/
def execFrame (m : BitVec 8) (s : State) : Host.Outcome State Fault Refusal :=
  whenReady s
    (if boundOk s m then .next { s with maxLen := m, len := 0#8, phase := .frameHunt }
    else .next (respond s .range 0#8 0#16 false))

/-- `LINE m, t`, acceptance (R91). -/
def execLine (m : BitVec 8) (t : BitVec 16) (s : State) : Host.Outcome State Fault Refusal :=
  whenReady s
    (if boundOk s m then .next { s with maxLen := m, len := 0#8, cnt := t, phase := .lineCollect }
    else .next (respond s .range 0#8 0#16 false))

/-- `RDREC i` (R94). -/
def execRdrec (i : BitVec 8) (s : State) : Host.Outcome State Fault Refusal :=
  whenReady s
    (if indexOk s i then
      match readRecord s i with
      | .error f => .fault f
      | .ok v => .next (respond s .ok 0#8 (byteVal v) false)
    else .next (respond s .range 0#8 0#16 false))

/-- Engine step in `FRAME_HUNT`; it has no guard (R88). A cancelled hunt responds with `len = 0`,
which is `LEN` there (R83, log 17). -/
def frameHuntStep (s : State) : Host.Outcome State Fault Refusal :=
  if s.cancel then .next (complete s .timeout 0#8 0#16 true)
  else
    match popRx s with
    | .error f => .fault f
    | .ok (none, t) => .next (complete t .noStart 0#8 0#16 false)
    | .ok (some v, t) => .next (if v = t.par.sof then { t with phase := .frameCollect } else t)

/-- Engine step in `FRAME_COLLECT`; it has no guard. The end sentinel is tested before the bound
(R89, R105). -/
def frameCollectStep (s : State) : Host.Outcome State Fault Refusal :=
  if s.cancel then .next (complete s .timeout s.len 0#16 true)
  else
    match popRx s with
    | .error f => .fault f
    | .ok (none, t) => .next (complete t .exhausted t.len 0#16 false)
    | .ok (some v, t) =>
      if v = t.par.eof then .next (complete t .ok t.len 0#16 false)
      else if t.len = t.maxLen then .next (complete t .tooLong t.len 0#16 false)
      else
        match storeRecord t v with
        | .error f => .fault f
        | .ok u => .next u

/-- Engine step in `LINE_COLLECT`, its guard holding: leading-`CR` drop, then bound, then store, then
terminator test (R92, R105). -/
def lineCollectStep (s : State) : Host.Outcome State Fault Refusal :=
  if s.cancel then .next (complete s .timeout s.len 0#16 true)
  else
    match popRx s with
    | .error f => .fault f
    | .ok (none, t) => .next (complete t .timeout t.len 0#16 false)
    | .ok (some v, t) =>
      if v = t.par.cr ∧ t.len = 0#8 then .next t
      else if t.len = t.maxLen then .next (complete t .tooLong t.len 0#16 false)
      else
        match storeRecord t v with
        | .error f => .fault f
        | .ok u => .next (if v = u.par.cr then complete u .ok u.len 0#16 false else u)

end Sys2Proof.Machine
end

