-- ==== Sys2Proof/Machine/Illegal.lean ====
section
/-! DEFINITION. The three rows of reserved opcodes: each is accepted in `IDLE`, changes no state and
answers `ILLEGAL`; bits 27:0 are ignored (R53). -/

namespace Sys2Proof.Machine

/-- Reserved opcode 0x9 (R53). -/
def execIllegalOp9 (_rest : BitVec 28) (s : State) : Host.Outcome State Fault Refusal :=
  acceptIllegal s

/-- Reserved opcode 0xB (R53). -/
def execIllegalOpB (_rest : BitVec 28) (s : State) : Host.Outcome State Fault Refusal :=
  acceptIllegal s

/-- Reserved opcodes 0xC to 0xF (R53). -/
def execIllegalOpCF (_op : BitVec 4) (_rest : BitVec 28) (s : State) :
    Host.Outcome State Fault Refusal :=
  acceptIllegal s

end Sys2Proof.Machine
end

