-- ==== Sys2Proof/Machine/RingCommands.lean ====
section
/-! DEFINITION. The single-step commands on the rings and flags: `NOP`, `POP`, `AVAIL`, `FLUSH`,
`CLROVF` (R68, R69, R72 to R74). -/

namespace Sys2Proof.Machine

/-- `NOP` (R74). -/
def execNop (s : State) : Host.Outcome State Fault Refusal :=
  whenReady s (.next (respond s .ok 0#8 0#16 false))

/-- `POP` (R68). -/
def execPop (s : State) : Host.Outcome State Fault Refusal :=
  whenReady s
    (match popRx s with
    | .error f => .fault f
    | .ok (some v, t) => .next (respond t .ok 0#8 (byteVal v) false)
    | .ok (none, t) => .next (respond t .empty 0#8 0#16 false))

/-- `AVAIL r` (R69). -/
def execAvail (r : RingSel) (s : State) : Host.Outcome State Fault Refusal :=
  whenReady s (.next (respond s .ok 0#8 (countVal ((ringOf s r).avail (capOf s r))) false))

/-- `FLUSH` (R72). -/
def execFlush (s : State) : Host.Outcome State Fault Refusal :=
  whenReady s (.next (respond (flushRx s) .ok 0#8 0#16 false))

/-- `CLROVF r`; the flag bits are sampled after the clear (R73, R56). -/
def execClrovf (r : RingSel) (s : State) : Host.Outcome State Fault Refusal :=
  whenReady s (.next (respond (clearOvf s r) .ok 0#8 0#16 false))

end Sys2Proof.Machine
end

