-- ==== Sys2Proof/Machine/Transport.lean ====
section
/-! DEFINITION. The byte-level transport: acceptance of `RECV` and `SEND` and the engine steps that
complete them (R76, R77, R80, R81, R83). -/

namespace Sys2Proof.Machine

/-- `RECV t`, acceptance (R76). -/
def execRecv (t : BitVec 16) (s : State) : Host.Outcome State Fault Refusal :=
  whenReady s (.next { s with cnt := t, phase := .recvWait })

/-- The guard of the engine step in `RECV_WAIT`, and of the one in `LINE_COLLECT` (R77, R92). -/
def byteOrTimeout (s : State) : Bool := s.cancel || !s.rx.empty || s.cnt == 0#16

/-- Engine step in `RECV_WAIT`, its guard holding (R77). -/
def recvWaitStep (s : State) : Host.Outcome State Fault Refusal :=
  if s.cancel then .next (complete s .timeout 0#8 0#16 true)
  else
    match popRx s with
    | .error f => .fault f
    | .ok (some v, t) => .next (complete t .ok 0#8 (byteVal v) false)
    | .ok (none, t) => .next (complete t .timeout 0#8 0#16 false)

/-- The byte of a `SEND` can be handed over: room in TX (queued) or `tx_ready` (direct) (R80, R81). -/
def handOver (s : State) : Bool :=
  if s.par.txQueued then !s.tx.full s.par.txCap else s.txReady

/-- Hand a byte over: push it on TX (queued) or emit it (direct) (R80, R81). -/
def handByte (s : State) (b : Byte) : Except Fault State :=
  if s.par.txQueued then pushTx s b else .ok (emit s b)

/-- `SEND b`, acceptance (R80). -/
def execSend (b : BitVec 8) (s : State) : Host.Outcome State Fault Refusal :=
  whenReady s
    (if handOver s then
      match handByte s b with
      | .error f => .fault f
      | .ok t => .next (respond t .ok 0#8 0#16 false)
    else .next { s with sByte := b, phase := .sendWait })

/-- The guard of the engine step in `SEND_WAIT` (R81). -/
def cancelOrHandOver (s : State) : Bool := s.cancel || handOver s

/-- Engine step in `SEND_WAIT`, its guard holding (R81). -/
def sendWaitStep (s : State) : Host.Outcome State Fault Refusal :=
  if s.cancel then .next (complete s .timeout 0#8 0#16 true)
  else
    match handByte s s.sByte with
    | .error f => .fault f
    | .ok t => .next (complete t .ok 0#8 0#16 false)

end Sys2Proof.Machine
end

