-- ==== Sys2Proof/Syntax.lean ====
section
/-! DEFINITION. The instruction type: one constructor per row of spec/opcode_table.json, its operands
the row's fields at their own widths (R49, R51, R52, R53, R57). -/

namespace Sys2Proof

/-- Commands, reserved-opcode rows and events. -/
inductive Instr where
  /-- `NOP` (R74). -/
  | nop
  /-- `POP`, on RX (R68). -/
  | pop
  /-- `AVAIL r` (R69). -/
  | avail (r : RingSel)
  /-- `FLUSH`, on RX (R72). -/
  | flush
  /-- `RECV t`, `t` the timeout in ticks (R76). -/
  | recv (t : BitVec 16)
  /-- `FRAME m`, `m` the record bound (R87). -/
  | frame (m : BitVec 8)
  /-- `LINE m, t` (R91). -/
  | line (m : BitVec 8) (t : BitVec 16)
  /-- `RDREC i`, `i` the record index (R94). -/
  | rdrec (i : BitVec 8)
  /-- `SEND b`, `b` the byte to send (R80). -/
  | send (b : BitVec 8)
  /-- `CLROVF r` (R73). -/
  | clrovf (r : RingSel)
  /-- Reserved opcode 0x9, bits 27:0 ignored (R53). -/
  | illegalOp9 (rest : BitVec 28)
  /-- Reserved opcode 0xB, bits 27:0 ignored (R53). -/
  | illegalOpB (rest : BitVec 28)
  /-- Reserved opcodes 0xC to 0xF, kept in `op`; bits 27:0 ignored (R53). -/
  | illegalOpCF (op : BitVec 4) (rest : BitVec 28)
  /-- Event `RXEV(b)` (R70). -/
  | rxev (b : BitVec 8)
  /-- Event `TXEV` (R71). -/
  | txev
  /-- Event `TICK` (R23). -/
  | tick
  /-- Event `RESET` (R117). -/
  | reset
  deriving DecidableEq, Repr

end Sys2Proof
end

