-- ==== Sys2Proof/Machine/Dispatch.lean ====
section
/-! DEFINITION. One arm per instruction, each one call of its meaning. -/

namespace Sys2Proof.Machine

def exec (i : Instr) (s : State) : Host.Outcome State Fault Refusal :=
  match i with
  | .nop => Sys2Proof.Machine.execNop s
  | .pop => Sys2Proof.Machine.execPop s
  | .avail r => Sys2Proof.Machine.execAvail r s
  | .flush => Sys2Proof.Machine.execFlush s
  | .recv t => Sys2Proof.Machine.execRecv t s
  | .frame m => Sys2Proof.Machine.execFrame m s
  | .line m t => Sys2Proof.Machine.execLine m t s
  | .rdrec k => Sys2Proof.Machine.execRdrec k s
  | .send b => Sys2Proof.Machine.execSend b s
  | .clrovf r => Sys2Proof.Machine.execClrovf r s
  | .illegalOp9 rest => Sys2Proof.Machine.execIllegalOp9 rest s
  | .illegalOpB rest => Sys2Proof.Machine.execIllegalOpB rest s
  | .illegalOpCF op rest => Sys2Proof.Machine.execIllegalOpCF op rest s
  | .rxev b => Sys2Proof.Machine.execRxev b s
  | .txev => Sys2Proof.Machine.execTxev s
  | .tick => Sys2Proof.Machine.execTick s
  | .reset => Sys2Proof.Machine.execReset s

end Sys2Proof.Machine
end

