-- ==== Sys2Proof/WellFormed.lean ====
section
/-! DEFINITION. Which instruction terms stand for a word of their row. Every operand field has its
exact width in `Instr`, so one check is left: the opcode kept by the row of opcodes 0xC to 0xF. The
range checks of R52 (`m` against `DEST_CAP`, `i` against `LEN`) are part of the meanings and are no
well-formedness check: R52 says they are not part of decoding. -/

namespace Sys2Proof

/-- A term is well formed when it stands for a word of its row. -/
def Instr.wf : Instr → Bool
  | .nop => true
  | .pop => true
  | .avail _ => true
  | .flush => true
  | .recv _ => true
  | .frame _ => true
  | .line _ _ => true
  | .rdrec _ => true
  | .send _ => true
  | .clrovf _ => true
  | .illegalOp9 _ => true
  | .illegalOpB _ => true
  -- row ILLEGAL.opC_F: bits 31:30 are 0b11
  | .illegalOpCF op _ => decide (12 ≤ op.toNat)
  | .rxev _ => true
  | .txev => true
  | .tick => true
  | .reset => true

end Sys2Proof
end

