-- ==== Sys2Proof/Decode.lean ====
section
/-! DEFINITION. The decoder, total on every port word and rejecting by name (R49 to R53, R57); the
encoder written from the same tables; the assembler's pseudo-instructions and syntax (R58, R59). -/

namespace Sys2Proof

/-- Why a port word stands for no instruction. -/
inductive Reject where
  /-- A listed opcode with a nonzero bit in a must-be-zero field: it selects no row of R51 and is
  illegal by R53. -/
  | mustBeZero
  /-- An event port whose strobe bit is 0: no event occurs (R57). -/
  | noStrobe
  deriving DecidableEq, Repr

/-- The five fields of format `CMD` (R49). -/
structure CmdFields where
  op : BitVec 4
  z : BitVec 3
  r : BitVec 1
  imm8 : BitVec 8
  imm16 : BitVec 16
  deriving DecidableEq, Repr

/-- Take a command word apart: bits 31:28, 27:25, 24, 23:16, 15:0 (R49). -/
def cmdFields (w : Word) : CmdFields where
  op := w.extractLsb' 28 4
  z := w.extractLsb' 25 3
  r := w.extractLsb' 24 1
  imm8 := w.extractLsb' 16 8
  imm16 := w.extractLsb' 0 16

/-- Put a command word together (R49). -/
def packCmd (f : CmdFields) : Word := f.op ++ f.z ++ f.r ++ f.imm8 ++ f.imm16

/-- `q(r)`: 0 is RX, 1 is TX (R52). -/
def ringOfBit (b : BitVec 1) : RingSel := if b = 0#1 then .rx else .tx

/-- The `r` field that selects a ring (R52). -/
def bitOfRing : RingSel → BitVec 1
  | .rx => 0#1
  | .tx => 1#1

/-- The row's instruction when its must-be-zero fields are zero, else the word selects no row (R53). -/
def whenZero (c : Bool) (i : Instr) : Except Reject Instr :=
  if c then .ok i else .error .mustBeZero

/-- Decode a command word by the opcode map of R51. -/
def decodeCommand (w : Word) : Except Reject Instr :=
  let f := cmdFields w
  let rest := w.extractLsb' 0 28
  if f.op = 0x0#4 then whenZero (f.z == 0 && f.r == 0 && f.imm8 == 0 && f.imm16 == 0) .nop
  else if f.op = 0x1#4 then whenZero (f.z == 0 && f.r == 0 && f.imm8 == 0 && f.imm16 == 0) .pop
  else if f.op = 0x2#4 then whenZero (f.z == 0 && f.imm8 == 0 && f.imm16 == 0) (.avail (ringOfBit f.r))
  else if f.op = 0x3#4 then whenZero (f.z == 0 && f.r == 0 && f.imm8 == 0 && f.imm16 == 0) .flush
  else if f.op = 0x4#4 then whenZero (f.z == 0 && f.r == 0 && f.imm8 == 0) (.recv f.imm16)
  else if f.op = 0x5#4 then whenZero (f.z == 0 && f.r == 0 && f.imm16 == 0) (.frame f.imm8)
  else if f.op = 0x6#4 then whenZero (f.z == 0 && f.r == 0) (.line f.imm8 f.imm16)
  else if f.op = 0x7#4 then whenZero (f.z == 0 && f.r == 0 && f.imm16 == 0) (.rdrec f.imm8)
  else if f.op = 0x8#4 then whenZero (f.z == 0 && f.r == 0 && f.imm16 == 0) (.send f.imm8)
  else if f.op = 0x9#4 then .ok (.illegalOp9 rest)
  else if f.op = 0xA#4 then whenZero (f.z == 0 && f.imm8 == 0 && f.imm16 == 0) (.clrovf (ringOfBit f.r))
  else if f.op = 0xB#4 then .ok (.illegalOpB rest)
  else .ok (.illegalOpCF f.op rest)

/-- Decode an event port's bits: an event when the strobe bit is 1 (R57). -/
def decodeEvent : EventWord → Except Reject Instr
  | .rx w => if w.extractLsb' 8 1 = 1#1 then .ok (.rxev (w.extractLsb' 0 8)) else .error .noStrobe
  | .tx w => if w = 1#1 then .ok .txev else .error .noStrobe
  | .tick w => if w = 1#1 then .ok .tick else .error .noStrobe
  | .reset w => if w = 1#1 then .ok .reset else .error .noStrobe

/-- Decode whatever a port carries. -/
def decode : PortWord → Except Reject Instr
  | .command w => decodeCommand w
  | .event e => decodeEvent e

/-- A command word of row `op` with the given operand fields, `z` zero (R51). -/
def cmdWord (op : BitVec 4) (r : BitVec 1) (imm8 : BitVec 8) (imm16 : BitVec 16) : PortWord :=
  .command (packCmd { op := op, z := 0#3, r := r, imm8 := imm8, imm16 := imm16 })

/-- A command word of a reserved opcode with its 28 ignored bits (R53). -/
def reservedWord (op : BitVec 4) (rest : BitVec 28) : PortWord := .command (op ++ rest)

/-- The port word of an instruction (R51, R57, R58). -/
def encode : Instr → PortWord
  | .nop => cmdWord 0x0#4 0#1 0#8 0#16
  | .pop => cmdWord 0x1#4 0#1 0#8 0#16
  | .avail r => cmdWord 0x2#4 (bitOfRing r) 0#8 0#16
  | .flush => cmdWord 0x3#4 0#1 0#8 0#16
  | .recv t => cmdWord 0x4#4 0#1 0#8 t
  | .frame m => cmdWord 0x5#4 0#1 m 0#16
  | .line m t => cmdWord 0x6#4 0#1 m t
  | .rdrec i => cmdWord 0x7#4 0#1 i 0#16
  | .send b => cmdWord 0x8#4 0#1 b 0#16
  | .clrovf r => cmdWord 0xA#4 (bitOfRing r) 0#8 0#16
  | .illegalOp9 rest => reservedWord 0x9#4 rest
  | .illegalOpB rest => reservedWord 0xB#4 rest
  | .illegalOpCF op rest => reservedWord op rest
  | .rxev b => .event (.rx (1#1 ++ b))
  | .txev => .event (.tx 1#1)
  | .tick => .event (.tick 1#1)
  | .reset => .event (.reset 1#1)

/-- The instruction the decoder reads from a table row's bits: 32 bits are a command word, 9 bits
(16 in whole bytes) the RX event port. The rows `TXEV`, `TICK` and `RESET` have the same single bit
and differ by their port alone, which a bare number does not name: refused (log 14). -/
def decodeTableWord (nbits w : Nat) : Option Instr :=
  if nbits = 32 then (decodeCommand (BitVec.ofNat 32 w)).toOption
  else if 9 ≤ nbits ∧ nbits ≤ 16 ∧ w < 512 then (decodeEvent (.rx (BitVec.ofNat 9 w))).toOption
  else none

/-- The `match` and `mask` columns of a row of the opcode map (R51). -/
structure RowBits where
  pattern : Word
  mask : Word
  deriving DecidableEq, Repr

/-- A word selects a row when `(c & mask) == match` (R51). -/
def selects (w : Word) (row : RowBits) : Bool := w &&& row.mask == row.pattern

/-- The row of the opcode map an instruction belongs to; events are rows of format `EVT` and have no
`match` and `mask` (R51, R53, R57). -/
def rowBits : Instr → Option RowBits
  | .nop => some ⟨0x00000000#32, 0xFFFFFFFF#32⟩
  | .pop => some ⟨0x10000000#32, 0xFFFFFFFF#32⟩
  | .avail _ => some ⟨0x20000000#32, 0xFEFFFFFF#32⟩
  | .flush => some ⟨0x30000000#32, 0xFFFFFFFF#32⟩
  | .recv _ => some ⟨0x40000000#32, 0xFFFF0000#32⟩
  | .frame _ => some ⟨0x50000000#32, 0xFF00FFFF#32⟩
  | .line _ _ => some ⟨0x60000000#32, 0xFF000000#32⟩
  | .rdrec _ => some ⟨0x70000000#32, 0xFF00FFFF#32⟩
  | .send _ => some ⟨0x80000000#32, 0xFF00FFFF#32⟩
  | .clrovf _ => some ⟨0xA0000000#32, 0xFEFFFFFF#32⟩
  | .illegalOp9 _ => some ⟨0x90000000#32, 0xF0000000#32⟩
  | .illegalOpB _ => some ⟨0xB0000000#32, 0xF0000000#32⟩
  | .illegalOpCF _ _ => some ⟨0xC0000000#32, 0xC0000000#32⟩
  | .rxev _ => none
  | .txev => none
  | .tick => none
  | .reset => none

/-- The pseudo-instructions of the assembler (R59). -/
inductive Pseudo where
  | status
  | availrx
  | recvDefault
  | sends (text : List Byte)
  deriving DecidableEq, Repr

/-- What a pseudo-instruction expands to (R59). The argument is `DEFAULT_TIMEOUT_TICKS`, which R6
leaves open (log 6). -/
def expandPseudo (defaultTimeoutTicks : BitVec 16) : Pseudo → List Instr
  | .status => [.nop]
  | .availrx => [.avail .rx]
  | .recvDefault => [.recv defaultTimeoutTicks]
  | .sends text => text.map .send

/-- The ring operand as the assembler writes it (R58). -/
def asmRing : RingSel → String
  | .rx => "RX"
  | .tx => "TX"

/-- A number as the assembler writes it, in decimal (R58). -/
def asmNumber (n : Nat) : String := "#" ++ toString n

/-- The assembler line of an instruction, and the trace line of an event; a reserved word has no
line (R58). -/
def asmLine : Instr → Option String
  | .nop => some "NOP"
  | .pop => some "POP"
  | .avail r => some ("AVAIL " ++ asmRing r)
  | .flush => some "FLUSH"
  | .recv t => some ("RECV " ++ asmNumber t.toNat)
  | .frame m => some ("FRAME " ++ asmNumber m.toNat)
  | .line m t => some ("LINE " ++ asmNumber m.toNat ++ ", " ++ asmNumber t.toNat)
  | .rdrec i => some ("RDREC " ++ asmNumber i.toNat)
  | .send b => some ("SEND " ++ asmNumber b.toNat)
  | .clrovf r => some ("CLROVF " ++ asmRing r)
  | .illegalOp9 _ => none
  | .illegalOpB _ => none
  | .illegalOpCF _ _ => none
  | .rxev b => some ("rx(" ++ toString b.toNat ++ ")")
  | .txev => some "tx"
  | .tick => some "tick"
  | .reset => some "RESET"

end Sys2Proof
end

