-- ==== Sys2Proof/Machine/Engine.lean ====
section
/-! DEFINITION. The engine agent: one step per phase, with its guard (R3, R84). -/

namespace Sys2Proof.Machine

/-- The guard of the engine's step in the present phase; there is none to take in `IDLE`
(R77, R81, R84, R88, R89, R92). -/
def engineEnabled (s : State) : Bool :=
  match s.phase with
  | .idle => false
  | .recvWait => byteOrTimeout s
  | .sendWait => cancelOrHandOver s
  | .frameHunt => true
  | .frameCollect => true
  | .lineCollect => byteOrTimeout s

/-- The engine moves: the step of its phase when enabled; held, with nothing changed, when not
(R10, R84, log 12). -/
def engineStep (s : State) : Host.Outcome State Fault Refusal :=
  if engineEnabled s then
    match s.phase with
    | .idle => .next s
    | .recvWait => recvWaitStep s
    | .sendWait => sendWaitStep s
    | .frameHunt => frameHuntStep s
    | .frameCollect => frameCollectStep s
    | .lineCollect => lineCollectStep s
  else .next s

end Sys2Proof.Machine
end

