-- ==== Sys2Proof/Machine/Schedule.lean ====
section
/-! DEFINITION. Which agent moves next, and what it moves: the environment's schedule, the command
port, the event ports, and the block left to itself (R3, R40, R50, R57, R131). -/

namespace Sys2Proof.Machine

/-- What the next step does, with the state it is done in. -/
inductive Action where
  /-- An instruction runs: a command is issued or an event occurs. -/
  | instr (i : Instr) (s : State)
  /-- A command word that selects no row is issued (R53). -/
  | illegal (s : State)
  /-- The engine moves. -/
  | engine (s : State)
  /-- Nothing happens: the agent that was to move is held or has nothing to do (R10, log 12). -/
  | held (s : State)

/-- The next slot of the schedule and the state with it taken off; none when the environment has
fallen silent (R40, log 1, log 26). -/
def drawSlot (s : State) : Option (Slot × State) :=
  match s.sched with
  | slot :: rest => some (slot, { s with sched := rest })
  | [] =>
    match s.schedTail with
    | .stop => none
    | .loop slot rest => some (slot, { s with sched := rest })
    | .free => some (Config.freeSlot s.fresh, { s with fresh := s.fresh + 1 })

/-- The word on the command port and the state with it taken from the poller; none when the poller
has no more commands (R50, log 4, log 26). -/
def drawWord (s : State) : Option (Word × State) :=
  match s.poller with
  | w :: ws => some (w, { s with poller := ws })
  | [] =>
    match s.pollerTail with
    | .stop => none
    | .loop w ws => some (w, { s with poller := ws })
    | .free => some (Config.freeWord s.fresh, { s with fresh := s.fresh + 1 })

/-- `Issue` (R50): with the port ready, the word on it is decoded and taken from the poller; with the
port not ready, the poller is held and keeps its word (log 4). -/
def issueCommand (s : State) : Action :=
  if s.phase = .idle then
    match drawWord s with
    | none => .held s
    | some (w, t) =>
      match decodeCommand w with
      | .ok i => .instr i t
      | .error _ => .illegal t
  else .held s

/-- The bits of an event port: an event, or no strobe (R57). -/
def strobeEvent (e : EventWord) (s : State) : Action :=
  match decodeEvent e with
  | .ok i => .instr i s
  | .error _ => .held s

/-- The environment has fallen silent: the block's own agents move by themselves, the engine when its
step is enabled, else the tick when it is (R131 (1), (2)), else nothing. DESIGN CHOICE: the order of
the two (log 2); unsafe for a claim about a run in which the environment falls silent. -/
def quietAction (s : State) : Action :=
  if engineEnabled s then .engine s
  else if s.cnt = 0#16 then .held s
  else .instr .tick s

/-- What a slot's agent does in the state the slot is taken in: its input levels hold in this step
(R27, R40, log 3). -/
def slotAction (slot : Slot) (s : State) : Action :=
  let t := { s with cancel := slot.cancel, txReady := slot.txReady }
  match slot.move with
  | .poller => issueCommand t
  | .engine => .engine t
  | .event e => strobeEvent e t

/-- Take the next slot of the schedule and let its agent move; with none to take, the block is left
to itself (R40, log 1, log 26). -/
def nextAction (s : State) : Action :=
  match drawSlot s with
  | none => quietAction s
  | some (slot, u) => slotAction slot u

/-- The state in which an event port carries these bits at the very next step. -/
def withEvent (s : State) (e : EventWord) : State :=
  { s with sched := { move := .event e, cancel := s.cancel, txReady := s.txReady } :: s.sched }

/-- The state in which a command word is issued at the very next step: the port is ready, the word
stands on it, and the poller moves (log 15). -/
def withCommand (s : State) (w : Word) : State :=
  { s with
    phase := .idle
    poller := w :: s.poller
    sched := { move := .poller, cancel := s.cancel, txReady := s.txReady } :: s.sched }

end Sys2Proof.Machine
end

