-- ==== Sys2Proof/Machine/Step.lean ====
section
/-! DEFINITION. One step of the machine, and how an instruction is put where the next step takes it
from. -/

namespace Sys2Proof.Machine

/-- One atomic step of one agent (R10, R38, R40). -/
def step (s : State) : Host.Outcome State Fault Refusal :=
  match nextAction s with
  | .instr i t => exec i t
  | .illegal t => acceptIllegal t
  | .engine t => engineStep t
  | .held t => .next t

/-- The state whose next step runs the instruction with these bits: a command word of 32 bits is put
on the command port, the bits of the RX event port (9, or 16 in whole bytes) are put at the head of
the schedule. A single strobe bit names no port and places nothing (log 14, log 15). -/
def State.withFetchWord (s : State) (nbits w : Nat) : State :=
  if nbits = 32 then withCommand s (BitVec.ofNat 32 w)
  else if 9 ≤ nbits ∧ nbits ≤ 16 ∧ w < 512 then withEvent s (.rx (BitVec.ofNat 9 w))
  else s

end Sys2Proof.Machine
end

