-- ==== Sys2Proof/Safety.lean ====
section
/-! DEFINITION. The terms claims are stated in: the abstract content of a ring (R15), the invariant
of every reachable state (R30, R37, R75, R97), and a safe state. -/

namespace Sys2Proof.Machine

/-- `pend(q)` (R15): the pending bytes, oldest first. A pending slot that holds no value, which no
reachable ring has, contributes nothing. -/
def RingBuf.pend (cap : Nat) (q : RingBuf) : List Byte :=
  (List.range (q.avail cap)).filterMap fun k => Mem.get q.buf ((q.rp + k) % cap)

/-- The captured record `REC[0 .. LEN-1]` (R20). -/
def capturedRecord (s : State) : List Byte :=
  (List.range s.len.toNat).filterMap fun k => Mem.get s.record k

/-- A storage array of `size` cells: indices rising and in range (R33). -/
abbrev Mem.fits (size : Nat) (m : Mem) : Prop := Mem.wf m = true ∧ ∀ c ∈ m, c.1 < size

/-- A ring of capacity `cap`: indices in range (R13), its array in range (R33), and every pending
slot written (R30). -/
abbrev RingBuf.ok (cap : Nat) (q : RingBuf) : Prop :=
  q.wp < cap ∧ q.rp < cap ∧ Mem.fits cap q.buf ∧
    ∀ k < q.avail cap, (Mem.get q.buf ((q.rp + k) % cap)).isSome = true

/-- The record buffer: `LEN` in range (R20), its array in range (R33), and every cell below `LEN`
written (R30). -/
abbrev recordOk (s : State) : Prop :=
  s.len.toNat ≤ s.par.destCap ∧ Mem.fits s.par.destCap s.record ∧
    ∀ i < s.len.toNat, (Mem.get s.record i).isSome = true

/-- The bound of a running `FRAME` or `LINE`: `LEN <= MAXLEN`, `1 <= MAXLEN <= DEST_CAP` (R37, R97),
and nothing collected while hunting (R87, R88). -/
abbrev boundedPhase (s : State) : Prop :=
  ((s.phase = .frameHunt ∨ s.phase = .frameCollect ∨ s.phase = .lineCollect) →
    1 ≤ s.maxLen.toNat ∧ s.maxLen.toNat ≤ s.par.destCap ∧ s.len.toNat ≤ s.maxLen.toNat) ∧
  (s.phase = .frameHunt → s.len = 0#8)

/-- The invariant: parameters within R6's bounds, both rings and the record in order, the running
command's bound in order, and TX never overflowed (R75). -/
abbrev State.inv (s : State) : Prop :=
  s.par.wf ∧ s.rx.ok s.par.rxCap ∧ s.tx.ok s.par.txCap ∧ recordOk s ∧ boundedPhase s ∧
    s.tx.ovf = false

/-- Every byte of the three storage arrays reads in `t` as it read in `s`. -/
def sameReads (s t : State) : Prop :=
  ∀ j, Mem.get t.rx.buf j = Mem.get s.rx.buf j ∧ Mem.get t.tx.buf j = Mem.get s.tx.buf j ∧
    Mem.get t.record j = Mem.get s.record j

/-- `m'` is `m` with the byte `v` at index `i`: every other index reads as before (R33, R39). -/
def storedAt (m m' : Mem) (i : Nat) (v : Byte) : Prop :=
  Mem.get m' i = some v ∧ ∀ j, j ≠ i → Mem.get m' j = Mem.get m j

/-- An instruction that arrives on the command port: a row of format `CMD` (R49, R51). -/
def isCommand (i : Instr) : Bool := (rowBits i).isSome

/-- The instruction of one of the three reserved-opcode rows (R53). -/
def isReservedRow : Instr → Bool
  | .illegalOp9 _ => true
  | .illegalOpB _ => true
  | .illegalOpCF _ _ => true
  | .nop => false
  | .pop => false
  | .avail _ => false
  | .flush => false
  | .recv _ => false
  | .frame _ => false
  | .line _ _ => false
  | .rdrec _ => false
  | .send _ => false
  | .clrovf _ => false
  | .rxev _ => false
  | .txev => false
  | .tick => false
  | .reset => false

/-- A slot of the schedule in which the tick port is strobed and both input levels are 0. -/
def tickSlot : Slot := { move := .event (.tick 1#1), cancel := false, txReady := false }

/-- A slot of the schedule in which the engine moves and both input levels are 0. -/
def engineSlot : Slot := { move := .engine, cancel := false, txReady := false }

/-- A slot of the schedule in which the RX port is strobed with the byte `b` and both input levels
are 0. -/
def rxSlot (b : Byte) : Slot := { move := .event (.rx (1#1 ++ b)), cancel := false, txReady := false }

/-- The slot's event port carries the event `i` (R57). -/
def Slot.strobes (slot : Slot) (i : Instr) : Prop :=
  ∃ e, slot.move = .event e ∧ decodeEvent e = .ok i

/-- The step of `s` runs the instruction `i`. -/
def runsNext (s : State) (i : Instr) : Prop := ∃ u, nextAction s = .instr i u

/-- The step of `s` is an engine step taken in phase `p`. -/
def enginesNext (s : State) (p : Phase) : Prop := ∃ u, nextAction s = .engine u ∧ u.phase = p

/-- A safe state: the next `n` steps all answer a next state, for every `n`; no fault, no refusal. -/
def State.safe (s : State) : Prop := ∀ n, ∃ t, Sys2Proof.core.run n s = .next t

/-- Within `k` steps the machine is in `IDLE` with exactly one response more. -/
def State.answersWithin (s : State) (k : Nat) : Prop :=
  ∃ n t, n ≤ k ∧ Sys2Proof.core.run n s = .next t ∧ t.phase = .idle ∧
    ∃ w, t.rspout = s.rspout ++ [w]

/-- The machine never answers: after any number of steps the phase and the responses are as they
are in `s`. -/
def State.neverAnswers (s : State) : Prop :=
  ∀ n, ∃ t, Sys2Proof.core.run n s = .next t ∧ t.phase = s.phase ∧ t.rspout = s.rspout

/-- `n` steps of the engine alone, no other agent between them. -/
def engineRun : Nat → State → Host.Outcome State Fault Refusal
  | 0, s => .next s
  | n + 1, s =>
    match engineStep s with
    | .next t => engineRun n t
    | .fault f => .fault f
    | .refused r => .refused r

/-- Instructions one after another, no other agent between them (R82). -/
def execList : List Instr → State → Host.Outcome State Fault Refusal
  | [], s => .next s
  | i :: is, s =>
    match exec i s with
    | .next t => execList is t
    | .fault f => .fault f
    | .refused r => .refused r

end Sys2Proof.Machine
end

