-- ==== Sys2Proof/Certificates/Slice0/Obligations.lean ====
section
/-! DEFINITION. The statements about the model, one definition each, from the numbered rules of
spec/. A response word is written `rspWord st ovf_rx ovf_tx cn len val`; what its bits are is a
statement of its own (ResponseWordLayout). "Idle" is the phase in which the command port is ready. -/

open Sys2Proof Sys2Proof.Machine

/-! ## Encodings -/

/-- Sections 1 and 3 of 30_encoding.md: no bit of an encoding is dropped. -/
def Obligations.DecodeOfEncodeIsTheInstruction : Prop :=
  ∀ i : Instr, i.wf = true → decode (encode i) = .ok i

/-- Sections 1 and 3 of 30_encoding.md: a port word that decodes is the encoding of what it decodes
to, and that instruction is well formed. For the reserved opcodes 0x9 and 0xB to 0xF this rests on the
model's choice to keep the word's ignored bits in the instruction (log 23): R53 says that the bits are
ignored, and no section says that they are kept. -/
def Obligations.EncodeOfDecodeIsTheWord : Prop :=
  ∀ (p : PortWord) (i : Instr), decode p = .ok i → i.wf = true ∧ encode i = p

/-- R51: each of the ten commands is decoded from exactly the words its row's `match` and `mask`
select, with its operands from their fields (R52). The rows of the two other clauses are those of
opcode_table.json, the three reserved-opcode rows of R53 included (R51 alone has ten): two rows that
select one word are one row, and a word is rejected by name exactly when no row selects it, which is
the model's reading of R53 (log 13). -/
def Obligations.CommandWordsSelectTheirRows : Prop :=
  (∀ w : Word,
    (decodeCommand w = .ok .nop ↔ selects w ⟨0x00000000#32, 0xFFFFFFFF#32⟩ = true) ∧
    (decodeCommand w = .ok .pop ↔ selects w ⟨0x10000000#32, 0xFFFFFFFF#32⟩ = true) ∧
    (∀ r, decodeCommand w = .ok (.avail r) ↔
      selects w ⟨0x20000000#32, 0xFEFFFFFF#32⟩ = true ∧ r = ringOfBit (w.extractLsb' 24 1)) ∧
    (decodeCommand w = .ok .flush ↔ selects w ⟨0x30000000#32, 0xFFFFFFFF#32⟩ = true) ∧
    (∀ t, decodeCommand w = .ok (.recv t) ↔
      selects w ⟨0x40000000#32, 0xFFFF0000#32⟩ = true ∧ t = w.extractLsb' 0 16) ∧
    (∀ m, decodeCommand w = .ok (.frame m) ↔
      selects w ⟨0x50000000#32, 0xFF00FFFF#32⟩ = true ∧ m = w.extractLsb' 16 8) ∧
    (∀ m t, decodeCommand w = .ok (.line m t) ↔
      selects w ⟨0x60000000#32, 0xFF000000#32⟩ = true ∧ m = w.extractLsb' 16 8 ∧
        t = w.extractLsb' 0 16) ∧
    (∀ i, decodeCommand w = .ok (.rdrec i) ↔
      selects w ⟨0x70000000#32, 0xFF00FFFF#32⟩ = true ∧ i = w.extractLsb' 16 8) ∧
    (∀ b, decodeCommand w = .ok (.send b) ↔
      selects w ⟨0x80000000#32, 0xFF00FFFF#32⟩ = true ∧ b = w.extractLsb' 16 8) ∧
    (∀ r, decodeCommand w = .ok (.clrovf r) ↔
      selects w ⟨0xA0000000#32, 0xFEFFFFFF#32⟩ = true ∧ r = ringOfBit (w.extractLsb' 24 1))) ∧
  (∀ (w : Word) (i j : Instr) (a b : RowBits), rowBits i = some a → rowBits j = some b →
    selects w a = true → selects w b = true → a = b) ∧
  (∀ w : Word, decodeCommand w = .error .mustBeZero ↔
    ∀ (i : Instr) (a : RowBits), rowBits i = some a → selects w a = false)

/-- Nine words written out in 30_encoding.md section 4 and 95_test_vectors.md sections 3.4 to 3.8 and
4, and the two words of the RX event port with the byte 0x0D, which follow from the bit positions of
30_encoding.md section 3. That 0x11000000 is rejected by name (log 13) and that 0xFFFFFFFF keeps its
ignored bits (log 23) are the model's choices. -/
def Obligations.SampleWordsDecode : Prop :=
  decodeCommand 0x21000000#32 = .ok (.avail .tx) ∧
  decodeCommand 0x4000FFFF#32 = .ok (.recv 65535#16) ∧
  decodeCommand 0x50800000#32 = .ok (.frame 128#8) ∧
  decodeCommand 0x608000FA#32 = .ok (.line 128#8 250#16) ∧
  decodeCommand 0x700E0000#32 = .ok (.rdrec 14#8) ∧
  decodeCommand 0x80410000#32 = .ok (.send 0x41#8) ∧
  decodeCommand 0xA1000000#32 = .ok (.clrovf .tx) ∧
  decodeCommand 0x11000000#32 = .error .mustBeZero ∧
  decodeCommand 0xFFFFFFFF#32 = .ok (.illegalOpCF 15#4 0xFFFFFFF#28) ∧
  decodeEvent (.rx 0x10D#9) = .ok (.rxev 0x0D#8) ∧
  decodeEvent (.rx 0x00D#9) = .error .noStrobe

/-- R53: a word that selects none of the ten command rows is accepted in `IDLE`, answers `ILLEGAL`
and changes no other state, the phase included; so do the three reserved-opcode rows as
instructions. -/
def Obligations.IllegalWordsAnswerIllegal : Prop :=
  (∀ (s : State) (w : Word), s.phase = .idle →
    (∀ (i : Instr) (a : RowBits), isReservedRow i = false → rowBits i = some a →
      selects w a = false) →
    step (withCommand s w) = .next { s with
      rspout := s.rspout ++ [rspWord .illegal s.rx.ovf s.tx.ovf false 0#8 0#16] }) ∧
  (∀ (s : State) (i : Instr), s.phase = .idle → isReservedRow i = true →
    exec i s = .next { s with
      rspout := s.rspout ++ [rspWord .illegal s.rx.ovf s.tx.ovf false 0#8 0#16] })

/-- R55: the fields of a response word, and that responding appends exactly that word. -/
def Obligations.ResponseWordLayout : Prop :=
  (∀ (st : Status) (x y cn : Bool) (len : BitVec 8) (val : BitVec 16),
    (rspWord st x y cn len val).extractLsb' 28 4 = statusCode st ∧
    (rspWord st x y cn len val).getLsbD 27 = x ∧
    (rspWord st x y cn len val).getLsbD 26 = y ∧
    (rspWord st x y cn len val).getLsbD 25 = cn ∧
    (rspWord st x y cn len val).getLsbD 24 = false ∧
    (rspWord st x y cn len val).extractLsb' 16 8 = len ∧
    (rspWord st x y cn len val).extractLsb' 0 16 = val) ∧
  (statusCode .ok = 0#4 ∧ statusCode .empty = 1#4 ∧ statusCode .timeout = 2#4 ∧
    statusCode .tooLong = 3#4 ∧ statusCode .exhausted = 4#4 ∧ statusCode .noStart = 5#4 ∧
    statusCode .illegal = 6#4 ∧ statusCode .range = 7#4) ∧
  (∀ (s : State) (st : Status) (len : BitVec 8) (val : BitVec 16) (cn : Bool),
    respond s st len val cn =
      { s with rspout := s.rspout ++ [rspWord st s.rx.ovf s.tx.ovf cn len val] })

/-! ## The step -/

/-- R50: when the poller moves and the port is ready, the word on the port is taken and the
instruction it decodes to runs, or `ILLEGAL` is answered when it decodes to none; when the port is
not ready the poller is held and keeps its word. The schedule slot is consumed and its input levels
hold in the step; the form of the schedule is the model's choice (log 1, log 3, log 4, log 12). -/
def Obligations.StepIssuesTheDecodedCommand : Prop :=
  ∀ (s : State) (slot : Slot) (rest : List Slot) (w : Word) (ws : List Word),
    s.sched = slot :: rest → slot.move = .poller → s.poller = w :: ws →
    (∀ i, s.phase = .idle → decodeCommand w = .ok i →
      step s = exec i { s with
        sched := rest, cancel := slot.cancel, txReady := slot.txReady, poller := ws }) ∧
    (∀ e, s.phase = .idle → decodeCommand w = .error e →
      step s = acceptIllegal { s with
        sched := rest, cancel := slot.cancel, txReady := slot.txReady, poller := ws }) ∧
    (s.phase ≠ .idle →
      step s = .next { s with sched := rest, cancel := slot.cancel, txReady := slot.txReady })

/-- R57: an event port whose strobe is 1 runs its event, in every phase, and a port whose strobe is
0 runs none; the bits of the four ports. -/
def Obligations.StepRunsTheStrobedEvent : Prop :=
  (∀ (s : State) (slot : Slot) (rest : List Slot) (e : EventWord),
    s.sched = slot :: rest → slot.move = .event e →
    (∀ i, decodeEvent e = .ok i →
      step s = exec i { s with sched := rest, cancel := slot.cancel, txReady := slot.txReady }) ∧
    (∀ r, decodeEvent e = .error r →
      step s = .next { s with sched := rest, cancel := slot.cancel, txReady := slot.txReady })) ∧
  (∀ b : Byte, decodeEvent (.rx (1#1 ++ b)) = .ok (.rxev b)) ∧
  decodeEvent (.tx 1#1) = .ok .txev ∧ decodeEvent (.tick 1#1) = .ok .tick ∧
  decodeEvent (.reset 1#1) = .ok .reset ∧
  (∀ b : Byte, decodeEvent (.rx (0#1 ++ b)) = .error .noStrobe) ∧
  decodeEvent (.tx 0#1) = .error .noStrobe ∧ decodeEvent (.tick 0#1) = .error .noStrobe ∧
  decodeEvent (.reset 0#1) = .error .noStrobe

/-- The engine's moves. When the environment has fallen silent (nothing scheduled, and the schedule
does not go on) the block's own agents move, the engine before the tick: that order is the model's
choice (log 2), and so is the form of the schedule (log 1, log 26). -/
def Obligations.StepRunsTheEngine : Prop :=
  (∀ (s : State) (slot : Slot) (rest : List Slot), s.sched = slot :: rest → slot.move = .engine →
    step s = engineStep { s with sched := rest, cancel := slot.cancel, txReady := slot.txReady }) ∧
  (∀ s : State, s.sched = [] → s.schedTail = .stop →
    engineEnabled s = true → step s = engineStep s) ∧
  (∀ s : State, s.sched = [] → s.schedTail = .stop →
    engineEnabled s = false → s.cnt ≠ 0#16 → step s = exec .tick s) ∧
  (∀ s : State, s.sched = [] → s.schedTail = .stop →
    engineEnabled s = false → s.cnt = 0#16 → step s = .next s)

/-- What is held: a command presented while another is in flight, an engine step whose guard is
false, a `TICK` at `CNT = 0`. The spec says that such a step is not enabled and that the agent is
held; that taking it in the model leaves the state as it is, is the model's reading (log 12). -/
def Obligations.HeldStepsChangeNothing : Prop :=
  (∀ (i : Instr) (s : State), isCommand i = true → s.phase ≠ .idle → exec i s = .next s) ∧
  (∀ s : State, s.phase ≠ .idle → acceptIllegal s = .next s) ∧
  (∀ s : State, engineEnabled s = false → engineStep s = .next s) ∧
  (∀ s : State, s.cnt = 0#16 → exec .tick s = .next s)

/-! ## Single-step commands -/

/-- R74. -/
def Obligations.NopReportsTheFlags : Prop :=
  decodeCommand 0x00000000#32 = .ok .nop ∧
  (∀ s : State, s.phase = .idle →
    exec .nop s = .next { s with
      rspout := s.rspout ++ [rspWord .ok s.rx.ovf s.tx.ovf false 0#8 0#16] }) ∧
  rspWord .ok true false false 0#8 0#16 = 0x08000000#32

/-- R68. -/
def Obligations.PopReturnsTheOldestByteOrEmpty : Prop :=
  decodeCommand 0x10000000#32 = .ok .pop ∧
  (∀ s : State, s.phase = .idle → s.rx.rp = s.rx.wp →
    exec .pop s = .next { s with
      rspout := s.rspout ++ [rspWord .empty s.rx.ovf s.tx.ovf false 0#8 0#16] }) ∧
  (∀ (s : State) (v : Byte), s.phase = .idle → s.rx.rp ≠ s.rx.wp → s.rx.rp < s.par.rxCap →
    Mem.get s.rx.buf s.rx.rp = some v →
    exec .pop s = .next { s with
      rx := { s.rx with rp := (s.rx.rp + 1) % s.par.rxCap }
      rspout := s.rspout ++ [rspWord .ok s.rx.ovf s.tx.ovf false 0#8 (v.setWidth 16)] })

/-- R69, with the count as R63 gives it for indices in range. -/
def Obligations.AvailCountsThePendingBytes : Prop :=
  decodeCommand 0x20000000#32 = .ok (.avail .rx) ∧
  decodeCommand 0x21000000#32 = .ok (.avail .tx) ∧
  (∀ s : State, s.phase = .idle → s.rx.wp < s.par.rxCap → s.rx.rp < s.par.rxCap →
    s.par.rxCap ≤ 65536 →
    ∃ val : BitVec 16,
      val.toNat = (if s.rx.rp ≤ s.rx.wp then s.rx.wp - s.rx.rp
        else s.rx.wp + s.par.rxCap - s.rx.rp) ∧
      exec (.avail .rx) s = .next { s with
        rspout := s.rspout ++ [rspWord .ok s.rx.ovf s.tx.ovf false 0#8 val] }) ∧
  (∀ s : State, s.phase = .idle → s.tx.wp < s.par.txCap → s.tx.rp < s.par.txCap →
    s.par.txCap ≤ 65536 →
    ∃ val : BitVec 16,
      val.toNat = (if s.tx.rp ≤ s.tx.wp then s.tx.wp - s.tx.rp
        else s.tx.wp + s.par.txCap - s.tx.rp) ∧
      exec (.avail .tx) s = .next { s with
        rspout := s.rspout ++ [rspWord .ok s.rx.ovf s.tx.ovf false 0#8 val] })

/-- R72. -/
def Obligations.FlushDiscardsWhatIsPending : Prop :=
  decodeCommand 0x30000000#32 = .ok .flush ∧
  (∀ s : State, s.phase = .idle →
    exec .flush s = .next { s with
      rx := { s.rx with rp := s.rx.wp }
      rspout := s.rspout ++ [rspWord .ok s.rx.ovf s.tx.ovf false 0#8 0#16] })

/-- R73, the flag bits sampled after the clear (R56). -/
def Obligations.ClrovfClearsOneFlag : Prop :=
  decodeCommand 0xA0000000#32 = .ok (.clrovf .rx) ∧
  decodeCommand 0xA1000000#32 = .ok (.clrovf .tx) ∧
  (∀ s : State, s.phase = .idle →
    exec (.clrovf .rx) s = .next { s with
      rx := { s.rx with ovf := false }
      rspout := s.rspout ++ [rspWord .ok false s.tx.ovf false 0#8 0#16] }) ∧
  (∀ s : State, s.phase = .idle →
    exec (.clrovf .tx) s = .next { s with
      tx := { s.tx with ovf := false }
      rspout := s.rspout ++ [rspWord .ok s.rx.ovf false false 0#8 0#16] })

/-- R94. -/
def Obligations.RdrecReadsTheRecordBelowLen : Prop :=
  (∀ i : BitVec 8, decodeCommand (0x70#8 ++ i ++ 0#16) = .ok (.rdrec i)) ∧
  (∀ (s : State) (i : BitVec 8) (v : Byte), s.phase = .idle → i.toNat < s.len.toNat →
    i.toNat < s.par.destCap → Mem.get s.record i.toNat = some v →
    exec (.rdrec i) s = .next { s with
      rspout := s.rspout ++ [rspWord .ok s.rx.ovf s.tx.ovf false 0#8 (v.setWidth 16)] }) ∧
  (∀ (s : State) (i : BitVec 8), s.phase = .idle → s.len.toNat ≤ i.toNat →
    exec (.rdrec i) s = .next { s with
      rspout := s.rspout ++ [rspWord .range s.rx.ovf s.tx.ovf false 0#8 0#16] })

/-! ## Acceptance of the multi-step commands -/

/-- R76. -/
def Obligations.RecvLoadsTheCountdownAndWaits : Prop :=
  (∀ t : BitVec 16, decodeCommand (0x4000#16 ++ t) = .ok (.recv t)) ∧
  (∀ (s : State) (t : BitVec 16), s.phase = .idle →
    exec (.recv t) s = .next { s with cnt := t, phase := .recvWait })

/-- R80: room in TX, no room, transmitter ready, transmitter not ready. -/
def Obligations.SendHandsTheByteOverOrWaits : Prop :=
  (∀ b : BitVec 8, decodeCommand (0x80#8 ++ b ++ 0#16) = .ok (.send b)) ∧
  (∀ (s : State) (b : BitVec 8), s.phase = .idle → s.par.txQueued = true →
    (s.tx.wp + 1) % s.par.txCap ≠ s.tx.rp → s.tx.wp < s.par.txCap →
    ∃ m, storedAt s.tx.buf m s.tx.wp b ∧
      exec (.send b) s = .next { s with
        tx := { s.tx with buf := m, wp := (s.tx.wp + 1) % s.par.txCap }
        rspout := s.rspout ++ [rspWord .ok s.rx.ovf s.tx.ovf false 0#8 0#16] }) ∧
  (∀ (s : State) (b : BitVec 8), s.phase = .idle → s.par.txQueued = true →
    (s.tx.wp + 1) % s.par.txCap = s.tx.rp →
    exec (.send b) s = .next { s with sByte := b, phase := .sendWait }) ∧
  (∀ (s : State) (b : BitVec 8), s.phase = .idle → s.par.txQueued = false → s.txReady = true →
    exec (.send b) s = .next { s with
      txout := s.txout ++ [b]
      rspout := s.rspout ++ [rspWord .ok s.rx.ovf s.tx.ovf false 0#8 0#16] }) ∧
  (∀ (s : State) (b : BitVec 8), s.phase = .idle → s.par.txQueued = false → s.txReady = false →
    exec (.send b) s = .next { s with sByte := b, phase := .sendWait })

/-- R87. -/
def Obligations.FrameStartsTheHuntOrAnswersRange : Prop :=
  (∀ m : BitVec 8, decodeCommand (0x50#8 ++ m ++ 0#16) = .ok (.frame m)) ∧
  (∀ (s : State) (m : BitVec 8), s.phase = .idle → m ≠ 0#8 → m.toNat ≤ s.par.destCap →
    exec (.frame m) s = .next { s with maxLen := m, len := 0#8, phase := .frameHunt }) ∧
  (∀ (s : State) (m : BitVec 8), s.phase = .idle → m = 0#8 ∨ s.par.destCap < m.toNat →
    exec (.frame m) s = .next { s with
      rspout := s.rspout ++ [rspWord .range s.rx.ovf s.tx.ovf false 0#8 0#16] })

/-- R91. -/
def Obligations.LineStartsTheScanOrAnswersRange : Prop :=
  (∀ (m : BitVec 8) (t : BitVec 16), decodeCommand (0x60#8 ++ m ++ t) = .ok (.line m t)) ∧
  (∀ (s : State) (m : BitVec 8) (t : BitVec 16), s.phase = .idle → m ≠ 0#8 →
    m.toNat ≤ s.par.destCap →
    exec (.line m t) s = .next { s with
      maxLen := m, len := 0#8, cnt := t, phase := .lineCollect }) ∧
  (∀ (s : State) (m : BitVec 8) (t : BitVec 16), s.phase = .idle →
    m = 0#8 ∨ s.par.destCap < m.toNat →
    exec (.line m t) s = .next { s with
      rspout := s.rspout ++ [rspWord .range s.rx.ovf s.tx.ovf false 0#8 0#16] })

/-! ## Events -/

/-- R70 with R61: in every phase, the byte is dropped and the flag set when RX is full, and stored at
`RX.wp` otherwise. -/
def Obligations.RxevPushesOrDropsTheByte : Prop :=
  (∀ (s : State) (b : BitVec 8), (s.rx.wp + 1) % s.par.rxCap = s.rx.rp →
    exec (.rxev b) s = .next { s with rx := { s.rx with ovf := true } }) ∧
  (∀ (s : State) (b : BitVec 8), (s.rx.wp + 1) % s.par.rxCap ≠ s.rx.rp →
    s.rx.wp < s.par.rxCap →
    ∃ m, storedAt s.rx.buf m s.rx.wp b ∧
      exec (.rxev b) s = .next { s with
        rx := { s.rx with buf := m, wp := (s.rx.wp + 1) % s.par.rxCap } })

/-- R71: a byte of TX is emitted in queued mode; nothing happens on an empty TX or in direct mode. -/
def Obligations.TxevEmitsTheOldestQueuedByte : Prop :=
  (∀ (s : State) (v : Byte), s.par.txQueued = true → s.tx.rp ≠ s.tx.wp → s.tx.rp < s.par.txCap →
    Mem.get s.tx.buf s.tx.rp = some v →
    exec .txev s = .next { s with
      tx := { s.tx with rp := (s.tx.rp + 1) % s.par.txCap }
      txout := s.txout ++ [v] }) ∧
  (∀ s : State, s.par.txQueued = true → s.tx.rp = s.tx.wp → exec .txev s = .next s) ∧
  (∀ s : State, s.par.txQueued = false → exec .txev s = .next s)

/-- R23: one less above 0, in every phase, and nothing else; so never below 0. -/
def Obligations.TickCountsDownToZero : Prop :=
  ∀ s : State, s.cnt ≠ 0#16 →
    ∃ c : BitVec 16, c.toNat + 1 = s.cnt.toNat ∧ exec .tick s = .next { s with cnt := c }

/-- Section 1 of 70_reset_and_hazards.md: in every state a `RESET` gives each element of the block to
which 10_state.md section 6 gives a value that value; no response is produced; nothing is pending.
That `rspout` keeps the responses made before is the model's reading (log 11). Nothing is said of
`MAXLEN`, `SBYTE` and the storage cells, which are unspecified. -/
def Obligations.ResetEventClearsTheBlock : Prop :=
  ∀ s : State, ∃ t, exec .reset s = .next t ∧
    t.rx.wp = 0 ∧ t.rx.rp = 0 ∧ t.rx.ovf = false ∧
    t.tx.wp = 0 ∧ t.tx.rp = 0 ∧ t.tx.ovf = false ∧
    t.phase = .idle ∧ t.cnt = 0#16 ∧ t.len = 0#8 ∧
    t.rspout = s.rspout ∧ t.rx.pend t.par.rxCap = [] ∧ t.tx.pend t.par.txCap = []

/-- R31: the state after reset, for every choice of the parameters. Nothing is said of `MAXLEN` and
`SBYTE`, whose values are the model's (log 9), nor of the storage cells. -/
def Obligations.ResetStateIsTheSpecs : Prop :=
  ∀ p : Params,
    (State.resetWith p).rx.wp = 0 ∧ (State.resetWith p).rx.rp = 0 ∧
    (State.resetWith p).tx.wp = 0 ∧ (State.resetWith p).tx.rp = 0 ∧
    (State.resetWith p).rx.ovf = false ∧ (State.resetWith p).tx.ovf = false ∧
    (State.resetWith p).phase = .idle ∧ (State.resetWith p).cnt = 0#16 ∧
    (State.resetWith p).len = 0#8 ∧ (State.resetWith p).txout = [] ∧
    (State.resetWith p).rspout = []

/-! ## Engine steps -/

/-- R77: the guard, and the three ends in the order they are tested. -/
def Obligations.RecvWaitStepTakesByteOrTimesOut : Prop :=
  ∀ s : State, s.phase = .recvWait →
    (engineEnabled s = true ↔ s.cancel = true ∨ s.rx.rp ≠ s.rx.wp ∨ s.cnt = 0#16) ∧
    (s.cancel = true → engineStep s = .next { s with
      phase := .idle
      rspout := s.rspout ++ [rspWord .timeout s.rx.ovf s.tx.ovf true 0#8 0#16] }) ∧
    (∀ v : Byte, s.cancel = false → s.rx.rp ≠ s.rx.wp → s.rx.rp < s.par.rxCap →
      Mem.get s.rx.buf s.rx.rp = some v →
      engineStep s = .next { s with
        rx := { s.rx with rp := (s.rx.rp + 1) % s.par.rxCap }
        phase := .idle
        rspout := s.rspout ++ [rspWord .ok s.rx.ovf s.tx.ovf false 0#8 (v.setWidth 16)] }) ∧
    (s.cancel = false → s.rx.rp = s.rx.wp → s.cnt = 0#16 → engineStep s = .next { s with
      phase := .idle
      rspout := s.rspout ++ [rspWord .timeout s.rx.ovf s.tx.ovf false 0#8 0#16] })

/-- R81: the guard, and the three ends in the order they are tested. -/
def Obligations.SendWaitStepHandsTheByteOver : Prop :=
  ∀ s : State, s.phase = .sendWait →
    (engineEnabled s = true ↔ s.cancel = true ∨
      (s.par.txQueued = true ∧ (s.tx.wp + 1) % s.par.txCap ≠ s.tx.rp) ∨
      (s.par.txQueued = false ∧ s.txReady = true)) ∧
    (s.cancel = true → engineStep s = .next { s with
      phase := .idle
      rspout := s.rspout ++ [rspWord .timeout s.rx.ovf s.tx.ovf true 0#8 0#16] }) ∧
    (s.cancel = false → s.par.txQueued = true → (s.tx.wp + 1) % s.par.txCap ≠ s.tx.rp →
      s.tx.wp < s.par.txCap →
      ∃ m, storedAt s.tx.buf m s.tx.wp s.sByte ∧
        engineStep s = .next { s with
          tx := { s.tx with buf := m, wp := (s.tx.wp + 1) % s.par.txCap }
          phase := .idle
          rspout := s.rspout ++ [rspWord .ok s.rx.ovf s.tx.ovf false 0#8 0#16] }) ∧
    (s.cancel = false → s.par.txQueued = false → s.txReady = true → engineStep s = .next { s with
      txout := s.txout ++ [s.sByte]
      phase := .idle
      rspout := s.rspout ++ [rspWord .ok s.rx.ovf s.tx.ovf false 0#8 0#16] })

/-- R88. -/
def Obligations.FrameHuntStepDiscardsUntilTheStart : Prop :=
  ∀ s : State, s.phase = .frameHunt →
    engineEnabled s = true ∧
    (s.cancel = true → engineStep s = .next { s with
      phase := .idle
      rspout := s.rspout ++ [rspWord .timeout s.rx.ovf s.tx.ovf true 0#8 0#16] }) ∧
    (s.cancel = false → s.rx.rp = s.rx.wp → engineStep s = .next { s with
      phase := .idle
      rspout := s.rspout ++ [rspWord .noStart s.rx.ovf s.tx.ovf false 0#8 0#16] }) ∧
    (∀ v : Byte, s.cancel = false → s.rx.rp ≠ s.rx.wp → s.rx.rp < s.par.rxCap →
      Mem.get s.rx.buf s.rx.rp = some v →
      engineStep s = .next { s with
        rx := { s.rx with rp := (s.rx.rp + 1) % s.par.rxCap }
        phase := if v = s.par.sof then .frameCollect else .frameHunt })

/-- R89. -/
def Obligations.FrameCollectStepCollectsUntilTheEnd : Prop :=
  ∀ s : State, s.phase = .frameCollect →
    engineEnabled s = true ∧
    (s.cancel = true → engineStep s = .next { s with
      phase := .idle
      rspout := s.rspout ++ [rspWord .timeout s.rx.ovf s.tx.ovf true s.len 0#16] }) ∧
    (s.cancel = false → s.rx.rp = s.rx.wp → engineStep s = .next { s with
      phase := .idle
      rspout := s.rspout ++ [rspWord .exhausted s.rx.ovf s.tx.ovf false s.len 0#16] }) ∧
    (∀ v : Byte, s.cancel = false → s.rx.rp ≠ s.rx.wp → s.rx.rp < s.par.rxCap →
      Mem.get s.rx.buf s.rx.rp = some v →
      (v = s.par.eof → engineStep s = .next { s with
        rx := { s.rx with rp := (s.rx.rp + 1) % s.par.rxCap }
        phase := .idle
        rspout := s.rspout ++ [rspWord .ok s.rx.ovf s.tx.ovf false s.len 0#16] }) ∧
      (v ≠ s.par.eof → s.len = s.maxLen → engineStep s = .next { s with
        rx := { s.rx with rp := (s.rx.rp + 1) % s.par.rxCap }
        phase := .idle
        rspout := s.rspout ++ [rspWord .tooLong s.rx.ovf s.tx.ovf false s.len 0#16] }) ∧
      (v ≠ s.par.eof → s.len ≠ s.maxLen → s.len.toNat < s.par.destCap →
        ∃ m, storedAt s.record m s.len.toNat v ∧
          engineStep s = .next { s with
            rx := { s.rx with rp := (s.rx.rp + 1) % s.par.rxCap }
            record := m
            len := s.len + 1#8 }))

/-- R92: the guard, and the ends in the order they are tested. -/
def Obligations.LineCollectStepCollectsUntilCr : Prop :=
  ∀ s : State, s.phase = .lineCollect →
    (engineEnabled s = true ↔ s.cancel = true ∨ s.rx.rp ≠ s.rx.wp ∨ s.cnt = 0#16) ∧
    (s.cancel = true → engineStep s = .next { s with
      phase := .idle
      rspout := s.rspout ++ [rspWord .timeout s.rx.ovf s.tx.ovf true s.len 0#16] }) ∧
    (s.cancel = false → s.rx.rp = s.rx.wp → s.cnt = 0#16 → engineStep s = .next { s with
      phase := .idle
      rspout := s.rspout ++ [rspWord .timeout s.rx.ovf s.tx.ovf false s.len 0#16] }) ∧
    (∀ v : Byte, s.cancel = false → s.rx.rp ≠ s.rx.wp → s.rx.rp < s.par.rxCap →
      Mem.get s.rx.buf s.rx.rp = some v →
      (v = s.par.cr → s.len = 0#8 → engineStep s = .next { s with
        rx := { s.rx with rp := (s.rx.rp + 1) % s.par.rxCap } }) ∧
      (v ≠ s.par.cr ∨ s.len ≠ 0#8 → s.len = s.maxLen → engineStep s = .next { s with
        rx := { s.rx with rp := (s.rx.rp + 1) % s.par.rxCap }
        phase := .idle
        rspout := s.rspout ++ [rspWord .tooLong s.rx.ovf s.tx.ovf false s.len 0#16] }) ∧
      (v ≠ s.par.cr → s.len ≠ s.maxLen → s.len.toNat < s.par.destCap →
        ∃ m, storedAt s.record m s.len.toNat v ∧
          engineStep s = .next { s with
            rx := { s.rx with rp := (s.rx.rp + 1) % s.par.rxCap }
            record := m
            len := s.len + 1#8 }) ∧
      (v = s.par.cr → s.len ≠ 0#8 → s.len ≠ s.maxLen → s.len.toNat < s.par.destCap →
        ∃ m, storedAt s.record m s.len.toNat v ∧
          engineStep s = .next { s with
            rx := { s.rx with rp := (s.rx.rp + 1) % s.par.rxCap }
            record := m
            len := s.len + 1#8
            phase := .idle
            rspout := s.rspout ++ [rspWord .ok s.rx.ovf s.tx.ovf false (s.len + 1#8) 0#16] }))

/-- R83: while `cancel` is 1 the engine step of every waiting phase is enabled and ends the command
with `TIMEOUT`, `cn = 1`, consuming nothing; in `IDLE` the engine does nothing; no instruction,
acceptance included, depends on `cancel`. The premise on `FRAME_HUNT` is part of the model's
invariant: there `LEN` is 0. -/
def Obligations.CancelEndsEveryWaitAndNothingElse : Prop :=
  (∀ s : State, s.phase ≠ .idle → s.cancel = true → (s.phase = .frameHunt → s.len = 0#8) →
    engineEnabled s = true ∧
    engineStep s = .next { s with
      phase := .idle
      rspout := s.rspout ++ [rspWord .timeout s.rx.ovf s.tx.ovf true
        (if s.phase = .frameHunt ∨ s.phase = .frameCollect ∨ s.phase = .lineCollect then s.len
          else 0#8) 0#16] }) ∧
  (∀ s : State, s.phase = .idle → engineStep s = .next s) ∧
  (∀ (i : Instr) (s t : State) (c : Bool), exec i s = .next t →
    exec i { s with cancel := c } = .next { t with cancel := c })

/-! ## Invariants -/

/-- The invariant holds right after reset, for every choice of the parameters within R6's bounds and
every environment, endless ones included. -/
def Obligations.InvariantHoldsAfterReset : Prop :=
  ∀ (p : Params) (cmds : List Word) (slots : List Slot) (more : Tail Word) (moves : Tail Slot)
    (c r : Bool), p.wf →
    ({ State.resetWith p with
      poller := cmds, sched := slots, pollerTail := more, schedTail := moves
      cancel := c, txReady := r } : State).inv

/-- Every step keeps the invariant: indices in range, storage in canonical form and in range, every
pending slot and every record cell below `LEN` written, the bound of a running command in order, and
TX never overflowed (sections 5 of 10_state.md, 2 of 20_memory.md, 5 of 40_ring.md, 4 of
42_framed_receive.md). -/
def Obligations.EveryStepKeepsTheInvariant : Prop :=
  ∀ s t : State, s.inv → step s = .next t → t.inv

/-- Section 4 of 60_exceptions.md ("Fault: none; the block never traps"): in a state that meets the
invariant every step answers a next state; so do every instruction and every engine step. -/
def Obligations.NoFaultUnderTheInvariant : Prop :=
  ∀ s : State, s.inv →
    (∃ t, step s = .next t) ∧ (∃ t, engineStep s = .next t) ∧
      ∀ i : Instr, ∃ t, exec i s = .next t

/-- Section 4 of 60_exceptions.md: a run of any length, under any schedule, endless or not, never
faults. -/
def Obligations.EveryRunUnderTheInvariantIsSafe : Prop :=
  ∀ s : State, s.inv → s.safe

/-- Section 2 of 70_reset_and_hazards.md: the integrator's parameters cannot change. -/
def Obligations.NoStepChangesTheParameters : Prop :=
  ∀ s t : State, step s = .next t → t.par = s.par

/-- R26: both streams are append-only; R55, R99: a step appends at most one response, whose status is
one of the eight and whose bit 24 is 0; and it emits at most one byte. -/
def Obligations.StreamsOnlyGrow : Prop :=
  ∀ s t : State, step s = .next t →
    (t.txout = s.txout ∨ ∃ b, t.txout = s.txout ++ [b]) ∧
    (t.rspout = s.rspout ∨ ∃ w : Word, t.rspout = s.rspout ++ [w] ∧
      (w.extractLsb' 28 4).toNat ≤ 7 ∧ w.getLsbD 24 = false)

/-- R16 (and R117 for `RESET`): the only steps that write each element of a ring. A `SEND` writes TX
in queued mode alone. -/
def Obligations.OnlyTheOwnerMovesAnIndex : Prop :=
  ∀ s t : State, step s = .next t →
    (t.rx.wp ≠ s.rx.wp ∨ t.rx.buf ≠ s.rx.buf → (∃ b, runsNext s (.rxev b)) ∨ runsNext s .reset) ∧
    (t.rx.rp ≠ s.rx.rp →
      runsNext s .pop ∨ runsNext s .flush ∨ enginesNext s .recvWait ∨ enginesNext s .frameHunt ∨
        enginesNext s .frameCollect ∨ enginesNext s .lineCollect ∨ runsNext s .reset) ∧
    (t.tx.wp ≠ s.tx.wp ∨ t.tx.buf ≠ s.tx.buf →
      (s.par.txQueued = true ∧ ((∃ b, runsNext s (.send b)) ∨ enginesNext s .sendWait)) ∨
        runsNext s .reset) ∧
    (t.tx.rp ≠ s.tx.rp → runsNext s .txev ∨ runsNext s .reset)

/-- R17: `RX.ovf` is set by an `RXEV` that finds RX full and by nothing else, and cleared by
`CLROVF RX` and `RESET` alone; `TX.ovf` is set by no step, since nothing pushes on a full TX, and is
cleared by `CLROVF TX` and `RESET` alone. -/
def Obligations.OverflowFlagsAreSticky : Prop :=
  ∀ s t : State, step s = .next t →
    (s.rx.ovf = false → t.rx.ovf = true →
      s.rx.full s.par.rxCap = true ∧ ∃ b, runsNext s (.rxev b)) ∧
    (s.rx.ovf = true → t.rx.ovf = false → runsNext s (.clrovf .rx) ∨ runsNext s .reset) ∧
    (s.tx.ovf = false → t.tx.ovf = false) ∧
    (s.tx.ovf = true → t.tx.ovf = false → runsNext s (.clrovf .tx) ∨ runsNext s .reset)

/-- R54: an accepted command responds once, in its accepting step, or leaves `IDLE` without a
response; an engine step responds once when it returns to `IDLE` and not at all otherwise; events
and the engine in `IDLE` never respond. -/
def Obligations.OneResponsePerAcceptedCommand : Prop :=
  (∀ (i : Instr) (s t : State), isCommand i = true → s.phase = .idle → exec i s = .next t →
    (t.phase = .idle ∧ ∃ w, t.rspout = s.rspout ++ [w]) ∨
      (t.phase ≠ .idle ∧ t.rspout = s.rspout)) ∧
  (∀ s t : State, s.phase = .idle → acceptIllegal s = .next t →
    t.phase = .idle ∧ ∃ w, t.rspout = s.rspout ++ [w]) ∧
  (∀ s t : State, s.phase ≠ .idle → engineStep s = .next t →
    (t.phase = .idle ∧ ∃ w, t.rspout = s.rspout ++ [w]) ∨
      (t.phase ≠ .idle ∧ t.rspout = s.rspout)) ∧
  (∀ s t : State, s.phase = .idle → engineStep s = .next t → t.rspout = s.rspout) ∧
  (∀ (i : Instr) (s t : State), isCommand i = false → exec i s = .next t → t.rspout = s.rspout)

/-- Section 4 of 41_transport.md (the table of phases is marked derived there): which phases a step
can lead from and to. -/
def Obligations.PhaseTransitionsAreTheTables : Prop :=
  (∀ s t : State, engineStep s = .next t →
    t.phase = s.phase ∨ t.phase = .idle ∨ (s.phase = .frameHunt ∧ t.phase = .frameCollect)) ∧
  (∀ (i : Instr) (s t : State), exec i s = .next t →
    t.phase = s.phase ∨ (i = .reset ∧ t.phase = .idle) ∨
      (s.phase = .idle ∧
        (((∃ b, i = .send b) ∧ t.phase = .sendWait) ∨
          ((∃ d, i = .recv d) ∧ t.phase = .recvWait) ∨
          ((∃ m, i = .frame m) ∧ t.phase = .frameHunt) ∨
          ((∃ m d, i = .line m d) ∧ t.phase = .lineCollect))))

/-! ## Queues -/

/-- Section 3 of 40_ring.md (marked derived there), the FIFO property: a successful push appends to
the pending bytes, a dropped one leaves them, a pop removes the head and returns it, a flush empties
them. -/
def Obligations.RingIsAFifoQueue : Prop :=
  ∀ (sp : Space) (cap : Nat) (q : RingBuf), 2 ≤ cap → q.ok cap →
    (∀ (b : Byte) (q' : RingBuf), q.push sp cap b = .ok q' →
      q'.pend cap = if q.full cap then q.pend cap else q.pend cap ++ [b]) ∧
    (∀ (v : Byte) (q' : RingBuf), q.pop sp cap = .ok (some v, q') → q.pend cap = v :: q'.pend cap) ∧
    (∀ q' : RingBuf, q.pop sp cap = .ok (none, q') → q.pend cap = [] ∧ q' = q) ∧
    q.flush.pend cap = []

/-- Section 3 of 40_ring.md (marked derived there), the availability property. -/
def Obligations.AvailIsTheNumberOfPendingBytes : Prop :=
  ∀ (cap : Nat) (q : RingBuf), 2 ≤ cap → q.ok cap →
    (q.pend cap).length = q.avail cap ∧ q.avail cap ≤ cap - 1

/-- Section 3 of 60_exceptions.md (marked derived there): an `RXEV` and a `TXEV` in either order lead
to the same state. -/
def Obligations.RxevAndTxevCommute : Prop :=
  ∀ (s t u : State) (b : BitVec 8), exec (.rxev b) s = .next t → exec .txev t = .next u →
    ∃ t', exec .txev s = .next t' ∧ exec (.rxev b) t' = .next u

/-! ## Whole commands -/

/-- Section 1 of 41_transport.md: a `RECV` that meets no byte and no cancel completes with `TIMEOUT`
at an engine step after as many ticks as its countdown holds, and is still held at an engine step
before that. The run is one the schedule gives: `k` ticks, then the engine (log 1). -/
def Obligations.RecvTimesOutAfterItsTicks : Prop :=
  ∀ (s : State) (k : Nat), s.phase = .recvWait → s.rx.rp = s.rx.wp →
    s.sched = List.replicate k tickSlot ++ [engineSlot] →
    (s.cnt.toNat ≤ k →
      Sys2Proof.core.run (k + 1) s = .next { s with
        cnt := 0#16, cancel := false, txReady := false, sched := [], phase := .idle
        rspout := s.rspout ++ [rspWord .timeout s.rx.ovf s.tx.ovf false 0#8 0#16] }) ∧
    (k < s.cnt.toNat →
      Sys2Proof.core.run (k + 1) s = .next { s with
        cnt := s.cnt - BitVec.ofNat 16 k, cancel := false, txReady := false
        sched := [] })

/-- Section 3 of 70_reset_and_hazards.md (commands that may not end; marked derived there): when the
environment has fallen silent, so that the producer leaves RX empty, a running `RECV`, `FRAME` or
`LINE` answers within `RX_CAP + CNT` steps, with exactly one response. The premise is one that section
asks for; that the environment can fall silent, and the order of the block's own agents then, are the
model's (log 2, log 26). -/
def Obligations.QuietBlockAnswersEveryReceive : Prop :=
  ∀ s : State, s.inv → s.sched = [] → s.schedTail = .stop →
    (s.phase = .recvWait ∨ s.phase = .frameHunt ∨ s.phase = .frameCollect ∨
      s.phase = .lineCollect) →
    s.answersWithin (s.par.rxCap + s.cnt.toNat)

/-- Section 4 of 42_framed_receive.md (marked derived there), the round trip of sentinel framing:
bytes before the first start sentinel are discarded, the payload is the record, the bytes after the
end sentinel stay in RX. -/
def Obligations.FrameReturnsTheEnqueuedPayload : Prop :=
  ∀ (s : State) (m : BitVec 8) (junk payload after : List Byte),
    s.inv → s.phase = .idle → s.cancel = false →
    s.rx.pend s.par.rxCap = junk ++ s.par.sof :: payload ++ s.par.eof :: after →
    s.par.sof ∉ junk → s.par.eof ∉ payload → m ≠ 0#8 → m.toNat ≤ s.par.destCap →
    payload.length ≤ m.toNat →
    ∃ u t, exec (.frame m) s = .next u ∧
      engineRun (junk.length + 1 + payload.length + 1) u = .next t ∧
      t.phase = .idle ∧ t.len.toNat = payload.length ∧ capturedRecord t = payload ∧
      t.rx.pend t.par.rxCap = after ∧
      t.rspout = s.rspout ++ [rspWord .ok s.rx.ovf s.tx.ovf false t.len 0#16]

/-- Section 4 of 42_framed_receive.md (marked derived there), the round trip of the CR-terminated
scan, for every timeout: the record is the payload with its terminator. -/
def Obligations.LineReturnsTheEnqueuedPayload : Prop :=
  ∀ (s : State) (m : BitVec 8) (d : BitVec 16) (payload after : List Byte),
    s.inv → s.phase = .idle → s.cancel = false →
    s.rx.pend s.par.rxCap = payload ++ s.par.cr :: after →
    s.par.cr ∉ payload → payload ≠ [] → m.toNat ≤ s.par.destCap →
    payload.length + 1 ≤ m.toNat →
    ∃ u t, exec (.line m d) s = .next u ∧ engineRun (payload.length + 1) u = .next t ∧
      t.phase = .idle ∧ t.len.toNat = payload.length + 1 ∧
      capturedRecord t = payload ++ [s.par.cr] ∧ t.rx.pend t.par.rxCap = after ∧
      t.rspout = s.rspout ++ [rspWord .ok s.rx.ovf s.tx.ovf false t.len 0#16]

/-- R82, when no `SEND` of the text has to wait: the bytes of `SENDS` enter TX, or `txout` in direct
mode, in text order, with one response `OK` for each and no terminator. -/
def Obligations.SendsQueuesTheTextInOrder : Prop :=
  ∀ (s : State) (d : BitVec 16) (text : List Byte), s.inv → s.phase = .idle →
    (s.par.txQueued = true → s.tx.avail s.par.txCap + text.length ≤ s.par.txCap - 1 →
      ∃ t, execList (expandPseudo d (.sends text)) s = .next t ∧ t.phase = .idle ∧
        t.tx.pend t.par.txCap = s.tx.pend s.par.txCap ++ text ∧ t.txout = s.txout ∧
        t.rspout = s.rspout ++
          List.replicate text.length (rspWord .ok s.rx.ovf s.tx.ovf false 0#8 0#16)) ∧
    (s.par.txQueued = false → s.txReady = true →
      execList (expandPseudo d (.sends text)) s = .next { s with
        txout := s.txout ++ text
        rspout := s.rspout ++
          List.replicate text.length (rspWord .ok s.rx.ovf s.tx.ovf false 0#8 0#16) })

/-! ## Frames -/

/-- The commands that only report leave everything but `rspout` as it is: `NOP`, `AVAIL`, `RDREC`
and the reserved opcodes. -/
def Obligations.ReportingCommandsChangeNothing : Prop :=
  ∀ (i : Instr) (s t : State),
    (i = .nop ∨ (∃ r, i = .avail r) ∨ (∃ k, i = .rdrec k) ∨ isReservedRow i = true) →
    exec i s = .next t → t = { s with rspout := t.rspout } ∧ sameReads s t

/-- `POP` and `FLUSH` change `RX.rp` and `rspout`, `CLROVF` one flag and `rspout`, and nothing else;
none stores a byte. -/
def Obligations.RingCommandsFrame : Prop :=
  (∀ (i : Instr) (s t : State), i = .pop ∨ i = .flush → exec i s = .next t →
    t = { s with rx := { s.rx with rp := t.rx.rp }, rspout := t.rspout } ∧ sameReads s t) ∧
  (∀ s t : State, exec (.clrovf .rx) s = .next t →
    t = { s with rx := { s.rx with ovf := t.rx.ovf }, rspout := t.rspout } ∧ sameReads s t) ∧
  (∀ s t : State, exec (.clrovf .tx) s = .next t →
    t = { s with tx := { s.tx with ovf := t.tx.ovf }, rspout := t.rspout } ∧ sameReads s t)

/-- Acceptance of `RECV`, `FRAME` and `LINE` touches no ring and stores no byte. -/
def Obligations.ReceiveAcceptanceFrame : Prop :=
  (∀ (d : BitVec 16) (s t : State), exec (.recv d) s = .next t →
    t = { s with cnt := t.cnt, phase := t.phase } ∧ sameReads s t) ∧
  (∀ (m : BitVec 8) (s t : State), exec (.frame m) s = .next t →
    t = { s with maxLen := t.maxLen, len := t.len, phase := t.phase, rspout := t.rspout } ∧
      sameReads s t) ∧
  (∀ (m : BitVec 8) (d : BitVec 16) (s t : State), exec (.line m d) s = .next t →
    t = { s with
      maxLen := t.maxLen, len := t.len, cnt := t.cnt, phase := t.phase, rspout := t.rspout } ∧
      sameReads s t)

/-- `SEND` stores at most at slot `TX.wp` and sets no flag; in direct mode TX is not touched. -/
def Obligations.SendFrame : Prop :=
  ∀ (b : BitVec 8) (s t : State), exec (.send b) s = .next t →
    t = { s with
      tx := { s.tx with buf := t.tx.buf, wp := t.tx.wp }
      txout := t.txout, sByte := t.sByte, phase := t.phase, rspout := t.rspout } ∧
    (∀ j, j ≠ s.tx.wp → Mem.get t.tx.buf j = Mem.get s.tx.buf j) ∧
    (s.par.txQueued = false → t.tx = s.tx) ∧ (s.par.txQueued = true → t.txout = s.txout)

/-- `RXEV` changes RX alone and stores at most at slot `RX.wp`; `TXEV` changes `TX.rp` and `txout`
alone; `TICK` changes `CNT` alone. -/
def Obligations.EventsFrame : Prop :=
  (∀ (b : BitVec 8) (s t : State), exec (.rxev b) s = .next t →
    t = { s with rx := { s.rx with buf := t.rx.buf, wp := t.rx.wp, ovf := t.rx.ovf } } ∧
      ∀ j, j ≠ s.rx.wp → Mem.get t.rx.buf j = Mem.get s.rx.buf j) ∧
  (∀ s t : State, exec .txev s = .next t →
    t = { s with tx := { s.tx with rp := t.tx.rp }, txout := t.txout } ∧ sameReads s t) ∧
  (∀ s t : State, exec .tick s = .next t → t = { s with cnt := t.cnt } ∧ sameReads s t)

/-- `RESET` leaves the parameters, both streams, the input levels and the environment's part as they
are: the model's reading of which elements a reset reaches (log 11). -/
def Obligations.ResetFrame : Prop :=
  ∀ s t : State, exec .reset s = .next t →
    t.par = s.par ∧ t.txout = s.txout ∧ t.rspout = s.rspout ∧ t.cancel = s.cancel ∧
      t.txReady = s.txReady ∧ t.poller = s.poller ∧ t.sched = s.sched ∧
      t.pollerTail = s.pollerTail ∧ t.schedTail = s.schedTail

/-- An engine step never touches `RX.wp`, the bytes or the flag of RX, `TX.rp` or the flag of TX, the
latches, the countdown, the input levels or the environment's part. It stores at most at `TX.wp`, and
at `REC[LEN]`; a receiving phase leaves TX and `txout` alone, the sending phase RX and the record. -/
def Obligations.EngineFrame : Prop :=
  ∀ s t : State, engineStep s = .next t →
    t = { s with
      rx := { s.rx with rp := t.rx.rp }
      tx := { s.tx with buf := t.tx.buf, wp := t.tx.wp }
      phase := t.phase, len := t.len, record := t.record, txout := t.txout, rspout := t.rspout } ∧
    (∀ j, j ≠ s.tx.wp → Mem.get t.tx.buf j = Mem.get s.tx.buf j) ∧
    (∀ j, j ≠ s.len.toNat → Mem.get t.record j = Mem.get s.record j) ∧
    (s.phase ≠ .sendWait → t.tx = s.tx ∧ t.txout = s.txout) ∧
    (s.phase = .sendWait → t.rx = s.rx ∧ t.record = s.record ∧ t.len = s.len) ∧
    (s.phase = .recvWait ∨ s.phase = .frameHunt → t.record = s.record ∧ t.len = s.len)

/-! ## Endless environments -/

/-- How the environment goes on past its lists (R131 (3), (4) leave it endless and unconstrained; the
three tails are the model's form of that, log 26): a schedule that is used up starts its loop again or
goes on with a free slot, and the step is that of the schedule so extended; the same for the words of
a poller that moves in `IDLE`; with no word to come the poller is held (log 4, log 12). -/
def Obligations.StepRefillsTheSchedule : Prop :=
  (∀ (s : State) (a : Slot) (l : List Slot), s.sched = [] → s.schedTail = .loop a l →
    step s = step { s with sched := a :: l }) ∧
  (∀ s : State, s.sched = [] → s.schedTail = .free →
    step s = step { s with sched := [Config.freeSlot s.fresh], fresh := s.fresh + 1 }) ∧
  (∀ (s : State) (slot : Slot) (rest : List Slot),
    s.sched = slot :: rest → slot.move = .poller → s.phase = .idle → s.poller = [] →
    (∀ w ws, s.pollerTail = .loop w ws → step s = step { s with poller := w :: ws }) ∧
    (s.pollerTail = .free →
      step s = step { s with poller := [Config.freeWord s.fresh], fresh := s.fresh + 1 }) ∧
    (s.pollerTail = .stop →
      step s = .next { s with sched := rest, cancel := slot.cancel, txReady := slot.txReady }))

/-- Section 3 of 70_reset_and_hazards.md, (a) (marked derived there): the endless producer. In
`FRAME_HUNT`, under the schedule that for ever strobes a byte other than the start sentinel and then
lets the engine and the tick move, as fairness asks, the `FRAME` never ends. That the schedule can be
endless is the form of log 26. -/
def Obligations.EndlessProducerKeepsFrameRunning : Prop :=
  ∀ (s : State) (b : Byte), s.inv → s.phase = .frameHunt → s.sched = [] →
    s.schedTail = .loop (rxSlot b) [engineSlot, tickSlot] →
    b ≠ s.par.sof → s.par.sof ∉ s.rx.pend s.par.rxCap → s.neverAnswers

/-- Section 3 of 70_reset_and_hazards.md, (b) (marked derived there): a `SEND` in `SEND_WAIT` never
ends under an endless schedule, whatever else stands in it, that never cancels or resets and never
pops a full TX (queued) or raises `tx_ready` (direct). That the schedule can be endless is the form of
log 26. -/
def Obligations.WaitingSendWaitsForTheEnvironment : Prop :=
  ∀ (s : State) (a : Slot) (l : List Slot), s.inv → s.phase = .sendWait →
    s.schedTail = .loop a l →
    (∀ slot ∈ s.sched ++ a :: l, slot.cancel = false ∧ ¬slot.strobes .reset) →
    (s.par.txQueued = true → s.tx.full s.par.txCap = true →
      (∀ slot ∈ s.sched ++ a :: l, ¬slot.strobes .txev) → s.neverAnswers) ∧
    (s.par.txQueued = false → (∀ slot ∈ s.sched ++ a :: l, slot.txReady = false) →
      s.neverAnswers)

/-- Section 4 of 70_reset_and_hazards.md, fairness: under an endless schedule in which the engine
recurs, whatever else stands in it but a reset, a waiting command answers: a `RECV` when the tick
recurs; a `LINE` when the tick recurs, if it has a byte or no `CR` can come before its first byte (an
endless supply of leading `CR`s keeps it running, log 27); a `FRAME` that collects; a queued `SEND`
when `TXEV` recurs; a direct `SEND` when the engine recurs with `tx_ready` 1. The bounds are counted
in laps of the schedule, whose form is the model's (log 26). -/
def Obligations.FairLoopAnswersWaitingCommands : Prop :=
  ∀ (s : State) (a : Slot) (l : List Slot), s.inv → s.schedTail = .loop a l →
    (∀ slot ∈ s.sched ++ a :: l, ¬slot.strobes .reset) →
    (∃ slot ∈ a :: l, slot.move = .engine) →
    (s.phase = .recvWait → (∃ slot ∈ a :: l, slot.strobes .tick) →
      s.answersWithin (s.sched.length + (s.cnt.toNat + 1) * (l.length + 1))) ∧
    (s.phase = .lineCollect → (∃ slot ∈ a :: l, slot.strobes .tick) →
      (s.len ≠ 0#8 ∨ (s.par.cr ∉ s.rx.pend s.par.rxCap ∧
        ∀ slot ∈ s.sched ++ a :: l, ¬slot.strobes (.rxev s.par.cr))) →
      s.answersWithin (s.sched.length +
        (s.cnt.toNat + (s.maxLen.toNat - s.len.toNat) + 1) * (l.length + 1))) ∧
    (s.phase = .frameCollect →
      s.answersWithin (s.sched.length +
        (s.maxLen.toNat - s.len.toNat + 1) * (l.length + 1))) ∧
    (s.phase = .sendWait → s.par.txQueued = true → (∃ slot ∈ a :: l, slot.strobes .txev) →
      s.answersWithin (s.sched.length + 2 * (l.length + 1))) ∧
    (s.phase = .sendWait → s.par.txQueued = false →
      (∃ slot ∈ a :: l, slot.move = .engine ∧ slot.txReady = true) →
      s.answersWithin (s.sched.length + (l.length + 1)))
end

