-- ==== Sys2Proof/Laws/Encoding.lean ====
section
/-! SUPPORT. The bits of a packed command word, and that taking a word apart and putting it together
are inverse. -/

namespace Sys2Proof

theorem getLsbD_packCmd (f : CmdFields) (i : Nat) :
    (packCmd f).getLsbD i =
      if i < 16 then f.imm16.getLsbD i else if i < 24 then f.imm8.getLsbD (i - 16)
      else if i < 25 then f.r.getLsbD (i - 24) else if i < 28 then f.z.getLsbD (i - 25)
      else f.op.getLsbD (i - 28) := by
  obtain ⟨op, z, r, imm8, imm16⟩ := f
  show BitVec.getLsbD (w := 4 + 3 + 1 + 8 + 16) (op ++ z ++ r ++ imm8 ++ imm16) i = _
  simp only [BitVec.getLsbD_append, Nat.sub_sub]
  split_ifs <;> first | rfl | omega

theorem getLsbD_op_rest (op : BitVec 4) (rest : BitVec 28) (i : Nat) :
    (op ++ rest : Word).getLsbD i = if i < 28 then rest.getLsbD i else op.getLsbD (i - 28) := by
  show BitVec.getLsbD (w := 4 + 28) (op ++ rest) i = _
  rw [BitVec.getLsbD_append]

theorem cmdFields_packCmd (f : CmdFields) : cmdFields (packCmd f) = f := by
  obtain ⟨op, z, r, imm8, imm16⟩ := f
  simp only [cmdFields, CmdFields.mk.injEq]
  refine ⟨?_, ?_, ?_, ?_, ?_⟩ <;>
    (refine BitVec.eq_of_getLsbD_eq fun i hi => ?_
     simp only [BitVec.getLsbD_extractLsb', getLsbD_packCmd, hi, decide_true, Bool.true_and]
     split_ifs <;> first | omega | (congr 1; omega))

theorem packCmd_cmdFields (w : Word) : packCmd (cmdFields w) = w := by
  refine BitVec.eq_of_getLsbD_eq fun i hi => ?_
  rw [getLsbD_packCmd]
  simp only [cmdFields, BitVec.getLsbD_extractLsb']
  interval_cases i <;> simp

/-- The opcode of a reserved word and its 28 ignored bits. -/
theorem cmdFields_op_reserved (op : BitVec 4) (rest : BitVec 28) :
    (cmdFields (op ++ rest : Word)).op = op ∧ (op ++ rest : Word).extractLsb' 0 28 = rest := by
  constructor <;>
    (refine BitVec.eq_of_getLsbD_eq fun i hi => ?_
     simp only [cmdFields, BitVec.getLsbD_extractLsb', getLsbD_op_rest, hi, decide_true, Bool.true_and]
     split_ifs <;> first | omega | (congr 1; omega))

/-- The strobe bit and the data bits of an RX event word. -/
theorem extract_strobe (c : BitVec 1) (b : BitVec 8) :
    (c ++ b : BitVec 9).extractLsb' 8 1 = c ∧ (c ++ b : BitVec 9).extractLsb' 0 8 = b := by
  have h (i : Nat) : (c ++ b : BitVec 9).getLsbD i =
      if i < 8 then b.getLsbD i else c.getLsbD (i - 8) := by
    show BitVec.getLsbD (w := 1 + 8) (c ++ b) i = _
    rw [BitVec.getLsbD_append]
  constructor <;>
    (refine BitVec.eq_of_getLsbD_eq fun i hi => ?_
     simp only [BitVec.getLsbD_extractLsb', h, hi, decide_true, Bool.true_and]
     split_ifs <;> first | omega | (congr 1; omega))

/-- Masking a packed word, field by field. -/
theorem packCmd_and (f g : CmdFields) :
    packCmd f &&& packCmd g =
      packCmd ⟨f.op &&& g.op, f.z &&& g.z, f.r &&& g.r, f.imm8 &&& g.imm8, f.imm16 &&& g.imm16⟩ := by
  refine BitVec.eq_of_getLsbD_eq fun i _ => ?_
  simp only [BitVec.getLsbD_and, getLsbD_packCmd]
  split_ifs <;> rfl

end Sys2Proof
end

