-- ==== Sys2Proof/Laws/Mem.lean ====
section
/-! SUPPORT. The laws of a storage array: a read after a write, and that a write keeps the canonical
form and the range of the indices. -/

namespace Sys2Proof.Machine

theorem Mem.get_put_same (m : Mem) (i : Nat) (v : Byte) : Mem.get (Mem.put m i v) i = some v := by
  induction m with
  | nil => simp [Mem.put, Mem.get]
  | cons c m ih =>
    simp only [Mem.put]
    split
    · simp [Mem.get]
    · split
      · simp [Mem.get]
      · rename_i h
        simp [Mem.get, ih, Ne.symm h]

theorem Mem.get_put_ne (m : Mem) {i j : Nat} (v : Byte) (h : j ≠ i) :
    Mem.get (Mem.put m i v) j = Mem.get m j := by
  induction m with
  | nil => simp [Mem.put, Mem.get, Ne.symm h]
  | cons c m ih =>
    simp only [Mem.put]
    split
    · simp [Mem.get, Ne.symm h]
    · split
      · rename_i hc
        subst hc
        simp [Mem.get, Ne.symm h]
      · simp [Mem.get, ih]

/-- A write leaves no cell without a value that had one. -/
theorem Mem.isSome_get_put (m : Mem) (i j : Nat) (v : Byte)
    (h : j = i ∨ (Mem.get m j).isSome = true) : (Mem.get (Mem.put m i v) j).isSome = true := by
  by_cases hj : j = i
  · subst hj
    simp [Mem.get_put_same]
  · rw [Mem.get_put_ne m v hj]
    exact h.resolve_left hj

theorem Mem.mem_put {m : Mem} {i : Nat} {v : Byte} {c : Host.Cell} (h : c ∈ Mem.put m i v) :
    c = (i, v) ∨ c ∈ m := by
  induction m with
  | nil => exact .inl (by simpa [Mem.put] using h)
  | cons d m ih =>
    simp only [Mem.put] at h
    split at h
    · simpa using h
    · split at h
      · rcases List.mem_cons.mp h with h | h
        · exact .inl h
        · exact .inr (List.mem_cons_of_mem _ h)
      · rcases List.mem_cons.mp h with h | h
        · exact .inr (h ▸ List.mem_cons_self)
        · exact (ih h).imp id (List.mem_cons_of_mem _)

theorem Mem.wf_tail {c : Host.Cell} {m : Mem} (h : Mem.wf (c :: m) = true) : Mem.wf m = true := by
  cases m with
  | nil => rfl
  | cons d m =>
    simp only [Mem.wf, Bool.and_eq_true] at h
    exact h.2

/-- In canonical form the first index is below every other. -/
theorem Mem.wf_head_lt {c d : Host.Cell} {m : Mem} (h : Mem.wf (c :: m) = true) (hd : d ∈ m) :
    c.1 < d.1 := by
  induction m generalizing c with
  | nil => cases hd
  | cons e m ih =>
    have he : c.1 < e.1 := by
      simp only [Mem.wf, Bool.and_eq_true, decide_eq_true_eq] at h
      exact h.1
    rcases List.mem_cons.mp hd with rfl | hd
    · exact he
    · exact he.trans (ih (Mem.wf_tail h) hd)

theorem Mem.wf_cons {c : Host.Cell} {m : Mem} (hm : Mem.wf m = true) (h : ∀ d ∈ m, c.1 < d.1) :
    Mem.wf (c :: m) = true := by
  cases m with
  | nil => rfl
  | cons d m =>
    simp only [Mem.wf, Bool.and_eq_true, decide_eq_true_eq]
    exact ⟨h d List.mem_cons_self, hm⟩

/-- A write keeps the canonical form. -/
theorem Mem.wf_put {m : Mem} (i : Nat) (v : Byte) (h : Mem.wf m = true) :
    Mem.wf (Mem.put m i v) = true := by
  induction m with
  | nil => rfl
  | cons c m ih =>
    simp only [Mem.put]
    split
    · rename_i hi
      exact Mem.wf_cons h fun d hd => by
        rcases List.mem_cons.mp hd with rfl | hd
        · exact hi
        · exact hi.trans (Mem.wf_head_lt h hd)
    · split
      · rename_i hi
        exact Mem.wf_cons (Mem.wf_tail h) fun d hd => by
          have := Mem.wf_head_lt h hd
          show i < d.1
          omega
      · rename_i h1 h2
        refine Mem.wf_cons (ih (Mem.wf_tail h)) fun d hd => ?_
        rcases Mem.mem_put hd with rfl | hd
        · have : i ≠ c.1 := h2
          show c.1 < i
          omega
        · exact Mem.wf_head_lt h hd

/-- A write inside the array keeps the array's form. -/
theorem Mem.fits_put {size i : Nat} {m : Mem} (v : Byte) (h : Mem.fits size m) (hi : i < size) :
    Mem.fits size (Mem.put m i v) :=
  ⟨Mem.wf_put i v h.1, fun c hc => by
    rcases Mem.mem_put hc with rfl | hc
    · exact hi
    · exact h.2 c hc⟩

/-- Everything a read can answer. -/
theorem Mem.read_ok {sp : Space} {size i : Nat} {m : Mem} {v : Byte} :
    Mem.read sp size m i = .ok v ↔ i < size ∧ Mem.get m i = some v := by
  simp only [Mem.read]
  split
  · cases Mem.get m i <;> simp [*]
  · simp [*]

/-- Everything a write can answer. -/
theorem Mem.write_ok {sp : Space} {size i : Nat} {m m' : Mem} {v : Byte} :
    Mem.write sp size m i v = .ok m' ↔ i < size ∧ m' = Mem.put m i v := by
  simp only [Mem.write]
  split <;> simp [*, eq_comm]

/-- Every write the array answers keeps the canonical form. -/
theorem Mem.wf_write {sp : Space} {size i : Nat} {m m' : Mem} {v : Byte}
    (h : Mem.write sp size m i v = .ok m') (hm : Mem.wf m = true) : Mem.wf m' = true := by
  obtain ⟨-, rfl⟩ := Mem.write_ok.mp h
  exact Mem.wf_put i v hm

/-- The memories after reset are in canonical form. -/
theorem Mem.wf_resetWith (p : Params) :
    Mem.wf (State.resetWith p).rx.buf = true ∧ Mem.wf (State.resetWith p).tx.buf = true ∧
      Mem.wf (State.resetWith p).record = true :=
  ⟨rfl, rfl, rfl⟩

end Sys2Proof.Machine
end

