-- ==== Sys2Proof/Laws/Ring.lean ====
section
/-! SUPPORT. What the ring primitives can answer, and the index arithmetic behind them. -/

namespace Sys2Proof.Machine

theorem RingBuf.empty_iff (q : RingBuf) : q.empty = true ↔ q.rp = q.wp := by
  simp [RingBuf.empty]

theorem RingBuf.full_iff (cap : Nat) (q : RingBuf) :
    q.full cap = true ↔ (q.wp + 1) % cap = q.rp := by
  simp [RingBuf.full, nextIndex]

/-- Everything `push` can answer: the byte dropped and the flag set, or the byte stored. -/
theorem RingBuf.push_ok {sp : Space} {cap : Nat} {q q' : RingBuf} {b : Byte} :
    q.push sp cap b = .ok q' ↔
      (q.full cap = true ∧ q' = { q with ovf := true }) ∨
      (q.full cap = false ∧ q.wp < cap ∧
        q' = { q with buf := Mem.put q.buf q.wp b, wp := nextIndex cap q.wp }) := by
  simp only [RingBuf.push]
  cases hf : q.full cap
  · simp only [Bool.false_eq_true, if_false]
    by_cases hw : q.wp < cap <;> simp [Mem.write, hw, eq_comm]
  · simp [eq_comm]

/-- Everything `pop` can answer: nothing from an empty ring, or the byte at `rp`. -/
theorem RingBuf.pop_ok {sp : Space} {cap : Nat} {q q' : RingBuf} {o : Option Byte} :
    q.pop sp cap = .ok (o, q') ↔
      (q.empty = true ∧ o = none ∧ q' = q) ∨
      (q.empty = false ∧ q.rp < cap ∧ ∃ v, Mem.get q.buf q.rp = some v ∧ o = some v ∧
        q' = { q with rp := nextIndex cap q.rp }) := by
  simp only [RingBuf.pop]
  cases he : q.empty
  · simp only [Bool.false_eq_true, if_false]
    cases hr : Mem.read sp cap q.buf q.rp with
    | error f =>
      simp only [reduceCtorEq, false_and, false_or, true_and, false_iff, not_and, not_exists]
      intro h v hv
      rw [Mem.read_ok.mpr ⟨h, hv⟩] at hr
      cases hr
    | ok v =>
      obtain ⟨h1, h2⟩ := Mem.read_ok.mp hr
      simp [h1, h2, eq_comm]
  · simp [eq_comm]

/-- A push on a full ring. -/
theorem RingBuf.push_full {sp : Space} {cap : Nat} {q : RingBuf} (b : Byte) (h : q.full cap = true) :
    q.push sp cap b = .ok { q with ovf := true } :=
  RingBuf.push_ok.mpr (.inl ⟨h, rfl⟩)

/-- A push on a ring with room. -/
theorem RingBuf.push_room {sp : Space} {cap : Nat} {q : RingBuf} (b : Byte)
    (h : q.full cap = false) (hw : q.wp < cap) :
    q.push sp cap b =
      .ok { q with buf := Mem.put q.buf q.wp b, wp := nextIndex cap q.wp } :=
  RingBuf.push_ok.mpr (.inr ⟨h, hw, rfl⟩)

/-- A pop of an empty ring. -/
theorem RingBuf.pop_empty {sp : Space} {cap : Nat} {q : RingBuf} (h : q.empty = true) :
    q.pop sp cap = .ok (none, q) :=
  RingBuf.pop_ok.mpr (.inl ⟨h, rfl, rfl⟩)

/-- A pop of a ring whose head slot holds a byte. -/
theorem RingBuf.pop_head {sp : Space} {cap : Nat} {q : RingBuf} {v : Byte} (h : q.empty = false)
    (hr : q.rp < cap) (hv : Mem.get q.buf q.rp = some v) :
    q.pop sp cap = .ok (some v, { q with rp := nextIndex cap q.rp }) :=
  RingBuf.pop_ok.mpr (.inr ⟨h, hr, v, hv, rfl, rfl⟩)

/-- The value of `(x + y) mod cap` for indices in range, without the `mod`. -/
theorem add_mod_range {cap x y : Nat} (hx : x < cap) (hy : y < cap) :
    (x + y) % cap = if x + y < cap then x + y else x + y - cap := by
  split
  · exact Nat.mod_eq_of_lt ‹_›
  · rw [Nat.mod_eq_sub_mod (by omega)]
    exact Nat.mod_eq_of_lt (by omega)

theorem nextIndex_lt {cap : Nat} (x : Nat) (h : 0 < cap) : nextIndex cap x < cap :=
  Nat.mod_lt _ h

theorem nextIndex_of_lt {cap x : Nat} (hc : 2 ≤ cap) (hx : x < cap) :
    nextIndex cap x = if x + 1 < cap then x + 1 else 0 := by
  rw [nextIndex, add_mod_range hx (by omega)]
  split <;> omega

/-- `avail` for indices in range, without the `mod` (R63). -/
theorem RingBuf.avail_of_lt {cap : Nat} {q : RingBuf} (hw : q.wp < cap) (hr : q.rp < cap) :
    q.avail cap = if q.rp ≤ q.wp then q.wp - q.rp else q.wp + cap - q.rp := by
  rw [RingBuf.avail]
  split
  · rw [show q.wp + cap - q.rp = (q.wp - q.rp) + cap by omega, Nat.add_mod_right]
    exact Nat.mod_eq_of_lt (by omega)
  · exact Nat.mod_eq_of_lt (by omega)

theorem RingBuf.avail_lt {cap : Nat} (q : RingBuf) (h : 0 < cap) : q.avail cap < cap :=
  Nat.mod_lt _ h

/-- `empty(q)` iff `avail(q) == 0` (R14). -/
theorem RingBuf.avail_eq_zero {cap : Nat} {q : RingBuf} (hw : q.wp < cap) (hr : q.rp < cap) :
    q.avail cap = 0 ↔ q.empty = true := by
  rw [RingBuf.avail_of_lt hw hr, RingBuf.empty_iff]
  split <;> omega

/-- `full(q)` iff `avail(q) == CAP(q) - 1` (R14). -/
theorem RingBuf.avail_eq_pred {cap : Nat} {q : RingBuf} (hc : 2 ≤ cap) (hw : q.wp < cap)
    (hr : q.rp < cap) : q.avail cap = cap - 1 ↔ q.full cap = true := by
  rw [RingBuf.avail_of_lt hw hr, RingBuf.full_iff, ← nextIndex, nextIndex_of_lt hc hw]
  split <;> split <;> omega

/-- A pop of a ring in order never faults. -/
theorem RingBuf.pop_total {sp : Space} {cap : Nat} {q : RingBuf} (h : q.ok cap) :
    ∃ r, q.pop sp cap = .ok r := by
  cases he : q.empty
  · have ha : 0 < q.avail cap :=
      Nat.pos_of_ne_zero fun h0 => by
        rw [RingBuf.avail_eq_zero h.1 h.2.1, he] at h0
        cases h0
    have hs := h.2.2.2 0 ha
    rw [Nat.add_zero, Nat.mod_eq_of_lt h.2.1] at hs
    obtain ⟨v, hv⟩ := Option.isSome_iff_exists.mp hs
    exact ⟨_, RingBuf.pop_head he h.2.1 hv⟩
  · exact ⟨_, RingBuf.pop_empty he⟩

/-- A push on a ring in order never faults. -/
theorem RingBuf.push_total {sp : Space} {cap : Nat} {q : RingBuf} (b : Byte) (h : q.ok cap) :
    ∃ r, q.push sp cap b = .ok r := by
  cases hf : q.full cap
  · exact ⟨_, RingBuf.push_room b hf h.1⟩
  · exact ⟨_, RingBuf.push_full b hf⟩

/-- `flush` keeps a ring in order. -/
theorem RingBuf.ok_flush {cap : Nat} {q : RingBuf} (h : q.ok cap) : q.flush.ok cap := by
  refine ⟨h.1, h.1, h.2.2.1, fun k hk => ?_⟩
  have : q.flush.avail cap = 0 := (RingBuf.avail_eq_zero (q := q.flush) h.1 h.1).mpr (by
    simp [RingBuf.empty, RingBuf.flush])
  omega

/-- The ring after reset is in order. -/
theorem RingBuf.ok_atReset {cap : Nat} (h : 0 < cap) : RingBuf.atReset.ok cap := by
  refine ⟨h, h, ⟨rfl, by simp [RingBuf.atReset]⟩, fun k hk => ?_⟩
  have : RingBuf.atReset.avail cap = 0 := by simp [RingBuf.avail, RingBuf.atReset]
  omega

/-- `push` keeps a ring in order. -/
theorem RingBuf.ok_push {sp : Space} {cap : Nat} {q q' : RingBuf} {b : Byte} (hc : 2 ≤ cap)
    (h : q.ok cap) (hp : q.push sp cap b = .ok q') : q'.ok cap := by
  obtain ⟨hw, hr, hm, hs⟩ := h
  rcases RingBuf.push_ok.mp hp with ⟨-, rfl⟩ | ⟨hf, -, rfl⟩
  · exact ⟨hw, hr, hm, hs⟩
  · have hw' : nextIndex cap q.wp < cap := nextIndex_lt _ (by omega)
    refine ⟨hw', hr, Mem.fits_put b hm hw, fun k hk => Mem.isSome_get_put _ _ _ _ ?_⟩
    by_cases hk' : k < q.avail cap
    · exact .inr (hs k hk')
    · refine .inl ?_
      have hne : ¬(q.wp + 1) % cap = q.rp := fun e => by
        rw [(RingBuf.full_iff cap q).mpr e] at hf
        cases hf
      rw [← nextIndex, nextIndex_of_lt hc hw] at hne
      rw [RingBuf.avail_of_lt (q := { q with buf := Mem.put q.buf q.wp b, wp := nextIndex cap q.wp }) hw' hr] at hk
      simp only [nextIndex_of_lt hc hw] at hk
      rw [RingBuf.avail_of_lt hw hr] at hk'
      show (q.rp + k) % cap = q.wp
      have hkc : k < cap := by split_ifs at hk hk' <;> omega
      rw [add_mod_range hr hkc]
      split_ifs at hne hk hk' ⊢ <;> omega

/-- `pop` keeps a ring in order. -/
theorem RingBuf.ok_pop {sp : Space} {cap : Nat} {q q' : RingBuf} {o : Option Byte} (hc : 2 ≤ cap)
    (h : q.ok cap) (hp : q.pop sp cap = .ok (o, q')) : q'.ok cap := by
  obtain ⟨hw, hr, hm, hs⟩ := h
  rcases RingBuf.pop_ok.mp hp with ⟨-, -, rfl⟩ | ⟨he, -, v, hv, -, rfl⟩
  · exact ⟨hw, hr, hm, hs⟩
  · have hr' : nextIndex cap q.rp < cap := nextIndex_lt _ (by omega)
    refine ⟨hw, hr', hm, fun k hk => ?_⟩
    have hne : q.rp ≠ q.wp := fun e => by
      rw [(RingBuf.empty_iff q).mpr e] at he
      cases he
    rw [RingBuf.avail_of_lt (q := { q with rp := nextIndex cap q.rp }) hw hr'] at hk
    simp only [nextIndex_of_lt hc hr] at hk
    have hk1 : k + 1 < q.avail cap := by
      rw [RingBuf.avail_of_lt hw hr]
      split_ifs at hk ⊢ <;> omega
    have := hs (k + 1) hk1
    rwa [show (nextIndex cap q.rp + k) % cap = (q.rp + (k + 1)) % cap by
      rw [nextIndex, Nat.mod_add_mod]
      congr 1
      omega]

end Sys2Proof.Machine
end

