-- ==== Sys2Proof/Laws/State.lean ====
section
/-! SUPPORT. One lemma per field per named update of State, so that no proof unfolds a record update. -/

namespace Sys2Proof.Machine

@[simp] theorem emit_par (s : State) (b : Byte) :
    (emit s b).par = s.par := rfl
@[simp] theorem emit_rx (s : State) (b : Byte) :
    (emit s b).rx = s.rx := rfl
@[simp] theorem emit_tx (s : State) (b : Byte) :
    (emit s b).tx = s.tx := rfl
@[simp] theorem emit_phase (s : State) (b : Byte) :
    (emit s b).phase = s.phase := rfl
@[simp] theorem emit_maxLen (s : State) (b : Byte) :
    (emit s b).maxLen = s.maxLen := rfl
@[simp] theorem emit_sByte (s : State) (b : Byte) :
    (emit s b).sByte = s.sByte := rfl
@[simp] theorem emit_len (s : State) (b : Byte) :
    (emit s b).len = s.len := rfl
@[simp] theorem emit_cnt (s : State) (b : Byte) :
    (emit s b).cnt = s.cnt := rfl
@[simp] theorem emit_record (s : State) (b : Byte) :
    (emit s b).record = s.record := rfl
@[simp] theorem emit_cancel (s : State) (b : Byte) :
    (emit s b).cancel = s.cancel := rfl
@[simp] theorem emit_txReady (s : State) (b : Byte) :
    (emit s b).txReady = s.txReady := rfl
@[simp] theorem emit_txout (s : State) (b : Byte) :
    (emit s b).txout = s.txout ++ [b] := rfl
@[simp] theorem emit_rspout (s : State) (b : Byte) :
    (emit s b).rspout = s.rspout := rfl
@[simp] theorem emit_poller (s : State) (b : Byte) :
    (emit s b).poller = s.poller := rfl
@[simp] theorem emit_sched (s : State) (b : Byte) :
    (emit s b).sched = s.sched := rfl
@[simp] theorem emit_pollerTail (s : State) (b : Byte) :
    (emit s b).pollerTail = s.pollerTail := rfl
@[simp] theorem emit_schedTail (s : State) (b : Byte) :
    (emit s b).schedTail = s.schedTail := rfl
@[simp] theorem emit_fresh (s : State) (b : Byte) :
    (emit s b).fresh = s.fresh := rfl

@[simp] theorem respond_par (s : State) (st : Status) (len : BitVec 8) (val : BitVec 16) (cn : Bool) :
    (respond s st len val cn).par = s.par := rfl
@[simp] theorem respond_rx (s : State) (st : Status) (len : BitVec 8) (val : BitVec 16) (cn : Bool) :
    (respond s st len val cn).rx = s.rx := rfl
@[simp] theorem respond_tx (s : State) (st : Status) (len : BitVec 8) (val : BitVec 16) (cn : Bool) :
    (respond s st len val cn).tx = s.tx := rfl
@[simp] theorem respond_phase (s : State) (st : Status) (len : BitVec 8) (val : BitVec 16) (cn : Bool) :
    (respond s st len val cn).phase = s.phase := rfl
@[simp] theorem respond_maxLen (s : State) (st : Status) (len : BitVec 8) (val : BitVec 16) (cn : Bool) :
    (respond s st len val cn).maxLen = s.maxLen := rfl
@[simp] theorem respond_sByte (s : State) (st : Status) (len : BitVec 8) (val : BitVec 16) (cn : Bool) :
    (respond s st len val cn).sByte = s.sByte := rfl
@[simp] theorem respond_len (s : State) (st : Status) (len : BitVec 8) (val : BitVec 16) (cn : Bool) :
    (respond s st len val cn).len = s.len := rfl
@[simp] theorem respond_cnt (s : State) (st : Status) (len : BitVec 8) (val : BitVec 16) (cn : Bool) :
    (respond s st len val cn).cnt = s.cnt := rfl
@[simp] theorem respond_record (s : State) (st : Status) (len : BitVec 8) (val : BitVec 16) (cn : Bool) :
    (respond s st len val cn).record = s.record := rfl
@[simp] theorem respond_cancel (s : State) (st : Status) (len : BitVec 8) (val : BitVec 16) (cn : Bool) :
    (respond s st len val cn).cancel = s.cancel := rfl
@[simp] theorem respond_txReady (s : State) (st : Status) (len : BitVec 8) (val : BitVec 16) (cn : Bool) :
    (respond s st len val cn).txReady = s.txReady := rfl
@[simp] theorem respond_txout (s : State) (st : Status) (len : BitVec 8) (val : BitVec 16) (cn : Bool) :
    (respond s st len val cn).txout = s.txout := rfl
@[simp] theorem respond_rspout (s : State) (st : Status) (len : BitVec 8) (val : BitVec 16) (cn : Bool) :
    (respond s st len val cn).rspout = s.rspout ++ [rspWord st s.rx.ovf s.tx.ovf cn len val] := rfl
@[simp] theorem respond_poller (s : State) (st : Status) (len : BitVec 8) (val : BitVec 16) (cn : Bool) :
    (respond s st len val cn).poller = s.poller := rfl
@[simp] theorem respond_sched (s : State) (st : Status) (len : BitVec 8) (val : BitVec 16) (cn : Bool) :
    (respond s st len val cn).sched = s.sched := rfl
@[simp] theorem respond_pollerTail (s : State) (st : Status) (len : BitVec 8) (val : BitVec 16) (cn : Bool) :
    (respond s st len val cn).pollerTail = s.pollerTail := rfl
@[simp] theorem respond_schedTail (s : State) (st : Status) (len : BitVec 8) (val : BitVec 16) (cn : Bool) :
    (respond s st len val cn).schedTail = s.schedTail := rfl
@[simp] theorem respond_fresh (s : State) (st : Status) (len : BitVec 8) (val : BitVec 16) (cn : Bool) :
    (respond s st len val cn).fresh = s.fresh := rfl

@[simp] theorem complete_par (s : State) (st : Status) (len : BitVec 8) (val : BitVec 16) (cn : Bool) :
    (complete s st len val cn).par = s.par := rfl
@[simp] theorem complete_rx (s : State) (st : Status) (len : BitVec 8) (val : BitVec 16) (cn : Bool) :
    (complete s st len val cn).rx = s.rx := rfl
@[simp] theorem complete_tx (s : State) (st : Status) (len : BitVec 8) (val : BitVec 16) (cn : Bool) :
    (complete s st len val cn).tx = s.tx := rfl
@[simp] theorem complete_phase (s : State) (st : Status) (len : BitVec 8) (val : BitVec 16) (cn : Bool) :
    (complete s st len val cn).phase = .idle := rfl
@[simp] theorem complete_maxLen (s : State) (st : Status) (len : BitVec 8) (val : BitVec 16) (cn : Bool) :
    (complete s st len val cn).maxLen = s.maxLen := rfl
@[simp] theorem complete_sByte (s : State) (st : Status) (len : BitVec 8) (val : BitVec 16) (cn : Bool) :
    (complete s st len val cn).sByte = s.sByte := rfl
@[simp] theorem complete_len (s : State) (st : Status) (len : BitVec 8) (val : BitVec 16) (cn : Bool) :
    (complete s st len val cn).len = s.len := rfl
@[simp] theorem complete_cnt (s : State) (st : Status) (len : BitVec 8) (val : BitVec 16) (cn : Bool) :
    (complete s st len val cn).cnt = s.cnt := rfl
@[simp] theorem complete_record (s : State) (st : Status) (len : BitVec 8) (val : BitVec 16) (cn : Bool) :
    (complete s st len val cn).record = s.record := rfl
@[simp] theorem complete_cancel (s : State) (st : Status) (len : BitVec 8) (val : BitVec 16) (cn : Bool) :
    (complete s st len val cn).cancel = s.cancel := rfl
@[simp] theorem complete_txReady (s : State) (st : Status) (len : BitVec 8) (val : BitVec 16) (cn : Bool) :
    (complete s st len val cn).txReady = s.txReady := rfl
@[simp] theorem complete_txout (s : State) (st : Status) (len : BitVec 8) (val : BitVec 16) (cn : Bool) :
    (complete s st len val cn).txout = s.txout := rfl
@[simp] theorem complete_rspout (s : State) (st : Status) (len : BitVec 8) (val : BitVec 16) (cn : Bool) :
    (complete s st len val cn).rspout = s.rspout ++ [rspWord st s.rx.ovf s.tx.ovf cn len val] := rfl
@[simp] theorem complete_poller (s : State) (st : Status) (len : BitVec 8) (val : BitVec 16) (cn : Bool) :
    (complete s st len val cn).poller = s.poller := rfl
@[simp] theorem complete_sched (s : State) (st : Status) (len : BitVec 8) (val : BitVec 16) (cn : Bool) :
    (complete s st len val cn).sched = s.sched := rfl
@[simp] theorem complete_pollerTail (s : State) (st : Status) (len : BitVec 8) (val : BitVec 16) (cn : Bool) :
    (complete s st len val cn).pollerTail = s.pollerTail := rfl
@[simp] theorem complete_schedTail (s : State) (st : Status) (len : BitVec 8) (val : BitVec 16) (cn : Bool) :
    (complete s st len val cn).schedTail = s.schedTail := rfl
@[simp] theorem complete_fresh (s : State) (st : Status) (len : BitVec 8) (val : BitVec 16) (cn : Bool) :
    (complete s st len val cn).fresh = s.fresh := rfl

@[simp] theorem flushRx_par (s : State) :
    (flushRx s).par = s.par := rfl
@[simp] theorem flushRx_rx (s : State) :
    (flushRx s).rx = s.rx.flush := rfl
@[simp] theorem flushRx_tx (s : State) :
    (flushRx s).tx = s.tx := rfl
@[simp] theorem flushRx_phase (s : State) :
    (flushRx s).phase = s.phase := rfl
@[simp] theorem flushRx_maxLen (s : State) :
    (flushRx s).maxLen = s.maxLen := rfl
@[simp] theorem flushRx_sByte (s : State) :
    (flushRx s).sByte = s.sByte := rfl
@[simp] theorem flushRx_len (s : State) :
    (flushRx s).len = s.len := rfl
@[simp] theorem flushRx_cnt (s : State) :
    (flushRx s).cnt = s.cnt := rfl
@[simp] theorem flushRx_record (s : State) :
    (flushRx s).record = s.record := rfl
@[simp] theorem flushRx_cancel (s : State) :
    (flushRx s).cancel = s.cancel := rfl
@[simp] theorem flushRx_txReady (s : State) :
    (flushRx s).txReady = s.txReady := rfl
@[simp] theorem flushRx_txout (s : State) :
    (flushRx s).txout = s.txout := rfl
@[simp] theorem flushRx_rspout (s : State) :
    (flushRx s).rspout = s.rspout := rfl
@[simp] theorem flushRx_poller (s : State) :
    (flushRx s).poller = s.poller := rfl
@[simp] theorem flushRx_sched (s : State) :
    (flushRx s).sched = s.sched := rfl
@[simp] theorem flushRx_pollerTail (s : State) :
    (flushRx s).pollerTail = s.pollerTail := rfl
@[simp] theorem flushRx_schedTail (s : State) :
    (flushRx s).schedTail = s.schedTail := rfl
@[simp] theorem flushRx_fresh (s : State) :
    (flushRx s).fresh = s.fresh := rfl

@[simp] theorem clearOvf_rx_par (s : State) :
    (clearOvf s .rx).par = s.par := rfl
@[simp] theorem clearOvf_rx_rx (s : State) :
    (clearOvf s .rx).rx = { s.rx with ovf := false } := rfl
@[simp] theorem clearOvf_rx_tx (s : State) :
    (clearOvf s .rx).tx = s.tx := rfl
@[simp] theorem clearOvf_rx_phase (s : State) :
    (clearOvf s .rx).phase = s.phase := rfl
@[simp] theorem clearOvf_rx_maxLen (s : State) :
    (clearOvf s .rx).maxLen = s.maxLen := rfl
@[simp] theorem clearOvf_rx_sByte (s : State) :
    (clearOvf s .rx).sByte = s.sByte := rfl
@[simp] theorem clearOvf_rx_len (s : State) :
    (clearOvf s .rx).len = s.len := rfl
@[simp] theorem clearOvf_rx_cnt (s : State) :
    (clearOvf s .rx).cnt = s.cnt := rfl
@[simp] theorem clearOvf_rx_record (s : State) :
    (clearOvf s .rx).record = s.record := rfl
@[simp] theorem clearOvf_rx_cancel (s : State) :
    (clearOvf s .rx).cancel = s.cancel := rfl
@[simp] theorem clearOvf_rx_txReady (s : State) :
    (clearOvf s .rx).txReady = s.txReady := rfl
@[simp] theorem clearOvf_rx_txout (s : State) :
    (clearOvf s .rx).txout = s.txout := rfl
@[simp] theorem clearOvf_rx_rspout (s : State) :
    (clearOvf s .rx).rspout = s.rspout := rfl
@[simp] theorem clearOvf_rx_poller (s : State) :
    (clearOvf s .rx).poller = s.poller := rfl
@[simp] theorem clearOvf_rx_sched (s : State) :
    (clearOvf s .rx).sched = s.sched := rfl
@[simp] theorem clearOvf_rx_pollerTail (s : State) :
    (clearOvf s .rx).pollerTail = s.pollerTail := rfl
@[simp] theorem clearOvf_rx_schedTail (s : State) :
    (clearOvf s .rx).schedTail = s.schedTail := rfl
@[simp] theorem clearOvf_rx_fresh (s : State) :
    (clearOvf s .rx).fresh = s.fresh := rfl

@[simp] theorem clearOvf_tx_par (s : State) :
    (clearOvf s .tx).par = s.par := rfl
@[simp] theorem clearOvf_tx_rx (s : State) :
    (clearOvf s .tx).rx = s.rx := rfl
@[simp] theorem clearOvf_tx_tx (s : State) :
    (clearOvf s .tx).tx = { s.tx with ovf := false } := rfl
@[simp] theorem clearOvf_tx_phase (s : State) :
    (clearOvf s .tx).phase = s.phase := rfl
@[simp] theorem clearOvf_tx_maxLen (s : State) :
    (clearOvf s .tx).maxLen = s.maxLen := rfl
@[simp] theorem clearOvf_tx_sByte (s : State) :
    (clearOvf s .tx).sByte = s.sByte := rfl
@[simp] theorem clearOvf_tx_len (s : State) :
    (clearOvf s .tx).len = s.len := rfl
@[simp] theorem clearOvf_tx_cnt (s : State) :
    (clearOvf s .tx).cnt = s.cnt := rfl
@[simp] theorem clearOvf_tx_record (s : State) :
    (clearOvf s .tx).record = s.record := rfl
@[simp] theorem clearOvf_tx_cancel (s : State) :
    (clearOvf s .tx).cancel = s.cancel := rfl
@[simp] theorem clearOvf_tx_txReady (s : State) :
    (clearOvf s .tx).txReady = s.txReady := rfl
@[simp] theorem clearOvf_tx_txout (s : State) :
    (clearOvf s .tx).txout = s.txout := rfl
@[simp] theorem clearOvf_tx_rspout (s : State) :
    (clearOvf s .tx).rspout = s.rspout := rfl
@[simp] theorem clearOvf_tx_poller (s : State) :
    (clearOvf s .tx).poller = s.poller := rfl
@[simp] theorem clearOvf_tx_sched (s : State) :
    (clearOvf s .tx).sched = s.sched := rfl
@[simp] theorem clearOvf_tx_pollerTail (s : State) :
    (clearOvf s .tx).pollerTail = s.pollerTail := rfl
@[simp] theorem clearOvf_tx_schedTail (s : State) :
    (clearOvf s .tx).schedTail = s.schedTail := rfl
@[simp] theorem clearOvf_tx_fresh (s : State) :
    (clearOvf s .tx).fresh = s.fresh := rfl

@[simp] theorem resetBlock_par (s : State) :
    (resetBlock s).par = s.par := rfl
@[simp] theorem resetBlock_rx (s : State) :
    (resetBlock s).rx = RingBuf.atReset := rfl
@[simp] theorem resetBlock_tx (s : State) :
    (resetBlock s).tx = RingBuf.atReset := rfl
@[simp] theorem resetBlock_phase (s : State) :
    (resetBlock s).phase = .idle := rfl
@[simp] theorem resetBlock_maxLen (s : State) :
    (resetBlock s).maxLen = Config.freeByte s.fresh := rfl
@[simp] theorem resetBlock_sByte (s : State) :
    (resetBlock s).sByte = Config.freeByte (s.fresh + 1) := rfl
@[simp] theorem resetBlock_len (s : State) :
    (resetBlock s).len = 0#8 := rfl
@[simp] theorem resetBlock_cnt (s : State) :
    (resetBlock s).cnt = 0#16 := rfl
@[simp] theorem resetBlock_record (s : State) :
    (resetBlock s).record = [] := rfl
@[simp] theorem resetBlock_cancel (s : State) :
    (resetBlock s).cancel = s.cancel := rfl
@[simp] theorem resetBlock_txReady (s : State) :
    (resetBlock s).txReady = s.txReady := rfl
@[simp] theorem resetBlock_txout (s : State) :
    (resetBlock s).txout = s.txout := rfl
@[simp] theorem resetBlock_rspout (s : State) :
    (resetBlock s).rspout = s.rspout := rfl
@[simp] theorem resetBlock_poller (s : State) :
    (resetBlock s).poller = s.poller := rfl
@[simp] theorem resetBlock_sched (s : State) :
    (resetBlock s).sched = s.sched := rfl
@[simp] theorem resetBlock_pollerTail (s : State) :
    (resetBlock s).pollerTail = s.pollerTail := rfl
@[simp] theorem resetBlock_schedTail (s : State) :
    (resetBlock s).schedTail = s.schedTail := rfl
@[simp] theorem resetBlock_fresh (s : State) :
    (resetBlock s).fresh = s.fresh + 2 := rfl

@[simp] theorem withEvent_par (s : State) (e : EventWord) :
    (withEvent s e).par = s.par := rfl
@[simp] theorem withEvent_rx (s : State) (e : EventWord) :
    (withEvent s e).rx = s.rx := rfl
@[simp] theorem withEvent_tx (s : State) (e : EventWord) :
    (withEvent s e).tx = s.tx := rfl
@[simp] theorem withEvent_phase (s : State) (e : EventWord) :
    (withEvent s e).phase = s.phase := rfl
@[simp] theorem withEvent_maxLen (s : State) (e : EventWord) :
    (withEvent s e).maxLen = s.maxLen := rfl
@[simp] theorem withEvent_sByte (s : State) (e : EventWord) :
    (withEvent s e).sByte = s.sByte := rfl
@[simp] theorem withEvent_len (s : State) (e : EventWord) :
    (withEvent s e).len = s.len := rfl
@[simp] theorem withEvent_cnt (s : State) (e : EventWord) :
    (withEvent s e).cnt = s.cnt := rfl
@[simp] theorem withEvent_record (s : State) (e : EventWord) :
    (withEvent s e).record = s.record := rfl
@[simp] theorem withEvent_cancel (s : State) (e : EventWord) :
    (withEvent s e).cancel = s.cancel := rfl
@[simp] theorem withEvent_txReady (s : State) (e : EventWord) :
    (withEvent s e).txReady = s.txReady := rfl
@[simp] theorem withEvent_txout (s : State) (e : EventWord) :
    (withEvent s e).txout = s.txout := rfl
@[simp] theorem withEvent_rspout (s : State) (e : EventWord) :
    (withEvent s e).rspout = s.rspout := rfl
@[simp] theorem withEvent_poller (s : State) (e : EventWord) :
    (withEvent s e).poller = s.poller := rfl
@[simp] theorem withEvent_sched (s : State) (e : EventWord) :
    (withEvent s e).sched = { move := .event e, cancel := s.cancel, txReady := s.txReady } :: s.sched := rfl
@[simp] theorem withEvent_pollerTail (s : State) (e : EventWord) :
    (withEvent s e).pollerTail = s.pollerTail := rfl
@[simp] theorem withEvent_schedTail (s : State) (e : EventWord) :
    (withEvent s e).schedTail = s.schedTail := rfl
@[simp] theorem withEvent_fresh (s : State) (e : EventWord) :
    (withEvent s e).fresh = s.fresh := rfl

@[simp] theorem withCommand_par (s : State) (w : Word) :
    (withCommand s w).par = s.par := rfl
@[simp] theorem withCommand_rx (s : State) (w : Word) :
    (withCommand s w).rx = s.rx := rfl
@[simp] theorem withCommand_tx (s : State) (w : Word) :
    (withCommand s w).tx = s.tx := rfl
@[simp] theorem withCommand_phase (s : State) (w : Word) :
    (withCommand s w).phase = .idle := rfl
@[simp] theorem withCommand_maxLen (s : State) (w : Word) :
    (withCommand s w).maxLen = s.maxLen := rfl
@[simp] theorem withCommand_sByte (s : State) (w : Word) :
    (withCommand s w).sByte = s.sByte := rfl
@[simp] theorem withCommand_len (s : State) (w : Word) :
    (withCommand s w).len = s.len := rfl
@[simp] theorem withCommand_cnt (s : State) (w : Word) :
    (withCommand s w).cnt = s.cnt := rfl
@[simp] theorem withCommand_record (s : State) (w : Word) :
    (withCommand s w).record = s.record := rfl
@[simp] theorem withCommand_cancel (s : State) (w : Word) :
    (withCommand s w).cancel = s.cancel := rfl
@[simp] theorem withCommand_txReady (s : State) (w : Word) :
    (withCommand s w).txReady = s.txReady := rfl
@[simp] theorem withCommand_txout (s : State) (w : Word) :
    (withCommand s w).txout = s.txout := rfl
@[simp] theorem withCommand_rspout (s : State) (w : Word) :
    (withCommand s w).rspout = s.rspout := rfl
@[simp] theorem withCommand_poller (s : State) (w : Word) :
    (withCommand s w).poller = w :: s.poller := rfl
@[simp] theorem withCommand_sched (s : State) (w : Word) :
    (withCommand s w).sched = { move := .poller, cancel := s.cancel, txReady := s.txReady } :: s.sched := rfl
@[simp] theorem withCommand_pollerTail (s : State) (w : Word) :
    (withCommand s w).pollerTail = s.pollerTail := rfl
@[simp] theorem withCommand_schedTail (s : State) (w : Word) :
    (withCommand s w).schedTail = s.schedTail := rfl
@[simp] theorem withCommand_fresh (s : State) (w : Word) :
    (withCommand s w).fresh = s.fresh := rfl

@[simp] theorem resetWith_par (p : Params) :
    (State.resetWith p).par = p := rfl
@[simp] theorem resetWith_rx (p : Params) :
    (State.resetWith p).rx = RingBuf.atReset := rfl
@[simp] theorem resetWith_tx (p : Params) :
    (State.resetWith p).tx = RingBuf.atReset := rfl
@[simp] theorem resetWith_phase (p : Params) :
    (State.resetWith p).phase = .idle := rfl
@[simp] theorem resetWith_maxLen (p : Params) :
    (State.resetWith p).maxLen = 0#8 := rfl
@[simp] theorem resetWith_sByte (p : Params) :
    (State.resetWith p).sByte = 0#8 := rfl
@[simp] theorem resetWith_len (p : Params) :
    (State.resetWith p).len = 0#8 := rfl
@[simp] theorem resetWith_cnt (p : Params) :
    (State.resetWith p).cnt = 0#16 := rfl
@[simp] theorem resetWith_record (p : Params) :
    (State.resetWith p).record = [] := rfl
@[simp] theorem resetWith_cancel (p : Params) :
    (State.resetWith p).cancel = false := rfl
@[simp] theorem resetWith_txReady (p : Params) :
    (State.resetWith p).txReady = false := rfl
@[simp] theorem resetWith_txout (p : Params) :
    (State.resetWith p).txout = [] := rfl
@[simp] theorem resetWith_rspout (p : Params) :
    (State.resetWith p).rspout = [] := rfl
@[simp] theorem resetWith_poller (p : Params) :
    (State.resetWith p).poller = [] := rfl
@[simp] theorem resetWith_sched (p : Params) :
    (State.resetWith p).sched = [] := rfl
@[simp] theorem resetWith_pollerTail (p : Params) :
    (State.resetWith p).pollerTail = .stop := rfl
@[simp] theorem resetWith_schedTail (p : Params) :
    (State.resetWith p).schedTail = .stop := rfl
@[simp] theorem resetWith_fresh (p : Params) :
    (State.resetWith p).fresh = 0 := rfl

@[simp] theorem flush_wp (q : RingBuf) : q.flush.wp = q.wp := rfl
@[simp] theorem flush_rp (q : RingBuf) : q.flush.rp = q.wp := rfl
@[simp] theorem flush_buf (q : RingBuf) : q.flush.buf = q.buf := rfl
@[simp] theorem flush_ovf (q : RingBuf) : q.flush.ovf = q.ovf := rfl

end Sys2Proof.Machine
end

