-- ==== Sys2Proof/Laws/Ops.lean ====
section
/-! SUPPORT. What each shared operation on the state can answer. -/

namespace Sys2Proof.Machine

theorem whenReady_idle {s : State} (k : Host.Outcome State Fault Refusal) (h : s.phase = .idle) :
    whenReady s k = k := by
  simp [whenReady, h]

theorem whenReady_busy {s : State} (k : Host.Outcome State Fault Refusal) (h : s.phase ≠ .idle) :
    whenReady s k = .next s := by
  simp [whenReady, h]

/-- A command answers a next state in two ways: held and unchanged, or accepted. -/
theorem whenReady_next {s t : State} {k : Host.Outcome State Fault Refusal} :
    whenReady s k = .next t ↔ (s.phase ≠ .idle ∧ t = s) ∨ (s.phase = .idle ∧ k = .next t) := by
  by_cases h : s.phase = .idle
  · simp [whenReady_idle k h, h]
  · simp [whenReady_busy k h, h, eq_comm]

theorem pushRx_ok {s t : State} {b : Byte} :
    pushRx s b = .ok t ↔ ∃ q, s.rx.push .rxBuf s.par.rxCap b = .ok q ∧ t = { s with rx := q } := by
  simp only [pushRx]
  cases s.rx.push .rxBuf s.par.rxCap b <;> simp [eq_comm]

theorem pushTx_ok {s t : State} {b : Byte} :
    pushTx s b = .ok t ↔ ∃ q, s.tx.push .txBuf s.par.txCap b = .ok q ∧ t = { s with tx := q } := by
  simp only [pushTx]
  cases s.tx.push .txBuf s.par.txCap b <;> simp [eq_comm]

theorem popRx_ok {s t : State} {o : Option Byte} :
    popRx s = .ok (o, t) ↔ ∃ q, s.rx.pop .rxBuf s.par.rxCap = .ok (o, q) ∧ t = { s with rx := q } := by
  simp only [popRx]
  rcases s.rx.pop .rxBuf s.par.rxCap with f | ⟨o', q⟩
  · simp
  · simp only [Except.ok.injEq, Prod.mk.injEq]
    exact ⟨fun h => ⟨q, ⟨h.1, rfl⟩, h.2.symm⟩, fun ⟨q', h, ht⟩ => ⟨h.1, by rw [ht, h.2]⟩⟩

theorem popTx_ok {s t : State} {o : Option Byte} :
    popTx s = .ok (o, t) ↔ ∃ q, s.tx.pop .txBuf s.par.txCap = .ok (o, q) ∧ t = { s with tx := q } := by
  simp only [popTx]
  rcases s.tx.pop .txBuf s.par.txCap with f | ⟨o', q⟩
  · simp
  · simp only [Except.ok.injEq, Prod.mk.injEq]
    exact ⟨fun h => ⟨q, ⟨h.1, rfl⟩, h.2.symm⟩, fun ⟨q', h, ht⟩ => ⟨h.1, by rw [ht, h.2]⟩⟩

theorem storeRecord_ok {s t : State} {b : Byte} :
    storeRecord s b = .ok t ↔ s.len.toNat < s.par.destCap ∧
      t = { s with record := Mem.put s.record s.len.toNat b, len := s.len + 1#8 } := by
  by_cases h : s.len.toNat < s.par.destCap <;> simp [storeRecord, Mem.write, h, eq_comm]

theorem readRecord_ok {s : State} {i : BitVec 8} {v : Byte} :
    readRecord s i = .ok v ↔ i.toNat < s.par.destCap ∧ Mem.get s.record i.toNat = some v :=
  Mem.read_ok

/-- Handing a byte over: in queued mode a push on TX, in direct mode one byte appended to `txout`. -/
theorem handByte_ok {s t : State} {b : Byte} :
    handByte s b = .ok t ↔ (s.par.txQueued = true ∧ pushTx s b = .ok t) ∨
      (s.par.txQueued = false ∧ t = emit s b) := by
  cases h : s.par.txQueued <;> simp [handByte, h, eq_comm]

theorem engineStep_held {s : State} (h : engineEnabled s = false) : engineStep s = .next s := by
  simp [engineStep, h]

theorem engineStep_idle {s : State} (h : s.phase = .idle) : engineStep s = .next s :=
  engineStep_held (by simp [engineEnabled, h])

theorem engineStep_recvWait {s : State} (h : s.phase = .recvWait) (hg : byteOrTimeout s = true) :
    engineStep s = recvWaitStep s := by
  simp [engineStep, engineEnabled, h, hg]

theorem engineStep_sendWait {s : State} (h : s.phase = .sendWait) (hg : cancelOrHandOver s = true) :
    engineStep s = sendWaitStep s := by
  simp [engineStep, engineEnabled, h, hg]

theorem engineStep_frameHunt {s : State} (h : s.phase = .frameHunt) :
    engineStep s = frameHuntStep s := by
  simp [engineStep, engineEnabled, h]

theorem engineStep_frameCollect {s : State} (h : s.phase = .frameCollect) :
    engineStep s = frameCollectStep s := by
  simp [engineStep, engineEnabled, h]

theorem engineStep_lineCollect {s : State} (h : s.phase = .lineCollect)
    (hg : byteOrTimeout s = true) : engineStep s = lineCollectStep s := by
  simp [engineStep, engineEnabled, h, hg]

/-- The engine answers a next state in two ways: held and unchanged, or the step of its phase. -/
theorem engineStep_next {s t : State} (h : engineStep s = .next t) :
    t = s ∨ (s.phase = .recvWait ∧ byteOrTimeout s = true ∧ recvWaitStep s = .next t) ∨
      (s.phase = .sendWait ∧ cancelOrHandOver s = true ∧ sendWaitStep s = .next t) ∨
      (s.phase = .frameHunt ∧ frameHuntStep s = .next t) ∨
      (s.phase = .frameCollect ∧ frameCollectStep s = .next t) ∨
      (s.phase = .lineCollect ∧ byteOrTimeout s = true ∧ lineCollectStep s = .next t) := by
  cases hg : engineEnabled s
  · rw [engineStep_held hg] at h
    exact .inl (Host.Outcome.next.inj h).symm
  · simp only [engineStep, hg, if_true] at h
    cases hp : s.phase <;> simp only [hp, engineEnabled] at h hg <;> simp_all

end Sys2Proof.Machine
end

