-- ==== Sys2Proof/Laws/PerInstr.lean ====
section
/-! SUPPORT. One lemma per instruction: the word the encoder gives it selects its own row of the
opcode map, by that row's `match` and `mask` (R51), and an event's bits have the strobe set (R57). -/

namespace Sys2Proof.Laws.RowWord

/-- The port word of a well-formed instruction selects the instruction's row. -/
def Statement (i : Instr) : Prop :=
  i.wf = true →
    match encode i, rowBits i with
    | .command w, some row => selects w row = true
    | .event e, none => decodeEvent e = .ok i
    | _, _ => False

/-- A packed word under a packed mask. -/
theorem selects_packed (f m p : CmdFields)
    (h : (⟨f.op &&& m.op, f.z &&& m.z, f.r &&& m.r, f.imm8 &&& m.imm8, f.imm16 &&& m.imm16⟩ :
      CmdFields) = p) : selects (packCmd f) ⟨packCmd p, packCmd m⟩ = true := by
  rw [selects, packCmd_and, h, beq_self_eq_true]

theorem nop : Statement .nop := fun _ => rfl

theorem pop : Statement .pop := fun _ => rfl

theorem avail (r : RingSel) : Statement (.avail r) := fun _ => by
  cases r <;> rfl

theorem flush : Statement .flush := fun _ => rfl

theorem recv (t : BitVec 16) : Statement (.recv t) := fun _ =>
  selects_packed ⟨4#4, 0#3, 0#1, 0#8, t⟩ ⟨15#4, 7#3, 1#1, 255#8, 0#16⟩ ⟨4#4, 0#3, 0#1, 0#8, 0#16⟩
    (by simp)

theorem frame (m : BitVec 8) : Statement (.frame m) := fun _ =>
  selects_packed ⟨5#4, 0#3, 0#1, m, 0#16⟩ ⟨15#4, 7#3, 1#1, 0#8, 65535#16⟩
    ⟨5#4, 0#3, 0#1, 0#8, 0#16⟩ (by simp)

theorem line (m : BitVec 8) (t : BitVec 16) : Statement (.line m t) := fun _ =>
  selects_packed ⟨6#4, 0#3, 0#1, m, t⟩ ⟨15#4, 7#3, 1#1, 0#8, 0#16⟩ ⟨6#4, 0#3, 0#1, 0#8, 0#16⟩
    (by simp)

theorem rdrec (i : BitVec 8) : Statement (.rdrec i) := fun _ =>
  selects_packed ⟨7#4, 0#3, 0#1, i, 0#16⟩ ⟨15#4, 7#3, 1#1, 0#8, 65535#16⟩
    ⟨7#4, 0#3, 0#1, 0#8, 0#16⟩ (by simp)

theorem send (b : BitVec 8) : Statement (.send b) := fun _ =>
  selects_packed ⟨8#4, 0#3, 0#1, b, 0#16⟩ ⟨15#4, 7#3, 1#1, 0#8, 65535#16⟩
    ⟨8#4, 0#3, 0#1, 0#8, 0#16⟩ (by simp)

theorem clrovf (r : RingSel) : Statement (.clrovf r) := fun _ => by
  cases r <;> rfl

/-- A reserved word under a mask of its opcode bits alone. -/
theorem selects_reserved (op m p : BitVec 4) (rest : BitVec 28) (h : op &&& m = p) :
    selects (op ++ rest : Word) ⟨p ++ 0#28, m ++ 0#28⟩ = true := by
  subst h
  rw [selects, beq_iff_eq]
  refine BitVec.eq_of_getLsbD_eq fun i _ => ?_
  rw [BitVec.getLsbD_and, getLsbD_op_rest, getLsbD_op_rest, getLsbD_op_rest]
  split_ifs <;> simp

theorem illegalOp9 (rest : BitVec 28) : Statement (.illegalOp9 rest) := fun _ =>
  selects_reserved 9#4 15#4 9#4 rest (by decide)

theorem illegalOpB (rest : BitVec 28) : Statement (.illegalOpB rest) := fun _ =>
  selects_reserved 11#4 15#4 11#4 rest (by decide)

theorem illegalOpCF (op : BitVec 4) (rest : BitVec 28) : Statement (.illegalOpCF op rest) :=
  fun h =>
    selects_reserved op 12#4 12#4 rest (by
      simp only [Instr.wf, decide_eq_true_eq] at h
      revert op
      decide)

theorem rxev (b : BitVec 8) : Statement (.rxev b) := fun _ => by
  show decodeEvent (.rx (1#1 ++ b)) = .ok (.rxev b)
  rw [decodeEvent, (extract_strobe 1#1 b).1, (extract_strobe 1#1 b).2, if_pos rfl]

theorem txev : Statement .txev := fun _ => rfl

theorem tick : Statement .tick := fun _ => rfl

theorem reset : Statement .reset := fun _ => rfl

end Sys2Proof.Laws.RowWord
end

