-- ==== Sys2Proof/Laws/Steps.lean ====
section
/-! SUPPORT. Everything a step can do, said once: what a pop, a push and a handed-over byte answer on
the state, the ways an engine step and an instruction answer a next state, and what the scheduler
leaves as it is. -/

namespace Sys2Proof.Machine

/-- A pop of RX that returns a byte. -/
theorem popRx_some {s u : State} {v : Byte} :
    popRx s = .ok (some v, u) ↔ s.rx.rp ≠ s.rx.wp ∧ s.rx.rp < s.par.rxCap ∧
      Mem.get s.rx.buf s.rx.rp = some v ∧
      u = { s with rx := { s.rx with rp := nextIndex s.par.rxCap s.rx.rp } } := by
  rw [popRx_ok]
  constructor
  · rintro ⟨q, hq, rfl⟩
    rcases RingBuf.pop_ok.mp hq with ⟨-, hv, -⟩ | ⟨he, hr, w, hw, hv, rfl⟩
    · cases hv
    · cases hv
      exact ⟨fun e => by simp [RingBuf.empty, e] at he, hr, hw, rfl⟩
  · rintro ⟨hne, hr, hv, rfl⟩
    exact ⟨_, RingBuf.pop_head (by simpa [RingBuf.empty] using hne) hr hv, rfl⟩

/-- A pop of RX that finds it empty. -/
theorem popRx_none {s u : State} : popRx s = .ok (none, u) ↔ s.rx.rp = s.rx.wp ∧ u = s := by
  rw [popRx_ok]
  constructor
  · rintro ⟨q, hq, rfl⟩
    rcases RingBuf.pop_ok.mp hq with ⟨he, -, rfl⟩ | ⟨-, -, w, -, hv, -⟩
    · exact ⟨(RingBuf.empty_iff _).mp he, rfl⟩
    · cases hv
  · rintro ⟨he, rfl⟩
    exact ⟨_, RingBuf.pop_empty ((RingBuf.empty_iff _).mpr he), rfl⟩

/-- A pop of TX that returns a byte. -/
theorem popTx_some {s u : State} {v : Byte} :
    popTx s = .ok (some v, u) ↔ s.tx.rp ≠ s.tx.wp ∧ s.tx.rp < s.par.txCap ∧
      Mem.get s.tx.buf s.tx.rp = some v ∧
      u = { s with tx := { s.tx with rp := nextIndex s.par.txCap s.tx.rp } } := by
  rw [popTx_ok]
  constructor
  · rintro ⟨q, hq, rfl⟩
    rcases RingBuf.pop_ok.mp hq with ⟨-, hv, -⟩ | ⟨he, hr, w, hw, hv, rfl⟩
    · cases hv
    · cases hv
      exact ⟨fun e => by simp [RingBuf.empty, e] at he, hr, hw, rfl⟩
  · rintro ⟨hne, hr, hv, rfl⟩
    exact ⟨_, RingBuf.pop_head (by simpa [RingBuf.empty] using hne) hr hv, rfl⟩

/-- A pop of TX that finds it empty. -/
theorem popTx_none {s u : State} : popTx s = .ok (none, u) ↔ s.tx.rp = s.tx.wp ∧ u = s := by
  rw [popTx_ok]
  constructor
  · rintro ⟨q, hq, rfl⟩
    rcases RingBuf.pop_ok.mp hq with ⟨he, -, rfl⟩ | ⟨-, -, w, -, hv, -⟩
    · exact ⟨(RingBuf.empty_iff _).mp he, rfl⟩
    · cases hv
  · rintro ⟨he, rfl⟩
    exact ⟨_, RingBuf.pop_empty ((RingBuf.empty_iff _).mpr he), rfl⟩

/-- A push on RX: the flag when full, else the byte at `RX.wp`. -/
theorem pushRx_cases {s t : State} {b : Byte} (h : pushRx s b = .ok t) :
    (s.rx.full s.par.rxCap = true ∧ t = { s with rx := { s.rx with ovf := true } }) ∨
      (s.rx.full s.par.rxCap = false ∧ s.rx.wp < s.par.rxCap ∧
        t = { s with rx := { s.rx with
          buf := Mem.put s.rx.buf s.rx.wp b, wp := nextIndex s.par.rxCap s.rx.wp } }) := by
  obtain ⟨q, hq, rfl⟩ := pushRx_ok.mp h
  rcases RingBuf.push_ok.mp hq with ⟨hf, rfl⟩ | ⟨hf, hw, rfl⟩
  · exact .inl ⟨hf, rfl⟩
  · exact .inr ⟨hf, hw, rfl⟩

/-- A byte handed over under its guard: stored at `TX.wp` of a ring with room, or emitted. It never
sets the flag of TX (R75). -/
theorem handByte_cases {s t : State} {b : Byte} (hg : handOver s = true)
    (h : handByte s b = .ok t) :
    (s.par.txQueued = true ∧ s.tx.full s.par.txCap = false ∧ s.tx.wp < s.par.txCap ∧
      t = { s with tx := { s.tx with
        buf := Mem.put s.tx.buf s.tx.wp b, wp := nextIndex s.par.txCap s.tx.wp } }) ∨
      (s.par.txQueued = false ∧ t = emit s b) := by
  rcases handByte_ok.mp h with ⟨hq, h⟩ | h
  · obtain ⟨q, hp, rfl⟩ := pushTx_ok.mp h
    rcases RingBuf.push_ok.mp hp with ⟨hf, -⟩ | ⟨hf, hw, rfl⟩
    · simp [handOver, hq, hf] at hg
    · exact .inl ⟨hq, hf, hw, rfl⟩
  · exact .inr h

/-- An engine step that answers a next state: held; the end of a command that pops and hands over
nothing; the end of a `SEND`; or one byte popped, which ends the command, starts the collection, is
dropped, or is stored, ending a `LINE` or not. -/
theorem engineStep_cases {s t : State} (h : engineStep s = .next t) :
    t = s ∨
    (s.phase ≠ .idle ∧ ∃ st l v cn, t = complete s st l v cn) ∨
    (s.phase = .sendWait ∧ handOver s = true ∧
      ∃ u, handByte s s.sByte = .ok u ∧ t = complete u .ok 0#8 0#16 false) ∨
    (∃ v u, popRx s = .ok (some v, u) ∧
      (s.phase = .recvWait ∨ s.phase = .frameHunt ∨ s.phase = .frameCollect ∨
        s.phase = .lineCollect) ∧
      ((∃ st l w cn, t = complete u st l w cn) ∨
        (s.phase = .frameHunt ∧ v = s.par.sof ∧ t = { u with phase := .frameCollect }) ∨
        (s.phase ≠ .recvWait ∧ t = u) ∨
        ((s.phase = .frameCollect ∨ s.phase = .lineCollect) ∧ u.len ≠ u.maxLen ∧
          ∃ x, storeRecord u v = .ok x ∧ (t = x ∨ t = complete x .ok x.len 0#16 false)))) := by
  have pure {r : Host.Outcome State Fault Refusal} {x : State} (hr : r = .next t)
      (hx : r = .next x) : t = x := Host.Outcome.next.inj (hr.symm.trans hx)
  replace h := engineStep_next h
  rcases h with rfl | ⟨hp, -, h⟩ | ⟨hp, hg, h⟩ | ⟨hp, h⟩ | ⟨hp, h⟩ | ⟨hp, -, h⟩
  · exact .inl rfl
  · rw [recvWaitStep] at h
    split at h
    · exact .inr (.inl ⟨by simp [hp], _, _, _, _, pure h rfl⟩)
    · split at h
      · cases h
      · rename_i v u hu
        exact .inr (.inr (.inr ⟨v, u, hu, by simp [hp], .inl ⟨_, _, _, _, pure h rfl⟩⟩))
      · rename_i u hu
        obtain ⟨-, rfl⟩ := popRx_none.mp hu
        exact .inr (.inl ⟨by simp [hp], _, _, _, _, pure h rfl⟩)
  · rw [sendWaitStep] at h
    split at h
    · exact .inr (.inl ⟨by simp [hp], _, _, _, _, pure h rfl⟩)
    · rename_i hc
      split at h
      · cases h
      · rename_i u hu
        have hh : handOver s = true := by simpa [cancelOrHandOver, hc] using hg
        exact .inr (.inr (.inl ⟨hp, hh, u, hu, pure h rfl⟩))
  · rw [frameHuntStep] at h
    split at h
    · exact .inr (.inl ⟨by simp [hp], _, _, _, _, pure h rfl⟩)
    · split at h
      · cases h
      · rename_i u hu
        obtain ⟨-, rfl⟩ := popRx_none.mp hu
        exact .inr (.inl ⟨by simp [hp], _, _, _, _, pure h rfl⟩)
      · rename_i v u hu
        obtain ⟨-, -, -, rfl⟩ := popRx_some.mp hu
        refine .inr (.inr (.inr ⟨v, _, hu, by simp [hp], ?_⟩))
        split at h
        · rename_i hv
          exact .inr (.inl ⟨hp, hv, pure h rfl⟩)
        · exact .inr (.inr (.inl ⟨by simp [hp], pure h rfl⟩))
  · rw [frameCollectStep] at h
    split at h
    · exact .inr (.inl ⟨by simp [hp], _, _, _, _, pure h rfl⟩)
    · split at h
      · cases h
      · rename_i u hu
        obtain ⟨-, rfl⟩ := popRx_none.mp hu
        exact .inr (.inl ⟨by simp [hp], _, _, _, _, pure h rfl⟩)
      · rename_i v u hu
        refine .inr (.inr (.inr ⟨v, u, hu, by simp [hp], ?_⟩))
        split_ifs at h with hv hl
        · exact .inl ⟨_, _, _, _, pure h rfl⟩
        · exact .inl ⟨_, _, _, _, pure h rfl⟩
        · split at h
          · cases h
          · rename_i x hx
            exact .inr (.inr (.inr ⟨.inl hp, hl, x, hx, .inl (pure h rfl)⟩))
  · rw [lineCollectStep] at h
    split at h
    · exact .inr (.inl ⟨by simp [hp], _, _, _, _, pure h rfl⟩)
    · split at h
      · cases h
      · rename_i u hu
        obtain ⟨-, rfl⟩ := popRx_none.mp hu
        exact .inr (.inl ⟨by simp [hp], _, _, _, _, pure h rfl⟩)
      · rename_i v u hu
        refine .inr (.inr (.inr ⟨v, u, hu, by simp [hp], ?_⟩))
        split_ifs at h with hv hl
        · exact .inr (.inr (.inl ⟨by simp [hp], pure h rfl⟩))
        · exact .inl ⟨_, _, _, _, pure h rfl⟩
        · split at h
          · cases h
          · rename_i x hx
            refine .inr (.inr (.inr ⟨.inr hp, hl, x, hx, ?_⟩))
            split at h
            · exact .inr (pure h rfl)
            · exact .inl (pure h rfl)

/-- An accepted command that answers a next state: it responds from the state it found, or has the
effect its rule gives it. -/
theorem exec_command_cases {i : Instr} {s t : State} (hc : isCommand i = true)
    (hp : s.phase = .idle) (h : exec i s = .next t) :
    ((i ≠ .flush ∧ (∀ r, i ≠ .clrovf r) ∧ (∀ d, i ≠ .recv d) ∧ ∀ b, i ≠ .send b) ∧
      ∃ st v, t = respond s st 0#8 v false) ∨
    (i = .pop ∧ ∃ v u, popRx s = .ok (some v, u) ∧ t = respond u .ok 0#8 (byteVal v) false) ∨
    (i = .flush ∧ t = respond (flushRx s) .ok 0#8 0#16 false) ∨
    (∃ r, i = .clrovf r ∧ t = respond (clearOvf s r) .ok 0#8 0#16 false) ∨
    (∃ d, i = .recv d ∧ t = { s with cnt := d, phase := .recvWait }) ∨
    (∃ m, i = .frame m ∧ boundOk s m = true ∧
      t = { s with maxLen := m, len := 0#8, phase := .frameHunt }) ∨
    (∃ m d, i = .line m d ∧ boundOk s m = true ∧
      t = { s with maxLen := m, len := 0#8, cnt := d, phase := .lineCollect }) ∨
    (∃ b u, i = .send b ∧ handOver s = true ∧ handByte s b = .ok u ∧
      t = respond u .ok 0#8 0#16 false) ∨
    (∃ b, i = .send b ∧ handOver s = false ∧ t = { s with sByte := b, phase := .sendWait }) := by
  have pure {r : Host.Outcome State Fault Refusal} {x : State} (hr : r = .next t)
      (hx : r = .next x) : t = x := Host.Outcome.next.inj (hr.symm.trans hx)
  have open' {k : Host.Outcome State Fault Refusal} (hk : whenReady s k = .next t) :
      k = .next t := (whenReady_idle k hp).symm.trans hk
  cases i with
  | nop => exact .inl ⟨by simp, _, _, pure (open' h) rfl⟩
  | pop =>
    replace h := open' h
    split at h
    · cases h
    · rename_i v u hu
      exact .inr (.inl ⟨rfl, v, u, hu, pure h rfl⟩)
    · rename_i u hu
      obtain ⟨-, rfl⟩ := popRx_none.mp hu
      exact .inl ⟨by simp, _, _, pure h rfl⟩
  | avail r => exact .inl ⟨by simp, _, _, pure (open' h) rfl⟩
  | flush => exact .inr (.inr (.inl ⟨rfl, pure (open' h) rfl⟩))
  | recv d => exact .inr (.inr (.inr (.inr (.inl ⟨d, rfl, pure (open' h) rfl⟩))))
  | frame m =>
    replace h := open' h
    split at h
    · rename_i hb
      exact .inr (.inr (.inr (.inr (.inr (.inl ⟨m, rfl, hb, pure h rfl⟩)))))
    · exact .inl ⟨by simp, _, _, pure h rfl⟩
  | line m d =>
    replace h := open' h
    split at h
    · rename_i hb
      exact .inr (.inr (.inr (.inr (.inr (.inr (.inl ⟨m, d, rfl, hb, pure h rfl⟩))))))
    · exact .inl ⟨by simp, _, _, pure h rfl⟩
  | rdrec k =>
    replace h := open' h
    split at h
    · split at h
      · cases h
      · exact .inl ⟨by simp, _, _, pure h rfl⟩
    · exact .inl ⟨by simp, _, _, pure h rfl⟩
  | send b =>
    replace h := open' h
    split at h
    · rename_i hg
      split at h
      · cases h
      · rename_i u hu
        exact .inr (.inr (.inr (.inr (.inr (.inr (.inr (.inl
          ⟨b, u, rfl, hg, hu, pure h rfl⟩)))))))
    · rename_i hg
      exact .inr (.inr (.inr (.inr (.inr (.inr (.inr (.inr
        ⟨b, rfl, by simpa using hg, pure h rfl⟩)))))))
  | clrovf r => exact .inr (.inr (.inr (.inl ⟨r, rfl, pure (open' h) rfl⟩)))
  | illegalOp9 rest => exact .inl ⟨by simp, _, _, pure (open' h) rfl⟩
  | illegalOpB rest => exact .inl ⟨by simp, _, _, pure (open' h) rfl⟩
  | illegalOpCF op rest => exact .inl ⟨by simp, _, _, pure (open' h) rfl⟩
  | rxev b => cases hc
  | txev => cases hc
  | tick => cases hc
  | reset => cases hc

/-- An event that answers a next state. -/
theorem exec_event_cases {i : Instr} {s t : State} (hc : isCommand i = false)
    (h : exec i s = .next t) :
    (∃ b, i = .rxev b ∧ pushRx s b = .ok t) ∨
    (i = .txev ∧ (s.par.txQueued = true → s.tx.rp = s.tx.wp) ∧ t = s) ∨
    (i = .txev ∧ s.par.txQueued = true ∧ ∃ v u, popTx s = .ok (some v, u) ∧ t = emit u v) ∨
    (i = .tick ∧ s.cnt = 0#16 ∧ t = s) ∨
    (i = .tick ∧ s.cnt ≠ 0#16 ∧ t = { s with cnt := s.cnt - 1#16 }) ∨
    (i = .reset ∧ t = resetBlock s) := by
  have pure {r : Host.Outcome State Fault Refusal} {x : State} (hr : r = .next t)
      (hx : r = .next x) : t = x := Host.Outcome.next.inj (hr.symm.trans hx)
  cases i <;> simp only [isCommand, rowBits, Option.isSome_some, reduceCtorEq] at hc
  case rxev b =>
    simp only [exec, execRxev] at h
    split at h
    · cases h
    · rename_i u hu
      exact .inl ⟨b, rfl, pure h rfl ▸ hu⟩
  case txev =>
    simp only [exec, execTxev] at h
    split at h
    · rename_i hq
      split at h
      · cases h
      · rename_i v u hu
        exact .inr (.inr (.inl ⟨rfl, hq, v, u, hu, pure h rfl⟩))
      · rename_i u hu
        obtain ⟨he, rfl⟩ := popTx_none.mp hu
        exact .inr (.inl ⟨rfl, fun _ => he, pure h rfl⟩)
    · rename_i hq
      exact .inr (.inl ⟨rfl, fun h' => absurd h' hq, pure h rfl⟩)
  case tick =>
    simp only [exec, execTick] at h
    split at h
    · rename_i hz
      exact .inr (.inr (.inr (.inl ⟨rfl, hz, pure h rfl⟩)))
    · rename_i hz
      exact .inr (.inr (.inr (.inr (.inl ⟨rfl, hz, pure h rfl⟩))))
  case reset => exact .inr (.inr (.inr (.inr (.inr ⟨rfl, pure h rfl⟩))))

/-- An illegal word that answers a next state: held, or `ILLEGAL` answered. -/
theorem acceptIllegal_cases {s t : State} (h : acceptIllegal s = .next t) :
    (s.phase ≠ .idle ∧ t = s) ∨ (s.phase = .idle ∧ t = respond s .illegal 0#8 0#16 false) := by
  rcases whenReady_next.mp h with ⟨hp, rfl⟩ | ⟨hp, hk⟩
  · exact .inl ⟨hp, rfl⟩
  · exact .inr ⟨hp, (Host.Outcome.next.inj hk).symm⟩

/-- The state an action is done in. -/
def Action.state : Action → State
  | .instr _ u => u
  | .illegal u => u
  | .engine u => u
  | .held u => u

/-- What taking a slot off the schedule can do: the head of the list; the first of a loop, with its
rest as the new list; or a free slot. -/
theorem drawSlot_cases {s u : State} {slot : Slot} (h : drawSlot s = some (slot, u)) :
    (∃ rest, s.sched = slot :: rest ∧ u = { s with sched := rest }) ∨
    (∃ rest, s.sched = [] ∧ s.schedTail = .loop slot rest ∧ u = { s with sched := rest }) ∨
    (s.sched = [] ∧ s.schedTail = .free ∧ slot = Config.freeSlot s.fresh ∧
      u = { s with fresh := s.fresh + 1 }) := by
  rw [drawSlot] at h
  split at h
  · rename_i hs
    cases h
    exact .inl ⟨_, hs, rfl⟩
  · rename_i hs
    split at h <;> rename_i ht <;> cases h
    · exact .inr (.inl ⟨_, hs, ht, rfl⟩)
    · exact .inr (.inr ⟨hs, ht, rfl, rfl⟩)

/-- The environment has fallen silent exactly when the schedule is used up and has no tail. -/
theorem drawSlot_none {s : State} :
    drawSlot s = none ↔ s.sched = [] ∧ s.schedTail = .stop := by
  rw [drawSlot]
  split
  · simp [*]
  · split <;> simp [*]

theorem drawSlot_cons {s : State} {slot : Slot} {rest : List Slot} (h : s.sched = slot :: rest) :
    drawSlot s = some (slot, { s with sched := rest }) := by
  rw [drawSlot, h]

theorem drawSlot_loop {s : State} {slot : Slot} {rest : List Slot} (h : s.sched = [])
    (ht : s.schedTail = .loop slot rest) :
    drawSlot s = some (slot, { s with sched := rest }) := by
  rw [drawSlot, h, ht]

/-- What taking a word from the poller can do: the head of the list; the first of a loop, with its
rest as the new list; or a free word. -/
theorem drawWord_cases {s u : State} {w : Word} (h : drawWord s = some (w, u)) :
    (∃ ws, s.poller = w :: ws ∧ u = { s with poller := ws }) ∨
    (∃ ws, s.poller = [] ∧ s.pollerTail = .loop w ws ∧ u = { s with poller := ws }) ∨
    (s.poller = [] ∧ s.pollerTail = .free ∧ w = Config.freeWord s.fresh ∧
      u = { s with fresh := s.fresh + 1 }) := by
  rw [drawWord] at h
  split at h
  · rename_i hs
    cases h
    exact .inl ⟨_, hs, rfl⟩
  · rename_i hs
    split at h <;> rename_i ht <;> cases h
    · exact .inr (.inl ⟨_, hs, ht, rfl⟩)
    · exact .inr (.inr ⟨hs, ht, rfl, rfl⟩)

/-- A slot taken: its levels hold and its agent moves. -/
theorem nextAction_slot {s u : State} {slot : Slot} (h : drawSlot s = some (slot, u)) :
    nextAction s = slotAction slot u := by
  rw [nextAction, h]

/-- Nothing to take: the block is left to itself. -/
theorem nextAction_quiet {s : State} (h : s.sched = []) (ht : s.schedTail = .stop) :
    nextAction s = quietAction s := by
  rw [nextAction, drawSlot_none.mpr ⟨h, ht⟩]

/-- Issuing a command consumes the poller's word and may draw a free value; every other field
stays. -/
theorem issueCommand_frame (s : State) :
    (issueCommand s).state = { s with
      poller := (issueCommand s).state.poller
      fresh := (issueCommand s).state.fresh } := by
  rw [issueCommand]
  split_ifs
  · split
    · rfl
    · rename_i hw
      obtain ⟨_, _, rfl⟩ | ⟨_, _, _, rfl⟩ | ⟨_, _, _, rfl⟩ := drawWord_cases hw <;> split <;> rfl
  · rfl

/-- Choosing the next move consumes the schedule and the poller's word, draws free values and sets
the two input levels; every other field stays, both tails among them. -/
theorem nextAction_frame (s : State) :
    (nextAction s).state = { s with
      sched := (nextAction s).state.sched
      poller := (nextAction s).state.poller
      cancel := (nextAction s).state.cancel
      txReady := (nextAction s).state.txReady
      fresh := (nextAction s).state.fresh } := by
  rw [nextAction]
  split
  · rw [quietAction]
    split_ifs <;> rfl
  · rename_i slot u hu
    have hs : (slotAction slot u).state = { u with
        poller := (slotAction slot u).state.poller
        cancel := (slotAction slot u).state.cancel
        txReady := (slotAction slot u).state.txReady
        fresh := (slotAction slot u).state.fresh } := by
      rw [slotAction]
      split
      · rw [issueCommand_frame]
      · rfl
      · rw [strobeEvent]
        split <;> rfl
    rw [hs]
    obtain ⟨_, _, rfl⟩ | ⟨_, _, _, rfl⟩ | ⟨_, _, _, rfl⟩ := drawSlot_cases hu <;> rfl

/-- A step that answers a next state, by what was chosen. -/
theorem step_cases {s t : State} (h : step s = .next t) :
    (∃ i u, nextAction s = .instr i u ∧ exec i u = .next t) ∨
    (∃ u, nextAction s = .illegal u ∧ acceptIllegal u = .next t) ∨
    (∃ u, nextAction s = .engine u ∧ engineStep u = .next t) ∨
    nextAction s = .held t := by
  rw [step] at h
  cases ha : nextAction s with
  | instr i u => exact .inl ⟨i, u, rfl, by simpa only [ha] using h⟩
  | illegal u => exact .inr (.inl ⟨u, rfl, by simpa only [ha] using h⟩)
  | engine u => exact .inr (.inr (.inl ⟨u, rfl, by simpa only [ha] using h⟩))
  | held u =>
    rw [ha] at h
    exact .inr (.inr (.inr (congrArg Action.held (Host.Outcome.next.inj h))))

/-- One step of a run of any machine behind the host's interface. -/
theorem run_succ (M : Host.Core) {s t : M.State} (n : Nat) (h : M.step s = .next t) :
    M.run (n + 1) s = M.run n t := by
  simp only [Host.Core.run, h]

/-- One step of a run of the machine. -/
theorem core_run_succ {s t : State} (n : Nat) (h : step s = .next t) :
    Sys2Proof.core.run (n + 1) s = Sys2Proof.core.run n t :=
  run_succ Sys2Proof.core n h

theorem engineRun_succ {s t : State} (n : Nat) (h : engineStep s = .next t) :
    engineRun (n + 1) s = engineRun n t := by
  simp only [engineRun, h]

end Sys2Proof.Machine
end

