-- ==== Sys2Proof/Laws/Runs.lean ====
section
/-! SUPPORT. Runs under an endless schedule: what a slot's step is while a command waits, and the
induction over the laps of a looping schedule, done once. -/

namespace Sys2Proof.Machine

/-- The state a slot's agent moves in: the slot taken off, its levels set. -/
def taken (s : State) (slot : Slot) (rest : List Slot) : State :=
  { s with sched := rest, cancel := slot.cancel, txReady := slot.txReady }

/-- A step under a slot, whatever the phase: held, the engine's, a decoded event's, or, in `IDLE`
alone, the poller's. -/
theorem step_taken {s : State} {slot : Slot} {rest : List Slot}
    (h : drawSlot s = some (slot, { s with sched := rest })) :
    (step s = .next (taken s slot rest) ∧ slot.move ≠ .engine ∧ ∀ i, ¬slot.strobes i) ∨
    (slot.move = .engine ∧ step s = engineStep (taken s slot rest)) ∨
    (∃ i, isCommand i = false ∧ slot.strobes i ∧ step s = exec i (taken s slot rest)) ∨
    (slot.move = .poller ∧ s.phase = .idle) := by
  have hn : nextAction s = slotAction slot { s with sched := rest } := nextAction_slot h
  cases hm : slot.move with
  | poller =>
    by_cases hp : s.phase = .idle
    · exact .inr (.inr (.inr ⟨rfl, hp⟩))
    · refine .inl ⟨?_, by simp, fun i ⟨e, he, _⟩ => by simp [hm] at he⟩
      simp [step, hn, slotAction, hm, issueCommand, hp, taken]
  | engine =>
    exact .inr (.inl ⟨rfl, by simp [step, hn, slotAction, hm, taken]⟩)
  | event e =>
    cases hd : decodeEvent e with
    | error r =>
      refine .inl ⟨?_, by simp, fun i ⟨e', he, hi⟩ => ?_⟩
      · simp [step, hn, slotAction, hm, strobeEvent, hd, taken]
      · rw [hm] at he
        cases he
        simp [hd] at hi
    | ok i =>
      refine .inr (.inr (.inl ⟨i, ?_, ⟨e, hm, hd⟩, ?_⟩))
      · cases e <;> simp only [decodeEvent] at hd <;> split at hd <;> cases hd <;> rfl
      · simp [step, hn, slotAction, hm, strobeEvent, hd, taken]

/-- The slot that comes next, in the list or at the start of the loop. -/
theorem drawSlot_next {s : State} {a σ : Slot} {l rest : List Slot} (ht : s.schedTail = .loop a l)
    (hL : s.sched = σ :: rest ∨ (s.sched = [] ∧ σ :: rest = a :: l)) :
    drawSlot s = some (σ, { s with sched := rest }) := by
  rcases hL with h | ⟨h, e⟩
  · exact drawSlot_cons h
  · cases e
    exact drawSlot_loop h ht

/-- One list of slots used up: the run is done on the way, or `P` holds after it with a measure that
has not grown, and has fallen if a good slot stood in the list. -/
theorem run_list (P Done : State → Prop) (Q : Slot → Prop) (μ : State → Nat)
    (good : State → Slot → Prop) (a : Slot) (l : List Slot)
    (tail : ∀ s, P s → s.schedTail = .loop a l)
    (move : ∀ s σ rest, P s → Q σ → drawSlot s = some (σ, { s with sched := rest }) →
      ∃ t, step s = .next t ∧ (Done t ∨ (P t ∧ t.sched = rest ∧
        (μ t < μ s ∨ (μ t = μ s ∧ ¬good s σ ∧ ∀ τ, good s τ → good t τ))))) :
    ∀ (L : List Slot) (s : State), P s → (∀ σ ∈ L, Q σ) →
      s.sched = L ∨ (s.sched = [] ∧ L = a :: l) →
      (∃ n t, n ≤ L.length ∧ Sys2Proof.core.run n s = .next t ∧ Done t) ∨
      ∃ t, Sys2Proof.core.run L.length s = .next t ∧ P t ∧ t.sched = [] ∧ μ t ≤ μ s ∧
        ((∃ σ ∈ L, good s σ) → μ t < μ s) := by
  intro L
  induction L with
  | nil =>
    intro s hP _ hL
    rcases hL with h | ⟨_, h⟩
    · exact .inr ⟨s, rfl, hP, h, le_rfl, fun ⟨_, h', _⟩ => by simp at h'⟩
    · cases h
  | cons σ rest ih =>
    intro s hP hQ hL
    obtain ⟨t, ht, hd | ⟨hPt, hs, hμ⟩⟩ :=
      move s σ rest hP (hQ σ (by simp)) (drawSlot_next (tail s hP) hL)
    · exact .inl ⟨1, t, by simp, by rw [core_run_succ 0 ht]; rfl, hd⟩
    · rcases ih t hPt (fun τ hτ => hQ τ (by simp [hτ])) (.inl hs) with
        ⟨n, u, hn, hr, hd⟩ | ⟨u, hr, hPu, hsu, hle, hlt⟩
      · exact .inl ⟨n + 1, u, by simpa using hn, by rw [core_run_succ n ht]; exact hr, hd⟩
      · refine .inr ⟨u, by rw [List.length_cons, core_run_succ _ ht]; exact hr, hPu, hsu,
          by omega, ?_⟩
        rintro ⟨τ, hτ, hg⟩
        rcases hμ with hμ | ⟨hμ, hng, hk⟩
        · omega
        · rcases List.mem_cons.mp hτ with rfl | hτ
          · exact absurd hg hng
          · have := hlt ⟨τ, hτ, hk τ hg⟩
            omega

/-- Runs of any machine behind the host's interface compose. -/
theorem run_add (M : Host.Core) {s t : M.State} (m n : Nat) (h : M.run m s = .next t) :
    M.run (m + n) s = M.run n t := by
  induction m generalizing s with
  | zero =>
    cases h
    rw [Nat.zero_add]
  | succ m ih =>
    simp only [Host.Core.run] at h
    split at h
    · rename_i u hu
      rw [Nat.add_right_comm, run_succ M _ hu]
      exact ih h
    · cases h
    · cases h

/-- Runs of the machine compose. -/
theorem core_run_add {s t : State} (m n : Nat) (h : Sys2Proof.core.run m s = .next t) :
    Sys2Proof.core.run (m + n) s = Sys2Proof.core.run n t :=
  run_add Sys2Proof.core m n h

/-- Under a looping schedule in which a good slot recurs, the run is done within one lap more than
the measure, after the slots still in the list. -/
theorem run_laps (P Done : State → Prop) (Q : Slot → Prop) (μ : State → Nat)
    (good : State → Slot → Prop) (a : Slot) (l : List Slot)
    (tail : ∀ s, P s → s.schedTail = .loop a l)
    (recurs : ∀ s, P s → ∃ σ ∈ a :: l, good s σ)
    (move : ∀ s σ rest, P s → Q σ → drawSlot s = some (σ, { s with sched := rest }) →
      ∃ t, step s = .next t ∧ (Done t ∨ (P t ∧ t.sched = rest ∧
        (μ t < μ s ∨ (μ t = μ s ∧ ¬good s σ ∧ ∀ τ, good s τ → good t τ)))))
    (s : State) (hP : P s) (hQ : ∀ σ ∈ s.sched ++ a :: l, Q σ) :
    ∃ n t, n ≤ s.sched.length + (μ s + 1) * (l.length + 1) ∧
      Sys2Proof.core.run n s = .next t ∧ Done t := by
  have laps : ∀ k s, P s → s.sched = [] → μ s ≤ k →
      ∃ n t, n ≤ (k + 1) * (l.length + 1) ∧ Sys2Proof.core.run n s = .next t ∧ Done t := by
    intro k
    induction k with
    | zero =>
      intro s hP hs hμ
      rcases run_list P Done Q μ good a l tail move (a :: l) s hP
        (fun σ hσ => hQ σ (List.mem_append_right _ hσ)) (.inr ⟨hs, rfl⟩) with
        ⟨n, t, hn, h⟩ | ⟨t, _, _, _, _, hlt⟩
      · exact ⟨n, t, by simpa using hn, h⟩
      · have := hlt (recurs s hP)
        omega
    | succ k ih =>
      intro s hP hs hμ
      rcases run_list P Done Q μ good a l tail move (a :: l) s hP
        (fun σ hσ => hQ σ (List.mem_append_right _ hσ)) (.inr ⟨hs, rfl⟩) with
        ⟨n, t, hn, h⟩ | ⟨t, hr, hPt, hst, _, hlt⟩
      · refine ⟨n, t, ?_, h⟩
        simp only [List.length_cons] at hn
        nlinarith
      · have := hlt (recurs s hP)
        obtain ⟨n, u, hn, hu, hd⟩ := ih t hPt hst (by omega)
        refine ⟨(a :: l).length + n, u, ?_, by rw [core_run_add _ _ hr, hu], hd⟩
        simp only [List.length_cons]
        nlinarith
  rcases run_list P Done Q μ good a l tail move s.sched s hP
    (fun σ hσ => hQ σ (List.mem_append_left _ hσ)) (.inl rfl) with
    ⟨n, t, hn, h⟩ | ⟨t, hr, hPt, hst, hle, _⟩
  · exact ⟨n, t, by omega, h⟩
  · obtain ⟨n, u, hn, hu, hd⟩ := laps (μ s) t hPt hst hle
    exact ⟨s.sched.length + n, u, by omega, by rw [core_run_add _ _ hr, hu], hd⟩

/-- A property that every step under a slot of a looping schedule keeps holds after any number of
steps. -/
theorem run_forever (P : State → Prop) (a : Slot) (l : List Slot) (Q : Slot → Prop)
    (tail : ∀ s, P s → s.schedTail = .loop a l)
    (move : ∀ s σ rest, P s → Q σ → drawSlot s = some (σ, { s with sched := rest }) →
      ∃ t, step s = .next t ∧ P t ∧ t.sched = rest)
    (s : State) (hP : P s) (hQ : ∀ σ ∈ s.sched ++ a :: l, Q σ) :
    ∀ n, ∃ t, Sys2Proof.core.run n s = .next t ∧ P t := by
  intro n
  induction n generalizing s with
  | zero => exact ⟨s, rfl, hP⟩
  | succ n ih =>
    have key : ∀ σ rest, (s.sched = σ :: rest ∨ (s.sched = [] ∧ σ :: rest = a :: l)) →
        ∃ t, Sys2Proof.core.run (n + 1) s = .next t ∧ P t := by
      intro σ rest hL
      have hmem : ∀ τ ∈ σ :: rest, Q τ := by
        intro τ hτ
        rcases hL with h | ⟨_, h⟩
        · exact hQ τ (List.mem_append_left _ (h ▸ hτ))
        · exact hQ τ (List.mem_append_right _ (h ▸ hτ))
      obtain ⟨t, ht, hPt, hst⟩ :=
        move s σ rest hP (hmem σ (by simp)) (drawSlot_next (tail s hP) hL)
      rw [core_run_succ _ ht]
      refine ih t hPt ?_
      intro τ hτ
      rcases List.mem_append.mp hτ with h | h
      · exact hmem τ (List.mem_cons_of_mem _ (hst ▸ h))
      · exact hQ τ (List.mem_append_right _ h)
    cases hs : s.sched with
    | nil => exact key a l (.inr ⟨hs, rfl⟩)
    | cons σ rest => exact key σ rest (.inl hs)

end Sys2Proof.Machine
end

