-- ==== Sys2Proof/Tests/Slice0.lean ====
section
/-! SUPPORT. Tests of the model and witnesses for the hypotheses of its statements. Expected values
come from the tables of spec/30_encoding.md and the vectors V1 to V8 and programs P1 to P6 of
spec/95_test_vectors.md; each test names its source. -/

namespace Sys2Proof.Tests

open Sys2Proof Sys2Proof.Machine

/-! ## Helpers -/

/-- The outcome is a next state with the property. -/
def after (o : Host.Outcome State Fault Refusal) (p : State → Bool) : Bool :=
  match o with
  | .next t => p t
  | .fault _ => false
  | .refused _ => false

/-- The state right after reset, both rings of 8 slots, queued transmission. -/
def queued : State := State.resetWith (Params.standard 8 8 true)

/-- The same with direct transmission. -/
def direct : State := State.resetWith (Params.standard 8 8 false)

/-- The same with the smallest rings, of one usable slot. -/
def small : State := State.resetWith (Params.standard 2 2 true)

/-- `s` with this RX ring. -/
def withRx (s : State) (m : Mem) (wp rp : Nat) : State := { s with rx := ⟨m, wp, rp, false⟩ }

/-- `s` with this TX ring. -/
def withTx (s : State) (m : Mem) (wp rp : Nat) : State := { s with tx := ⟨m, wp, rp, false⟩ }

/-- The record of V4.1: `LEN = 4`, `REC = 0A 4F 4B 0D`. -/
def okLine : State :=
  { queued with len := 4#8, record := [(0, 0x0A#8), (1, 0x4F#8), (2, 0x4B#8), (3, 0x0D#8)] }

/-- One byte pending, in the last slot of RX, and a running command in phase `p` with bound `m` and
`n` bytes collected. -/
def running (p : Phase) (b : Byte) (m n : BitVec 8) : State :=
  { withRx queued [(7, b)] 0 7 with phase := p, maxLen := m, len := n, cnt := 3#16 }

/-- A schedule of one slot. -/
def oneSlot (s : State) (m : Move) : State :=
  { s with sched := [{ move := m, cancel := false, txReady := false }] }

/-- `s` with nothing left in its schedule, which then repeats `a` and `l`. -/
def looping (s : State) (a : Slot) (l : List Slot) : State :=
  { s with sched := [], schedTail := .loop a l }

/-- A slot in which the TX port is strobed and both input levels are 0. -/
def txSlot : Slot := { move := .event (.tx 1#1), cancel := false, txReady := false }

/-! ## Well-formedness -/

/-- R53: the row `ILLEGAL.opC_F` has opcodes 0xC to 0xF; a term with another opcode is ill formed. -/
theorem test_wf_refuses_reserved_row_opcode :
    (Instr.illegalOpCF 0xB#4 0#28).wf = false ∧ (Instr.illegalOpCF 0x0#4 0#28).wf = false ∧
    (Instr.illegalOpCF 0xC#4 0#28).wf = true ∧ (Instr.illegalOpCF 0xF#4 0#28).wf = true := by
  decide

/-- R6: the bounds of `RX_CAP` refuse the value just outside and admit the one just inside. -/
theorem test_params_rx_cap :
    ¬(Params.standard 1 8 true).wf ∧ (Params.standard 2 8 true).wf ∧
    ¬(Params.standard 65537 8 true).wf ∧ (Params.standard 65536 8 true).wf := by
  decide

/-- R6: the bounds of `TX_CAP`. -/
theorem test_params_tx_cap :
    ¬(Params.standard 8 1 true).wf ∧ (Params.standard 8 2 true).wf ∧
    ¬(Params.standard 8 65537 true).wf ∧ (Params.standard 8 65536 true).wf := by
  decide

/-- R6: the bounds of `DEST_CAP`. -/
theorem test_params_dest_cap :
    ¬(Params.mk 8 8 0 1#8 2#8 3#8 true).wf ∧ (Params.mk 8 8 1 1#8 2#8 3#8 true).wf ∧
    ¬(Params.mk 8 8 256 1#8 2#8 3#8 true).wf ∧ (Params.mk 8 8 255 1#8 2#8 3#8 true).wf := by
  decide

/-- R7: `IW = ceil(log2 CAP)`, for a capacity that is a power of two and one that is not. -/
theorem test_index_width :
    indexWidth 2 = 1 ∧ indexWidth 8 = 3 ∧ indexWidth 9 = 4 ∧ indexWidth 65536 = 16 := by
  simp only [indexWidth]
  decide

/-! ## Decoding: one word per constructor, written field by field as R49 and R51 lay them out:
`op` 31:28, `z` 27:25, `r` 24, `imm8` 23:16, `imm16` 15:0 -/

theorem test_decode_nop :
    decodeCommand 0b0000_000_0_00000000_0000000000000000#32 = .ok .nop := rfl
theorem test_decode_pop :
    decodeCommand 0b0001_000_0_00000000_0000000000000000#32 = .ok .pop := rfl
theorem test_decode_avail :
    decodeCommand 0b0010_000_1_00000000_0000000000000000#32 = .ok (.avail .tx) := rfl
theorem test_decode_flush :
    decodeCommand 0b0011_000_0_00000000_0000000000000000#32 = .ok .flush := rfl
theorem test_decode_recv :
    decodeCommand 0b0100_000_0_00000000_0000001111101000#32 = .ok (.recv 1000#16) := rfl
theorem test_decode_frame :
    decodeCommand 0b0101_000_0_10000000_0000000000000000#32 = .ok (.frame 128#8) := rfl
theorem test_decode_line :
    decodeCommand 0b0110_000_0_10000000_0000000011111010#32 = .ok (.line 128#8 250#16) := rfl
theorem test_decode_rdrec :
    decodeCommand 0b0111_000_0_00001110_0000000000000000#32 = .ok (.rdrec 14#8) := rfl
theorem test_decode_send :
    decodeCommand 0b1000_000_0_01000001_0000000000000000#32 = .ok (.send 0x41#8) := rfl
theorem test_decode_clrovf :
    decodeCommand 0b1010_000_1_00000000_0000000000000000#32 = .ok (.clrovf .tx) := rfl
/-- R53: the 28 lower bits of a reserved opcode are ignored. -/
theorem test_decode_illegalOp9 :
    decodeCommand 0b1001_000_0_00000000_0000000000000001#32 = .ok (.illegalOp9 1#28) := rfl
theorem test_decode_illegalOpB :
    decodeCommand 0b1011_111_1_00000000_0000000000000000#32 = .ok (.illegalOpB 0xF000000#28) := rfl
theorem test_decode_illegalOpCF :
    decodeCommand 0b1100_000_0_00000000_0000000000000000#32 = .ok (.illegalOpCF 0xC#4 0#28) := rfl
/-- R57: the strobe stands above the eight data bits. -/
theorem test_decode_rxev : decode (.event (.rx 0b1_00001101#9)) = .ok (.rxev 0x0D#8) := rfl
theorem test_decode_txev : decode (.event (.tx 0b1#1)) = .ok .txev := rfl
theorem test_decode_tick : decode (.event (.tick 0b1#1)) = .ok .tick := rfl
theorem test_decode_reset : decode (.event (.reset 0b1#1)) = .ok .reset := rfl

/-- V7.2 to V7.11: a nonzero bit in a must-be-zero field of a listed opcode selects no row. -/
theorem test_decode_rejects_must_be_zero :
    decodeCommand 0x00000001#32 = .error .mustBeZero ∧
    decodeCommand 0x10000001#32 = .error .mustBeZero ∧
    decodeCommand 0x20010000#32 = .error .mustBeZero ∧
    decodeCommand 0x30000001#32 = .error .mustBeZero ∧
    decodeCommand 0x41000000#32 = .error .mustBeZero ∧
    decodeCommand 0x50000001#32 = .error .mustBeZero ∧
    decodeCommand 0x61000000#32 = .error .mustBeZero ∧
    decodeCommand 0x70000001#32 = .error .mustBeZero ∧
    decodeCommand 0x80000001#32 = .error .mustBeZero ∧
    decodeCommand 0xA2000000#32 = .error .mustBeZero :=
  ⟨rfl, rfl, rfl, rfl, rfl, rfl, rfl, rfl, rfl, rfl⟩

/-- The contrast below V7.12: legal words at the ends of their operands' ranges. -/
theorem test_decode_extreme_operands :
    decodeCommand 0x4000FFFF#32 = .ok (.recv 65535#16) ∧
    decodeCommand 0x60FFFFFF#32 = .ok (.line 255#8 65535#16) ∧
    decodeCommand 0x80FF0000#32 = .ok (.send 0xFF#8) ∧
    decodeCommand 0x70FF0000#32 = .ok (.rdrec 255#8) :=
  ⟨rfl, rfl, rfl, rfl⟩

/-- R57, log 14: an RX port without strobe is no event; a bare strobe bit names no port. -/
theorem test_decode_table_word :
    decodeTableWord 9 0x10D = some (.rxev 0x0D#8) ∧ decodeTableWord 16 0x10D = some (.rxev 0x0D#8) ∧
    decodeTableWord 9 0x00D = none ∧ decodeTableWord 8 1 = none ∧
    decodeTableWord 32 0x608000FA = some (.line 128#8 250#16) := by
  decide

/-- R58: the assembler's words. -/
theorem test_encode_assembler_words :
    encode (.avail .tx) = .command 0x21000000#32 ∧ encode (.recv 7#16) = .command 0x40000007#32 ∧
    encode (.frame 3#8) = .command 0x50030000#32 ∧
    encode (.line 128#8 3#16) = .command 0x60800003#32 ∧
    encode (.send 0x1A#8) = .command 0x801A0000#32 ∧ encode (.clrovf .rx) = .command 0xA0000000#32 := by
  decide

/-- R59: `SENDS` is one `SEND` per byte, in order, and nothing for the empty string; `RECV` without
operand takes the default timeout. -/
theorem test_pseudo_instructions :
    expandPseudo 5#16 (.sends [0x41#8, 0x54#8]) = [.send 0x41#8, .send 0x54#8] ∧
    expandPseudo 5#16 (.sends []) = [] ∧ expandPseudo 5#16 .recvDefault = [.recv 5#16] ∧
    expandPseudo 5#16 .status = [.nop] ∧ expandPseudo 5#16 .availrx = [.avail .rx] := by
  decide

/-! ## Instructions, one step each -/

/-- V2.7: `NOP` with `RX.ovf = 1` answers 0x08000000. -/
theorem test_nop_reports_flags :
    after (exec .nop { queued with rx := ⟨[], 0, 0, true⟩ })
      (fun t => t.rspout == [0x08000000#32]) = true := by
  decide

/-- V1.5: `POP` at `rp = 7` returns the byte there and wraps. -/
theorem test_pop_wraps :
    after (exec .pop (withRx queued [(0, 0xA7#8), (7, 0xA6#8)] 1 7))
      (fun t => t.rspout == [0x000000A6#32] && t.rx.rp == 0 && t.rx.wp == 1) = true := by
  decide

/-- V2.2: `POP` on an empty ring answers `EMPTY` and changes nothing else. -/
theorem test_pop_empty :
    after (exec .pop queued)
      (fun t => t == { queued with rspout := [0x10000000#32] }) = true := by
  decide

/-- V1.5 and R69's example: `wp = 1`, `rp = 6`, capacity 8 gives 3. -/
theorem test_avail_rx_wraps :
    after (exec (.avail .rx) (withRx queued [] 1 6)) (fun t => t.rspout == [0x00000003#32]) = true := by
  decide

/-- R69: `AVAIL TX` counts TX, not RX. -/
theorem test_avail_tx :
    after (exec (.avail .tx) (withRx (withTx queued [] 5 5) [] 1 6))
      (fun t => t.rspout == [0x00000000#32]) = true := by
  decide

/-- V1.11: `FLUSH` takes `rp` to `wp` and keeps the bytes' slots. -/
theorem test_flush :
    after (exec .flush (withRx queued [(2, 1#8), (3, 2#8), (4, 3#8)] 5 2))
      (fun t => t.rx.rp == 5 && t.rx.wp == 5 && t.rx.buf == [(2, 1#8), (3, 2#8), (4, 3#8)] &&
        t.rspout == [0x00000000#32]) = true := by
  decide

/-- V2.10: `FLUSH` does not clear the flag. -/
theorem test_flush_keeps_flag :
    after (exec .flush { queued with rx := ⟨[], 0, 0, true⟩ })
      (fun t => t.rx.ovf && t.rspout == [0x08000000#32]) = true := by
  decide

/-- V3.1, first step: `RECV #2` loads `CNT` and waits, with no response. -/
theorem test_recv_accepts :
    after (exec (.recv 2#16) queued)
      (fun t => t.cnt == 2#16 && t.phase == .recvWait && t.rspout == []) = true := by
  decide

/-- V5.10: `FRAME #128` is the largest legal one, `FRAME #129` answers `RANGE`. -/
theorem test_frame_bound :
    after (exec (.frame 128#8) okLine)
      (fun t => t.maxLen == 128#8 && t.len == 0#8 && t.phase == .frameHunt) = true ∧
    after (exec (.frame 129#8) okLine)
      (fun t => t == { okLine with rspout := [0x70000000#32] }) = true := by
  decide

/-- V4.12: `LINE #0, #5` answers `RANGE` and keeps the record; `CNT` is not loaded. -/
theorem test_line_range :
    after (exec (.line 0#8 5#16) okLine)
      (fun t => t == { okLine with rspout := [0x70000000#32] }) = true := by
  decide

/-- P2, step 1: `LINE #128, #250`. -/
theorem test_line_accepts :
    after (exec (.line 128#8 250#16) okLine)
      (fun t => t.maxLen == 128#8 && t.len == 0#8 && t.cnt == 250#16 && t.phase == .lineCollect) =
      true := by
  decide

/-- V6.2: the last byte of the record. -/
theorem test_rdrec_last :
    after (exec (.rdrec 3#8) okLine) (fun t => t.rspout == [0x0000000D#32]) = true := by
  decide

/-- V6.3: the first index past the record. -/
theorem test_rdrec_range :
    after (exec (.rdrec 4#8) okLine) (fun t => t.rspout == [0x70000000#32]) = true := by
  decide

/-- V3.10: queued, `wp = rp = 2`. -/
theorem test_send_queued :
    after (exec (.send 0x41#8) (withTx queued [] 2 2))
      (fun t => t.tx.buf == [(2, 0x41#8)] && t.tx.wp == 3 && t.rspout == [0x00000000#32] &&
        t.txout == []) = true := by
  decide

/-- V3.14 and V3.15: direct mode, transmitter ready and not ready. -/
theorem test_send_direct :
    after (exec (.send 0x41#8) { direct with txReady := true })
      (fun t => t.txout == [0x41#8] && t.tx == RingBuf.atReset && t.phase == .idle) = true ∧
    after (exec (.send 0x54#8) direct)
      (fun t => t.phase == .sendWait && t.sByte == 0x54#8 && t.rspout == []) = true := by
  decide

/-- V2.8: the flag bit is sampled after the clear. -/
theorem test_clrovf_rx :
    after (exec (.clrovf .rx) { queued with rx := ⟨[], 0, 0, true⟩ })
      (fun t => !t.rx.ovf && t.rspout == [0x00000000#32]) = true := by
  decide

/-- V2.9: `CLROVF TX` leaves `RX.ovf`. -/
theorem test_clrovf_tx :
    after (exec (.clrovf .tx) { queued with rx := ⟨[], 0, 0, true⟩ })
      (fun t => t.rx.ovf && t.rspout == [0x08000000#32]) = true := by
  decide

/-- V7.1 and V7.12: reserved opcodes answer `ILLEGAL`, 0x60000000. -/
theorem test_reserved_opcodes :
    after (exec (.illegalOp9 0#28) queued) (fun t => t.rspout == [0x60000000#32]) = true ∧
    after (exec (.illegalOpB 0#28) queued) (fun t => t.rspout == [0x60000000#32]) = true ∧
    after (exec (.illegalOpCF 0xF#4 0xFFFFFFF#28) queued) (fun t => t.rspout == [0x60000000#32]) =
      true := by
  decide

/-- V7.3: a word of a listed opcode that selects no row, issued, answers `ILLEGAL`. -/
theorem test_issue_illegal_word :
    after (step (withCommand queued 0x11000000#32)) (fun t => t.rspout == [0x60000000#32]) = true := by
  decide

/-- V1.7: a push at the last slot wraps `wp`. -/
theorem test_rxev_wraps :
    after (exec (.rxev 0x0D#8) (withRx queued [] 7 3))
      (fun t => t.rx.wp == 0 && t.rx.buf == [(7, 0x0D#8)] && !t.rx.ovf) = true := by
  decide

/-- V1.6: on a full ring of capacity 2 the byte is dropped and the flag set. -/
theorem test_rxev_full :
    after (exec (.rxev 0xBB#8) (withRx small [(0, 0xAA#8)] 1 0))
      (fun t => t.rx == ⟨[(0, 0xAA#8)], 1, 0, true⟩) = true := by
  decide

/-- V1.8: `TXEV` emits the oldest byte. -/
theorem test_txev :
    after (exec .txev (withTx queued [(0, 0x41#8), (1, 0x54#8)] 2 0))
      (fun t => t.txout == [0x41#8] && t.tx.rp == 1) = true := by
  decide

/-- V1.9: in direct mode `TXEV` changes nothing. -/
theorem test_txev_direct : after (exec .txev direct) (fun t => t == direct) = true := by
  decide

/-- V1.10: `CNT` goes from 2 to 1 and stays at 0, in any phase. -/
theorem test_tick :
    after (exec .tick { queued with cnt := 2#16, phase := .lineCollect })
      (fun t => t.cnt == 1#16 && t.phase == .lineCollect) = true ∧
    after (exec .tick queued) (fun t => t == queued) = true := by
  decide

/-- V8.1 and V8.2: `RESET` in the middle of a `RECV`, with bytes pending and the flag set. -/
theorem test_reset :
    after (exec .reset
      { queued with
        rx := ⟨[(0, 0x41#8), (1, 0x42#8)], 2, 0, true⟩
        len := 4#8
        cnt := 65534#16
        phase := .recvWait })
      (fun t => t.rx.wp == 0 && t.rx.rp == 0 && !t.rx.ovf && t.len == 0#8 && t.cnt == 0#16 &&
        t.phase == .idle && t.rspout == []) = true := by
  decide

/-! ## Engine steps -/

/-- V3.1: a byte completes `RECV`. V3.7: `cancel` is tested before the ring. -/
theorem test_engine_recv :
    after (engineStep (running .recvWait 0x4F#8 0#8 0#8))
      (fun t => t.rspout == [0x0000004F#32] && t.rx.rp == 0 && t.phase == .idle) = true ∧
    after (engineStep { running .recvWait 0x41#8 0#8 0#8 with cancel := true })
      (fun t => t.rspout == [0x22000000#32] && t.rx.rp == 7 && t.phase == .idle) = true := by
  decide

/-- V3.3: an empty ring with `CNT = 0` times out. V3.9: with `CNT = 3` the engine is held. -/
theorem test_engine_recv_timeout :
    after (engineStep { queued with phase := .recvWait })
      (fun t => t.rspout == [0x20000000#32] && t.phase == .idle) = true ∧
    after (engineStep { queued with phase := .recvWait, cnt := 3#16 })
      (fun t => t == { queued with phase := .recvWait, cnt := 3#16 }) = true := by
  decide

/-- V3.12: room in TX completes a waiting `SEND`. -/
theorem test_engine_send :
    after (engineStep { withTx queued [] 7 1 with phase := .sendWait, sByte := 0x1A#8 })
      (fun t => t.tx.buf == [(7, 0x1A#8)] && t.tx.wp == 0 && t.rspout == [0x00000000#32] &&
        t.phase == .idle) = true := by
  decide

/-- V5.1: `S` starts the collection. V5.4: another byte, `E` included, is discarded. -/
theorem test_engine_hunt :
    after (engineStep (running .frameHunt 0x53#8 128#8 0#8))
      (fun t => t.phase == .frameCollect && t.len == 0#8 && t.rx.rp == 0) = true ∧
    after (engineStep (running .frameHunt 0x45#8 128#8 0#8))
      (fun t => t.phase == .frameHunt && t.rx.rp == 0 && t.rspout == []) = true := by
  decide

/-- V5.6 and V5.7: with the record at its bound, `E` ends `OK` and another byte `TOO_LONG`. -/
theorem test_engine_collect_bound :
    after (engineStep (running .frameCollect 0x45#8 3#8 3#8))
      (fun t => t.rspout == [0x00030000#32] && t.phase == .idle) = true ∧
    after (engineStep (running .frameCollect 0x64#8 3#8 3#8))
      (fun t => t.rspout == [0x30030000#32] && t.record == [] && t.rx.rp == 0) = true := by
  decide

/-- V4.3: a leading `CR` is dropped. V4.2: a later one is stored and ends the line. -/
theorem test_engine_line :
    after (engineStep (running .lineCollect 0x0D#8 128#8 0#8))
      (fun t => t.len == 0#8 && t.record == [] && t.phase == .lineCollect && t.rx.rp == 0) = true ∧
    after (engineStep (running .lineCollect 0x0D#8 128#8 2#8))
      (fun t => t.len == 3#8 && t.record == [(2, 0x0D#8)] && t.rspout == [0x00030000#32] &&
        t.phase == .idle) = true := by
  decide

/-- V4.10: with `m = 1` the terminator of a one-byte line does not fit. -/
theorem test_engine_line_too_long :
    after (engineStep (running .lineCollect 0x0D#8 1#8 1#8))
      (fun t => t.rspout == [0x30010000#32] && t.phase == .idle) = true := by
  decide

/-! ## Placing an instruction -/

/-- The first instruction after reset is the one placed: a command word, and an RX event. -/
theorem test_with_fetch_word :
    after (step (State.reset.withFetchWord 32 0x40000003)) (fun t => t.cnt == 3#16) = true ∧
    after (step (State.reset.withFetchWord 9 0x141)) (fun t => t.rx.buf == [(0, 0x41#8)]) = true ∧
    State.reset.withFetchWord 8 1 = State.reset := by
  decide

/-- R131, log 4: with nothing placed, a step from reset changes nothing. -/
theorem test_reset_is_quiet : after (step State.reset) (fun t => t == State.reset) = true := by
  decide

/-- R131 (3), log 26: a looping schedule goes on; its first slot strobes RX, its rest comes next. -/
theorem test_loop_refills :
    after (step (looping queued (rxSlot 0x41#8) [engineSlot]))
      (fun t => t.rx.buf == [(0, 0x41#8)] && t.sched == [engineSlot]) = true := by
  decide

/-- R131 (4), log 3: the level of `tx_ready` follows the schedule past its end. -/
theorem test_loop_sets_the_levels :
    after (step { looping direct { engineSlot with txReady := true } [] with
        phase := .sendWait, sByte := 0x54#8 })
      (fun t => t.txout == [0x54#8] && t.phase == .idle) = true := by
  decide

/-! ## Witnesses: for every statement with hypotheses, states and operands that meet them, clause by
clause, at the ends of their ranges -/

theorem witness_DecodeOfEncodeIsTheInstruction :
    (Instr.illegalOpCF 0xC#4 0#28).wf = true ∧ (Instr.illegalOpCF 0xF#4 0xFFFFFFF#28).wf = true ∧
    (Instr.line 255#8 65535#16).wf = true := by
  decide

theorem witness_EncodeOfDecodeIsTheWord :
    decode (.command 0xCFFFFFFF#32) = .ok (.illegalOpCF 0xC#4 0xFFFFFFF#28) ∧
    decode (.event (.rx 0x100#9)) = .ok (.rxev 0#8) :=
  ⟨rfl, rfl⟩

/-- Two instructions of one row, and a word that selects it. -/
theorem witness_CommandWordsSelectTheirRows :
    rowBits (.avail .rx) = some ⟨0x20000000#32, 0xFEFFFFFF#32⟩ ∧
    rowBits (.avail .tx) = some ⟨0x20000000#32, 0xFEFFFFFF#32⟩ ∧
    selects 0x21000000#32 ⟨0x20000000#32, 0xFEFFFFFF#32⟩ = true := by
  decide

/-- A word selects none of the ten command rows when its ten comparisons fail. -/
theorem selects_none {w : Word}
    (h : ∀ i ∈ [Instr.nop, .pop, .avail .rx, .flush, .recv 0, .frame 0, .line 0 0, .rdrec 0,
      .send 0, .clrovf .rx], ∀ a ∈ rowBits i, selects w a = false)
    (i : Instr) (a : RowBits) (hi : isReservedRow i = false) (ha : rowBits i = some a) :
    selects w a = false := by
  cases i
  case illegalOp9 => cases hi
  case illegalOpB => cases hi
  case illegalOpCF => cases hi
  case rxev => cases ha
  case txev => cases ha
  case tick => cases ha
  case reset => cases ha
  case nop => exact h .nop (by simp) a ha
  case pop => exact h .pop (by simp) a ha
  case avail => exact h (.avail .rx) (by simp) a ha
  case flush => exact h .flush (by simp) a ha
  case recv => exact h (.recv 0) (by simp) a ha
  case frame => exact h (.frame 0) (by simp) a ha
  case line => exact h (.line 0 0) (by simp) a ha
  case rdrec => exact h (.rdrec 0) (by simp) a ha
  case send => exact h (.send 0) (by simp) a ha
  case clrovf => exact h (.clrovf .rx) (by simp) a ha

/-- V7.1, V7.3: a reserved opcode and a nonzero must-be-zero bit. -/
theorem witness_IllegalWordsAnswerIllegal :
    queued.phase = .idle ∧
    (∀ (i : Instr) (a : RowBits), isReservedRow i = false → rowBits i = some a →
      selects 0x90000000#32 a = false) ∧
    (∀ (i : Instr) (a : RowBits), isReservedRow i = false → rowBits i = some a →
      selects 0x11000000#32 a = false) ∧
    isReservedRow (.illegalOpCF 0xC#4 0#28) = true ∧ isReservedRow (.illegalOp9 0#28) = true ∧
    isReservedRow (.illegalOpB 0#28) = true :=
  ⟨rfl, selects_none (by decide), selects_none (by decide), rfl, rfl, rfl⟩

/-- A poller's move with a legal word, with an illegal word, and on a busy port. -/
theorem witness_StepIssuesTheDecodedCommand :
    (oneSlot queued .poller).sched = [{ move := .poller, cancel := false, txReady := false }] ∧
    ({ oneSlot queued .poller with poller := [0x10000000#32] } : State).poller = [0x10000000#32] ∧
    (oneSlot queued .poller).phase = .idle ∧ decodeCommand 0x10000000#32 = .ok .pop ∧
    decodeCommand 0x10000001#32 = .error .mustBeZero ∧
    (oneSlot (running .sendWait 0#8 1#8 0#8) .poller).phase ≠ .idle :=
  ⟨rfl, rfl, rfl, rfl, rfl, by decide⟩

theorem witness_StepRunsTheStrobedEvent :
    (oneSlot queued (.event (.rx 0x1FF#9))).sched =
      [{ move := .event (.rx 0x1FF#9), cancel := false, txReady := false }] ∧
    decodeEvent (.rx 0x1FF#9) = .ok (.rxev 0xFF#8) ∧
    decodeEvent (.rx 0x0FF#9) = .error .noStrobe :=
  ⟨rfl, rfl, rfl⟩

/-- A schedule used up, of either kind; a poller's move in `IDLE` with no word left, of each kind. -/
theorem witness_StepRefillsTheSchedule :
    (looping queued engineSlot []).sched = [] ∧
    (looping queued engineSlot []).schedTail = .loop engineSlot [] ∧
    ({ queued with schedTail := .free } : State).schedTail = .free ∧
    (oneSlot queued .poller).sched = [{ move := .poller, cancel := false, txReady := false }] ∧
    (oneSlot queued .poller).phase = .idle ∧ (oneSlot queued .poller).poller = [] ∧
    ({ oneSlot queued .poller with pollerTail := .loop 0#32 [] } : State).pollerTail =
      .loop 0#32 [] ∧
    ({ oneSlot queued .poller with pollerTail := .free } : State).pollerTail = .free ∧
    (oneSlot queued .poller).pollerTail = .stop := by
  decide

/-- The four cases: a scheduled engine move; nothing scheduled with the engine enabled, held with
`CNT` above 0, held with `CNT = 0`. -/
theorem witness_StepRunsTheEngine :
    (oneSlot queued .engine).sched = [{ move := .engine, cancel := false, txReady := false }] ∧
    (running .frameHunt 0#8 1#8 0#8).sched = [] ∧
    (running .frameHunt 0#8 1#8 0#8).schedTail = .stop ∧
    engineEnabled (running .frameHunt 0#8 1#8 0#8) = true ∧
    engineEnabled { queued with phase := .recvWait, cnt := 1#16 } = false ∧
    engineEnabled queued = false ∧ queued.cnt = 0#16 := by
  decide

theorem witness_HeldStepsChangeNothing :
    isCommand (.send 0#8) = true ∧ isCommand (.illegalOp9 0#28) = true ∧
    ({ queued with phase := .recvWait, cnt := 1#16 } : State).phase ≠ .idle ∧
    engineEnabled { queued with phase := .recvWait, cnt := 1#16 } = false ∧
    engineEnabled { withTx small [(0, 1#8)] 1 0 with phase := .sendWait } = false ∧
    queued.cnt = 0#16 := by
  decide

/-- `IDLE` is the whole hypothesis of the statements on `NOP`, `FLUSH`, `CLROVF` and `RECV`. -/
theorem witness_idle : queued.phase = .idle ∧ direct.phase = .idle := by
  decide

/-- An empty ring, and one whose only byte is in the last slot. -/
theorem witness_PopReturnsTheOldestByteOrEmpty :
    queued.phase = .idle ∧ queued.rx.rp = queued.rx.wp ∧
    (withRx queued [(7, 0xA6#8)] 0 7).phase = .idle ∧
    (withRx queued [(7, 0xA6#8)] 0 7).rx.rp ≠ (withRx queued [(7, 0xA6#8)] 0 7).rx.wp ∧
    (withRx queued [(7, 0xA6#8)] 0 7).rx.rp < (withRx queued [(7, 0xA6#8)] 0 7).par.rxCap ∧
    Mem.get (withRx queued [(7, 0xA6#8)] 0 7).rx.buf 7 = some 0xA6#8 := by
  decide

/-- The greatest capacity, full without wrap and wrapped. -/
theorem witness_AvailCountsThePendingBytes :
    (withRx (State.resetWith (Params.standard 65536 65536 true)) [] 65535 0).phase = .idle ∧
    65535 < (Params.standard 65536 65536 true).rxCap ∧
    65535 < (Params.standard 65536 65536 true).txCap ∧
    (Params.standard 65536 65536 true).rxCap ≤ 65536 ∧
    (Params.standard 65536 65536 true).txCap ≤ 65536 := by
  decide

/-- `i = LEN - 1`, `i = LEN`, and `i = 0` with no record. -/
theorem witness_RdrecReadsTheRecordBelowLen :
    okLine.phase = .idle ∧ (3#8).toNat < okLine.len.toNat ∧ (3#8).toNat < okLine.par.destCap ∧
    Mem.get okLine.record (3#8).toNat = some 0x0D#8 ∧ okLine.len.toNat ≤ (4#8).toNat ∧
    queued.len.toNat ≤ (0#8).toNat := by
  decide

/-- Room at the last slot, a full ring of capacity 2, and both levels of `tx_ready`. -/
theorem witness_SendHandsTheByteOverOrWaits :
    (withTx queued [] 7 1).phase = .idle ∧ queued.par.txQueued = true ∧
    (7 + 1) % queued.par.txCap ≠ (withTx queued [] 7 1).tx.rp ∧ 7 < queued.par.txCap ∧
    (1 + 1) % small.par.txCap = (withTx small [(0, 1#8)] 1 0).tx.rp ∧
    small.par.txQueued = true ∧ direct.phase = .idle ∧ direct.par.txQueued = false ∧
    direct.txReady = false ∧ ({ direct with txReady := true } : State).txReady = true := by
  decide

/-- `m = 1` and `m = DEST_CAP`; `m = 0` and `m = DEST_CAP + 1`. -/
theorem witness_FrameStartsTheHuntOrAnswersRange :
    queued.phase = .idle ∧ 1#8 ≠ 0#8 ∧ (1#8).toNat ≤ queued.par.destCap ∧ 128#8 ≠ 0#8 ∧
    (128#8).toNat ≤ queued.par.destCap ∧ queued.par.destCap < (129#8).toNat := by
  decide

/-- The same for `LINE`, the record of a `LINE` before it. -/
theorem witness_LineStartsTheScanOrAnswersRange :
    okLine.phase = .idle ∧ 1#8 ≠ 0#8 ∧ (1#8).toNat ≤ okLine.par.destCap ∧ 128#8 ≠ 0#8 ∧
    (128#8).toNat ≤ okLine.par.destCap ∧ okLine.par.destCap < (129#8).toNat := by
  decide

/-- A full ring of capacity 2, and a push at the last slot. -/
theorem witness_RxevPushesOrDropsTheByte :
    ((withRx small [(0, 1#8)] 1 0).rx.wp + 1) % small.par.rxCap =
      (withRx small [(0, 1#8)] 1 0).rx.rp ∧
    ((withRx queued [] 7 1).rx.wp + 1) % queued.par.rxCap ≠ (withRx queued [] 7 1).rx.rp ∧
    (withRx queued [] 7 1).rx.wp < queued.par.rxCap := by
  decide

theorem witness_TxevEmitsTheOldestQueuedByte :
    queued.par.txQueued = true ∧ (withTx queued [(7, 1#8)] 0 7).tx.rp ≠ 0 ∧
    (withTx queued [(7, 1#8)] 0 7).tx.wp = 0 ∧
    (withTx queued [(7, 1#8)] 0 7).tx.rp < queued.par.txCap ∧
    Mem.get (withTx queued [(7, 1#8)] 0 7).tx.buf 7 = some 1#8 ∧
    queued.tx.rp = queued.tx.wp ∧ direct.par.txQueued = false := by
  decide

theorem witness_TickCountsDownToZero :
    ({ queued with cnt := 1#16 } : State).cnt ≠ 0#16 ∧
    ({ queued with cnt := 65535#16 } : State).cnt ≠ 0#16 := by
  decide

/-- A byte in the last slot; `cancel`; an empty ring with `CNT` 0. -/
theorem witness_RecvWaitStepTakesByteOrTimesOut :
    (running .recvWait 1#8 0#8 0#8).phase = .recvWait ∧
    (running .recvWait 1#8 0#8 0#8).cancel = false ∧ (running .recvWait 1#8 0#8 0#8).rx.rp ≠ 0 ∧
    (running .recvWait 1#8 0#8 0#8).rx.wp = 0 ∧
    (running .recvWait 1#8 0#8 0#8).rx.rp < queued.par.rxCap ∧
    Mem.get (running .recvWait 1#8 0#8 0#8).rx.buf 7 = some 1#8 ∧
    ({ running .recvWait 1#8 0#8 0#8 with cancel := true } : State).cancel = true ∧
    queued.rx.rp = queued.rx.wp ∧ queued.cnt = 0#16 := by
  decide

theorem witness_SendWaitStepHandsTheByteOver :
    (running .sendWait 0#8 0#8 0#8).phase = .sendWait ∧
    (running .sendWait 0#8 0#8 0#8).cancel = false ∧ queued.par.txQueued = true ∧
    ((withTx queued [] 7 1).tx.wp + 1) % queued.par.txCap ≠ (withTx queued [] 7 1).tx.rp ∧
    (withTx queued [] 7 1).tx.wp < queued.par.txCap ∧
    direct.par.txQueued = false ∧ ({ direct with txReady := true } : State).txReady = true ∧
    ({ direct with cancel := true } : State).cancel = true := by
  decide

/-- The start sentinel in the last slot, another byte, and an empty ring. -/
theorem witness_FrameHuntStepDiscardsUntilTheStart :
    (running .frameHunt 0x53#8 1#8 0#8).phase = .frameHunt ∧
    (running .frameHunt 0x53#8 1#8 0#8).cancel = false ∧
    (running .frameHunt 0x53#8 1#8 0#8).rx.rp < queued.par.rxCap ∧
    Mem.get (running .frameHunt 0x53#8 1#8 0#8).rx.buf 7 = some queued.par.sof ∧
    Mem.get (running .frameHunt 0x45#8 1#8 0#8).rx.buf 7 ≠ some queued.par.sof ∧
    ({ queued with phase := .frameHunt } : State).rx.rp = queued.rx.wp := by
  decide

/-- The end sentinel; a byte at the bound `m = 1`; a byte at the last cell of `REC`. -/
theorem witness_FrameCollectStepCollectsUntilTheEnd :
    (running .frameCollect 0x45#8 1#8 1#8).phase = .frameCollect ∧
    Mem.get (running .frameCollect 0x45#8 1#8 1#8).rx.buf 7 = some queued.par.eof ∧
    0x64#8 ≠ queued.par.eof ∧
    (running .frameCollect 0x64#8 1#8 1#8).len = (running .frameCollect 0x64#8 1#8 1#8).maxLen ∧
    (running .frameCollect 0x64#8 128#8 127#8).len ≠ 128#8 ∧
    (running .frameCollect 0x64#8 128#8 127#8).len.toNat < queued.par.destCap := by
  decide

/-- A leading `CR`; the bound `m = 1` reached; a byte and a terminator at the last cell of `REC`. -/
theorem witness_LineCollectStepCollectsUntilCr :
    (running .lineCollect 0x0D#8 1#8 0#8).phase = .lineCollect ∧
    Mem.get (running .lineCollect 0x0D#8 1#8 0#8).rx.buf 7 = some queued.par.cr ∧
    (running .lineCollect 0x0D#8 1#8 0#8).len = 0#8 ∧ 0x41#8 ≠ queued.par.cr ∧
    (running .lineCollect 0x0D#8 1#8 1#8).len = (running .lineCollect 0x0D#8 1#8 1#8).maxLen ∧
    (running .lineCollect 0x0D#8 1#8 1#8).len ≠ 0#8 ∧
    (running .lineCollect 0x0D#8 128#8 127#8).len ≠ 128#8 ∧
    (running .lineCollect 0x0D#8 128#8 127#8).len.toNat < queued.par.destCap := by
  decide

/-- The timed-out scan. -/
theorem witness_LineCollectStepCollectsUntilCr_empty :
    ({ queued with phase := .lineCollect } : State).rx.rp = queued.rx.wp ∧
    ({ queued with phase := .lineCollect } : State).cnt = 0#16 ∧
    ({ queued with phase := .lineCollect } : State).cancel = false := by
  decide

/-- A cancelled hunt and a cancelled collection; a command that answers a next state. -/
theorem witness_CancelEndsEveryWaitAndNothingElse :
    ({ running .frameHunt 1#8 8#8 0#8 with cancel := true } : State).phase ≠ .idle ∧
    ({ running .frameHunt 1#8 8#8 0#8 with cancel := true } : State).len = 0#8 ∧
    ({ running .frameCollect 1#8 8#8 8#8 with cancel := true } : State).phase ≠ .frameHunt ∧
    ({ running .frameCollect 1#8 8#8 8#8 with cancel := true } : State).cancel = true ∧
    queued.phase = .idle ∧ ∃ t, exec (.recv 1#16) queued = .next t :=
  ⟨by decide, by decide, by decide, rfl, rfl, _, rfl⟩

/-- The least and the greatest parameters; the environment is any. -/
theorem witness_InvariantHoldsAfterReset :
    (Params.standard 2 2 true).wf ∧ (Params.mk 65536 65536 255 0#8 0#8 0#8 false).wf := by
  decide

/-- Running commands that meet the invariant: the bound reached, and the last cell still free. -/
theorem witness_EveryStepKeepsTheInvariant :
    ({ running .frameCollect 0x64#8 4#8 4#8 with record := okLine.record } : State).inv ∧
    (∃ t, step { running .frameCollect 0x64#8 4#8 4#8 with record := okLine.record } = .next t) ∧
    ({ running .lineCollect 0x64#8 5#8 4#8 with record := okLine.record } : State).inv ∧
    (∃ t, step { running .lineCollect 0x64#8 5#8 4#8 with record := okLine.record } = .next t) :=
  ⟨by decide, ⟨_, rfl⟩, by decide, ⟨_, rfl⟩⟩

theorem witness_NoFaultUnderTheInvariant : okLine.inv ∧ (running .frameHunt 1#8 128#8 0#8).inv :=
  ⟨by decide, by decide⟩

theorem witness_EveryRunUnderTheInvariantIsSafe : (withRx small [(0, 0xAA#8)] 1 0).inv := by
  decide

theorem witness_NoStepChangesTheParameters : ∃ t, step (withEvent queued (.reset 1#1)) = .next t :=
  ⟨_, rfl⟩

/-- A step that responds, and a step that emits. -/
theorem witness_StreamsOnlyGrow :
    (∃ t, step (withCommand queued 0#32) = .next t ∧ t.rspout ≠ []) ∧
    (∃ t, step (withEvent (withTx queued [(0, 1#8)] 1 0) (.tx 1#1)) = .next t ∧ t.txout ≠ []) :=
  ⟨⟨_, rfl, by decide⟩, ⟨_, rfl, by decide⟩⟩

/-- A step that moves each of the four indices. -/
theorem witness_OnlyTheOwnerMovesAnIndex :
    (∃ t, step (withEvent queued (.rx 0x1AA#9)) = .next t ∧ t.rx.wp ≠ queued.rx.wp) ∧
    (∃ t, step (withCommand (withRx queued [(7, 1#8)] 0 7) 0x10000000#32) = .next t ∧ t.rx.rp ≠ 7) ∧
    (∃ t, step (withCommand queued 0x80410000#32) = .next t ∧ t.tx.wp ≠ queued.tx.wp) ∧
    (∃ t, step (withEvent (withTx queued [(7, 1#8)] 0 7) (.tx 1#1)) = .next t ∧ t.tx.rp ≠ 7) :=
  ⟨⟨_, rfl, by decide⟩, ⟨_, rfl, by decide⟩, ⟨_, rfl, by decide⟩, ⟨_, rfl, by decide⟩⟩

/-- A step that sets `RX.ovf`, and steps that clear each flag. -/
theorem witness_OverflowFlagsAreSticky :
    (∃ t, step (withEvent (withRx small [(0, 1#8)] 1 0) (.rx 0x1BB#9)) = .next t ∧
      t.rx.ovf = true) ∧
    (∃ t, step (withCommand { queued with rx := ⟨[], 0, 0, true⟩ } 0xA0000000#32) = .next t ∧
      t.rx.ovf = false) ∧
    (∃ t, step (withCommand { queued with tx := ⟨[], 0, 0, true⟩ } 0xA1000000#32) = .next t ∧
      t.tx.ovf = false) :=
  ⟨⟨_, rfl, rfl⟩, ⟨_, rfl, rfl⟩, ⟨_, rfl, rfl⟩⟩

/-- A command that responds at once, one that waits, an illegal word, an engine step that ends a
command, one that does not, the engine in `IDLE`, and an event. -/
theorem witness_OneResponsePerAcceptedCommand :
    (∃ t, exec .nop queued = .next t) ∧ (∃ t, exec (.recv 0#16) queued = .next t) ∧
    (∃ t, acceptIllegal queued = .next t) ∧
    (∃ t, engineStep (running .frameCollect 0x45#8 1#8 0#8) = .next t) ∧
    (∃ t, engineStep (running .frameCollect 0x44#8 1#8 0#8) = .next t) ∧
    (∃ t, engineStep queued = .next t) ∧ (∃ t, exec .reset queued = .next t) ∧
    isCommand .nop = true ∧ isCommand .reset = false :=
  ⟨⟨_, rfl⟩, ⟨_, rfl⟩, ⟨_, rfl⟩, ⟨_, rfl⟩, ⟨_, rfl⟩, ⟨_, rfl⟩, ⟨_, rfl⟩, rfl, rfl⟩

theorem witness_PhaseTransitionsAreTheTables :
    (∃ t, engineStep (running .frameHunt 0x53#8 1#8 0#8) = .next t ∧ t.phase = .frameCollect) ∧
    (∃ t, exec (.line 1#8 0#16) queued = .next t ∧ t.phase = .lineCollect) :=
  ⟨⟨_, rfl, rfl⟩, ⟨_, rfl, rfl⟩⟩

/-- Rings in order, of capacity 2 and wrapped; a push with room and on a full ring; a pop of a byte
and of an empty ring. -/
theorem witness_RingIsAFifoQueue :
    (withRx small [(0, 1#8)] 1 0).rx.ok 2 ∧ (withRx small [(1, 1#8)] 0 1).rx.ok 2 ∧
    (RingBuf.mk [(1, 1#8)] 0 1 false).full 2 = true ∧
    (RingBuf.mk [] 1 1 false).push .rxBuf 2 7#8 = .ok ⟨[(1, 7#8)], 0, 1, false⟩ ∧
    (RingBuf.mk [(1, 7#8)] 0 1 false).pop .rxBuf 2 = .ok (some 7#8, ⟨[(1, 7#8)], 0, 0, false⟩) ∧
    (RingBuf.mk [] 1 1 false).pop .rxBuf 2 = .ok (none, ⟨[], 1, 1, false⟩) :=
  ⟨by decide, by decide, by decide, rfl, rfl, rfl⟩

theorem witness_AvailIsTheNumberOfPendingBytes :
    (RingBuf.mk [(1, 1#8)] 0 1 false).ok 2 ∧ (RingBuf.mk [] 1 1 false).ok 2 := by
  decide

theorem witness_RxevAndTxevCommute :
    ∃ t u, exec (.rxev 1#8) (withTx small [(0, 2#8)] 1 0) = .next t ∧ exec .txev t = .next u :=
  ⟨_, _, rfl, rfl⟩

/-- As many ticks as the countdown holds, and one fewer. -/
theorem witness_RecvTimesOutAfterItsTicks :
    ({ queued with phase := .recvWait, cnt := 2#16 } : State).phase = .recvWait ∧
    queued.rx.rp = queued.rx.wp ∧
    ({ queued with sched := [tickSlot, tickSlot, engineSlot] } : State).sched =
      List.replicate 2 tickSlot ++ [engineSlot] ∧
    ({ queued with cnt := 2#16 } : State).cnt.toNat ≤ 2 ∧
    1 < ({ queued with cnt := 2#16 } : State).cnt.toNat := by
  decide

/-- A running command of each kind, nothing scheduled. -/
theorem witness_QuietBlockAnswersEveryReceive :
    ({ queued with phase := .recvWait, cnt := 65535#16 } : State).inv ∧
    (running .frameHunt 1#8 1#8 0#8).inv ∧
    (running .frameCollect 1#8 1#8 0#8).inv ∧
    ({ running .lineCollect 1#8 5#8 4#8 with record := okLine.record } : State).inv ∧
    (running .frameHunt 1#8 1#8 0#8).sched = [] ∧
    (running .frameHunt 1#8 1#8 0#8).schedTail = .stop :=
  ⟨by decide, by decide, by decide, by decide, rfl, rfl⟩

/-- A hunt with a byte pending, and a producer of another byte than the start sentinel. -/
theorem witness_EndlessProducerKeepsFrameRunning :
    (looping (running .frameHunt 1#8 1#8 0#8) (rxSlot 0x45#8) [engineSlot, tickSlot]).inv ∧
    (looping (running .frameHunt 1#8 1#8 0#8) (rxSlot 0x45#8) [engineSlot, tickSlot]).phase =
      .frameHunt ∧
    (looping (running .frameHunt 1#8 1#8 0#8) (rxSlot 0x45#8) [engineSlot, tickSlot]).schedTail =
      .loop (rxSlot 0x45#8) [engineSlot, tickSlot] ∧
    0x45#8 ≠ queued.par.sof ∧ queued.par.sof ∉ (running .frameHunt 1#8 1#8 0#8).rx.pend 8 := by
  decide

theorem engineSlot_strobes_nothing (i : Instr) : ¬engineSlot.strobes i :=
  fun ⟨_, h, _⟩ => by cases h

theorem tickSlot_strobes : tickSlot.strobes .tick ∧ ¬tickSlot.strobes .reset :=
  ⟨⟨_, rfl, rfl⟩, fun ⟨_, h, hi⟩ => by cases h; cases hi⟩

theorem txSlot_strobes : txSlot.strobes .txev ∧ ¬txSlot.strobes .reset :=
  ⟨⟨_, rfl, rfl⟩, fun ⟨_, h, hi⟩ => by cases h; cases hi⟩

/-- A full TX, and direct mode, under an engine that recurs with both levels 0. -/
theorem witness_WaitingSendWaitsForTheEnvironment :
    ({ looping (withTx small [(0, 1#8)] 1 0) engineSlot [] with phase := .sendWait } : State).inv ∧
    small.par.txQueued = true ∧ (withTx small [(0, 1#8)] 1 0).tx.full small.par.txCap = true ∧
    ({ looping direct engineSlot [] with phase := .sendWait } : State).inv ∧
    direct.par.txQueued = false ∧
    (∀ slot ∈ [engineSlot], slot.cancel = false ∧ slot.txReady = false ∧
      ¬slot.strobes .reset ∧ ¬slot.strobes .txev) := by
  refine ⟨by decide, rfl, rfl, by decide, rfl, fun slot h => ?_⟩
  obtain rfl := List.mem_singleton.mp h
  exact ⟨rfl, rfl, engineSlot_strobes_nothing _, engineSlot_strobes_nothing _⟩

/-- A loop of engine, tick and `TXEV` without a reset. -/
theorem fairLoop_slots :
    (∀ slot ∈ [engineSlot, tickSlot, txSlot], ¬slot.strobes .reset) ∧
    (∃ slot ∈ [engineSlot, tickSlot, txSlot], slot.move = .engine) ∧
    (∃ slot ∈ [engineSlot, tickSlot, txSlot], slot.strobes .tick) ∧
    (∃ slot ∈ [engineSlot, tickSlot, txSlot], slot.strobes .txev) := by
  refine ⟨fun slot h => ?_, ⟨_, List.mem_cons_self, rfl⟩, ⟨tickSlot, by simp, tickSlot_strobes.1⟩,
    ⟨txSlot, by simp, txSlot_strobes.1⟩⟩
  simp only [List.mem_cons, List.not_mem_nil, or_false] at h
  rcases h with rfl | rfl | rfl
  exacts [engineSlot_strobes_nothing _, tickSlot_strobes.2, txSlot_strobes.2]

/-- A waiting command of each kind under the loop above; for `LINE` a record of one byte, and none
with no `CR` pending; `tx_ready` 1 in the engine's slot for direct mode. -/
theorem witness_FairLoopAnswersWaitingCommands :
    ({ looping queued engineSlot [tickSlot, txSlot] with
      phase := .recvWait, cnt := 65535#16 } : State).inv ∧
    (looping { running .lineCollect 0x0D#8 2#8 1#8 with record := [(0, 1#8)] }
      engineSlot [tickSlot, txSlot]).inv ∧
    (looping (running .lineCollect 1#8 2#8 0#8) engineSlot [tickSlot, txSlot]).inv ∧
    queued.par.cr ∉ (running .lineCollect 1#8 2#8 0#8).rx.pend 8 ∧
    (looping (running .frameCollect 1#8 1#8 0#8) engineSlot [tickSlot, txSlot]).inv ∧
    ({ looping (withTx small [(0, 1#8)] 1 0) engineSlot [tickSlot, txSlot] with
      phase := .sendWait } : State).inv ∧ small.par.txQueued = true ∧
    ({ looping direct { engineSlot with txReady := true } [] with
      phase := .sendWait } : State).inv ∧ direct.par.txQueued = false ∧
    ¬({ engineSlot with txReady := true } : Slot).strobes .reset :=
  ⟨by decide, by decide, by decide, by decide, by decide, by decide, rfl, by decide, rfl,
    fun ⟨_, h, _⟩ => by cases h⟩

/-- In the loop above no slot supplies a leading `CR`. -/
theorem witness_FairLoopAnswersWaitingCommands_noCr :
    ∀ slot ∈ [engineSlot, tickSlot, txSlot], ¬slot.strobes (.rxev queued.par.cr) := by
  intro slot h
  simp only [List.mem_cons, List.not_mem_nil, or_false] at h
  rcases h with rfl | rfl | rfl <;> rintro ⟨_, h, hi⟩ <;> cases h <;> cases hi

/-- V5.6: the payload has exactly `m` bytes; one byte before it and one after it. -/
theorem witness_FrameReturnsTheEnqueuedPayload :
    (withRx queued [(0, 0x45#8), (1, 0x79#8), (5, 0x78#8), (6, 0x53#8), (7, 0x61#8)] 2 5).inv ∧
    (withRx queued [(0, 0x45#8), (1, 0x79#8), (5, 0x78#8), (6, 0x53#8), (7, 0x61#8)] 2 5).rx.pend 8 =
      [0x78#8] ++ queued.par.sof :: [0x61#8] ++ queued.par.eof :: [0x79#8] ∧
    queued.par.sof ∉ [0x78#8] ∧ queued.par.eof ∉ [0x61#8] ∧ 1#8 ≠ 0#8 ∧
    (1#8).toNat ≤ queued.par.destCap ∧ [0x61#8].length ≤ (1#8).toNat := by
  decide

/-- V4.8: payload and terminator have exactly `m` bytes. -/
theorem witness_LineReturnsTheEnqueuedPayload :
    (withRx queued [(0, 0x0D#8), (1, 0x58#8), (7, 0x41#8)] 2 7).inv ∧
    (withRx queued [(0, 0x0D#8), (1, 0x58#8), (7, 0x41#8)] 2 7).rx.pend 8 =
      [0x41#8] ++ queued.par.cr :: [0x58#8] ∧
    queued.par.cr ∉ [0x41#8] ∧ [0x41#8] ≠ [] ∧ (2#8).toNat ≤ queued.par.destCap ∧
    [0x41#8].length + 1 ≤ (2#8).toNat := by
  decide

/-- A text that fills TX to its last usable slot, and direct mode with the transmitter ready. -/
theorem witness_SendsQueuesTheTextInOrder :
    (withTx small [] 1 1).inv ∧ (withTx small [] 1 1).phase = .idle ∧ small.par.txQueued = true ∧
    (withTx small [] 1 1).tx.avail small.par.txCap + [0x41#8].length ≤ small.par.txCap - 1 ∧
    ({ direct with txReady := true } : State).inv ∧ direct.par.txQueued = false :=
  ⟨by decide, rfl, rfl, by decide, by decide, rfl⟩

theorem witness_ReportingCommandsChangeNothing :
    (∃ t, exec .nop queued = .next t) ∧ (∃ t, exec (.avail .tx) queued = .next t) ∧
    (∃ t, exec (.rdrec 0#8) queued = .next t) ∧ (∃ t, exec (.illegalOpB 0#28) queued = .next t) :=
  ⟨⟨_, rfl⟩, ⟨_, rfl⟩, ⟨_, rfl⟩, ⟨_, rfl⟩⟩

theorem witness_RingCommandsFrame :
    (∃ t, exec .pop (withRx queued [(7, 1#8)] 0 7) = .next t) ∧ (∃ t, exec .flush queued = .next t) ∧
    (∃ t, exec (.clrovf .rx) queued = .next t) ∧ (∃ t, exec (.clrovf .tx) queued = .next t) :=
  ⟨⟨_, rfl⟩, ⟨_, rfl⟩, ⟨_, rfl⟩, ⟨_, rfl⟩⟩

theorem witness_ReceiveAcceptanceFrame :
    (∃ t, exec (.recv 65535#16) queued = .next t) ∧ (∃ t, exec (.frame 1#8) queued = .next t) ∧
    (∃ t, exec (.line 128#8 0#16) queued = .next t) :=
  ⟨⟨_, rfl⟩, ⟨_, rfl⟩, ⟨_, rfl⟩⟩

theorem witness_SendFrame :
    (∃ t, exec (.send 1#8) (withTx queued [] 7 1) = .next t) ∧ (∃ t, exec (.send 1#8) direct = .next t) ∧
    queued.par.txQueued = true ∧ direct.par.txQueued = false :=
  ⟨⟨_, rfl⟩, ⟨_, rfl⟩, rfl, rfl⟩

theorem witness_EventsFrame :
    (∃ t, exec (.rxev 1#8) (withRx queued [] 7 1) = .next t) ∧
    (∃ t, exec .txev (withTx queued [(7, 1#8)] 0 7) = .next t) ∧ (∃ t, exec .tick queued = .next t) :=
  ⟨⟨_, rfl⟩, ⟨_, rfl⟩, ⟨_, rfl⟩⟩

theorem witness_ResetFrame : ∃ t, exec .reset okLine = .next t :=
  ⟨_, rfl⟩

theorem witness_EngineFrame :
    (∃ t, engineStep (running .lineCollect 0x0D#8 2#8 1#8) = .next t) ∧
    (∃ t, engineStep { withTx queued [] 7 1 with phase := .sendWait } = .next t) :=
  ⟨⟨_, rfl⟩, ⟨_, rfl⟩⟩

end Sys2Proof.Tests
end

section
/-! The tick of the countdown (R23) and the state after reset (R31). -/

namespace Sys2Proof.Machine

/-- R23 where the guard holds. -/
theorem exec_tick_of_cnt_ne_zero {s : State} (h : s.cnt ≠ 0#16) :
    exec .tick s = .next { s with cnt := s.cnt - 1#16 } := by
  simp [exec, execTick, h]

/-- Settles O23: the decrement does not wrap above 0, so it is the natural-number one. -/
theorem tickCountsDownToZero : Obligations.TickCountsDownToZero := by
  intro s h
  have hpred : (s.cnt - 1#16).toNat + 1 = s.cnt.toNat := by bv_omega
  exact ⟨s.cnt - 1#16, hpred, exec_tick_of_cnt_ne_zero h⟩

@[simp] theorem ringAtReset_wp : RingBuf.atReset.wp = 0 := rfl
@[simp] theorem ringAtReset_rp : RingBuf.atReset.rp = 0 := rfl
@[simp] theorem ringAtReset_ovf : RingBuf.atReset.ovf = false := rfl

/-- Settles O25, field by field: `State.resetWith` writes the table's values whatever the
parameters. -/
theorem resetStateIsTheSpecs : Obligations.ResetStateIsTheSpecs := by
  intro p
  simp only [resetWith_rx, resetWith_tx, ringAtReset_wp, ringAtReset_rp, ringAtReset_ovf,
    resetWith_phase, resetWith_cnt, resetWith_len, resetWith_txout, resetWith_rspout, and_self]

end Sys2Proof.Machine
end

section
/-! The opcode map: what the decoder answers, by the rows of R51 and R53. -/

namespace Sys2Proof

theorem packCmd_injective : Function.Injective packCmd :=
  Function.LeftInverse.injective cmdFields_packCmd

/-- A word selects a row when each of its fields does, under that field's part of the mask. -/
theorem selects_iff_fields (w : Word) (row : RowBits) :
    selects w row = true ↔
      (cmdFields w).op &&& (cmdFields row.mask).op = (cmdFields row.pattern).op ∧
      (cmdFields w).z &&& (cmdFields row.mask).z = (cmdFields row.pattern).z ∧
      (cmdFields w).r &&& (cmdFields row.mask).r = (cmdFields row.pattern).r ∧
      (cmdFields w).imm8 &&& (cmdFields row.mask).imm8 = (cmdFields row.pattern).imm8 ∧
      (cmdFields w).imm16 &&& (cmdFields row.mask).imm16 = (cmdFields row.pattern).imm16 := by
  rw [selects, beq_iff_eq, ← packCmd_cmdFields w, ← packCmd_cmdFields row.mask, packCmd_and,
    ← packCmd_cmdFields row.pattern, packCmd_injective.eq_iff, cmdFields_packCmd,
    cmdFields_packCmd, cmdFields_packCmd, ← CmdFields.mk.injEq]

/-- What the row of an instruction asks of a word's fields (R51, R53): its opcode, and zero in each
field that is no operand. -/
def Instr.fieldsFixed (f : CmdFields) : Instr → Prop
  | .nop => f.op = 0x0#4 ∧ f.z = 0 ∧ f.r = 0 ∧ f.imm8 = 0 ∧ f.imm16 = 0
  | .pop => f.op = 0x1#4 ∧ f.z = 0 ∧ f.r = 0 ∧ f.imm8 = 0 ∧ f.imm16 = 0
  | .avail _ => f.op = 0x2#4 ∧ f.z = 0 ∧ f.imm8 = 0 ∧ f.imm16 = 0
  | .flush => f.op = 0x3#4 ∧ f.z = 0 ∧ f.r = 0 ∧ f.imm8 = 0 ∧ f.imm16 = 0
  | .recv _ => f.op = 0x4#4 ∧ f.z = 0 ∧ f.r = 0 ∧ f.imm8 = 0
  | .frame _ => f.op = 0x5#4 ∧ f.z = 0 ∧ f.r = 0 ∧ f.imm16 = 0
  | .line _ _ => f.op = 0x6#4 ∧ f.z = 0 ∧ f.r = 0
  | .rdrec _ => f.op = 0x7#4 ∧ f.z = 0 ∧ f.r = 0 ∧ f.imm16 = 0
  | .send _ => f.op = 0x8#4 ∧ f.z = 0 ∧ f.r = 0 ∧ f.imm16 = 0
  | .clrovf _ => f.op = 0xA#4 ∧ f.z = 0 ∧ f.imm8 = 0 ∧ f.imm16 = 0
  | .illegalOp9 _ => f.op = 0x9#4
  | .illegalOpB _ => f.op = 0xB#4
  | .illegalOpCF _ _ => f.op &&& 0xC#4 = 0xC#4
  | .rxev _ => False
  | .txev => False
  | .tick => False
  | .reset => False

/-- The row's instruction with the operands read from a word (R52). -/
def Instr.withFields (w : Word) : Instr → Instr
  | .nop => .nop
  | .pop => .pop
  | .avail _ => .avail (ringOfBit (cmdFields w).r)
  | .flush => .flush
  | .recv _ => .recv (cmdFields w).imm16
  | .frame _ => .frame (cmdFields w).imm8
  | .line _ _ => .line (cmdFields w).imm8 (cmdFields w).imm16
  | .rdrec _ => .rdrec (cmdFields w).imm8
  | .send _ => .send (cmdFields w).imm8
  | .clrovf _ => .clrovf (ringOfBit (cmdFields w).r)
  | .illegalOp9 _ => .illegalOp9 (w.extractLsb' 0 28)
  | .illegalOpB _ => .illegalOpB (w.extractLsb' 0 28)
  | .illegalOpCF _ _ => .illegalOpCF (cmdFields w).op (w.extractLsb' 0 28)
  | .rxev b => .rxev b
  | .txev => .txev
  | .tick => .tick
  | .reset => .reset

theorem rowBits_withFields (w : Word) (i : Instr) : rowBits (i.withFields w) = rowBits i := by
  cases i <;> rfl

/-- A mask of ones keeps a field. -/
theorem and_masks (f : CmdFields) :
    f.op &&& 15#4 = f.op ∧ f.z &&& 7#3 = f.z ∧ f.r &&& 1#1 = f.r ∧ f.imm8 &&& 255#8 = f.imm8 ∧
      f.imm16 &&& 65535#16 = f.imm16 :=
  ⟨BitVec.and_allOnes, BitVec.and_allOnes, BitVec.and_allOnes, BitVec.and_allOnes,
    BitVec.and_allOnes⟩

/-- Masking by a row is fixing its fields: in each row a field's mask is all ones, where the field
is fixed, or zero, but for the two opcode bits of the last row. -/
theorem selects_iff_fieldsFixed (w : Word) {i : Instr} {a : RowBits} (h : rowBits i = some a) :
    selects w a = true ↔ i.fieldsFixed (cmdFields w) := by
  rw [selects_iff_fields]
  generalize cmdFields w = f
  have hmask := and_masks f
  cases i <;> cases h <;> simp [Instr.fieldsFixed, cmdFields, hmask]

/-- The opcodes with both upper bits set are those no earlier row has. -/
theorem op_and_eq_iff (op : BitVec 4) :
    op &&& 0xC#4 = 0xC#4 ↔
      op ≠ 0x0#4 ∧ op ≠ 0x1#4 ∧ op ≠ 0x2#4 ∧ op ≠ 0x3#4 ∧ op ≠ 0x4#4 ∧ op ≠ 0x5#4 ∧ op ≠ 0x6#4 ∧
      op ≠ 0x7#4 ∧ op ≠ 0x8#4 ∧ op ≠ 0x9#4 ∧ op ≠ 0xA#4 ∧ op ≠ 0xB#4 := by
  revert op
  decide

/-- The last row has no test of its own in the decoder: it is what the other opcodes leave. -/
theorem decodeCommand_of_fieldsFixed {w : Word} {i : Instr} (h : i.fieldsFixed (cmdFields w)) :
    decodeCommand w = .ok (i.withFields w) := by
  rw [decodeCommand]
  cases i
  case rxev | txev | tick | reset => exact h.elim
  case illegalOpCF =>
    have hother := (op_and_eq_iff _).mp h
    simp [hother, Instr.withFields]
  all_goals
    rw [Instr.fieldsFixed] at h
    simp [h, whenZero, Instr.withFields]

/-- The decoder's two answers on a word of these fields: a must-be-zero rejection, or an instruction
whose row fixes them. -/
def rejectedOrFixed (f : CmdFields) (o : Except Reject Instr) : Prop :=
  o = .error .mustBeZero ∨ ∃ i, o = .ok i ∧ i.fieldsFixed f

theorem rejectedOrFixed_whenZero {f : CmdFields} {c : Bool} {i : Instr}
    (h : c = true → i.fieldsFixed f) : rejectedOrFixed f (whenZero c i) := by
  cases c
  · exact .inl rfl
  · exact .inr ⟨i, rfl, h rfl⟩

/-- One opcode after another, in the decoder's order. -/
theorem rejectedOrFixed_decodeCommand (w : Word) :
    rejectedOrFixed (cmdFields w) (decodeCommand w) := by
  rw [decodeCommand]
  generalize cmdFields w = f
  repeat' with_reducible
    refine iteInduction (motive := rejectedOrFixed f) (fun hop => ?_) fun hop => ?_
  any_goals
    refine rejectedOrFixed_whenZero fun hz => ?_
    simpa [Instr.fieldsFixed, hop, and_assoc] using hz
  all_goals refine .inr ⟨_, rfl, ?_⟩
  · exact hop
  · exact hop
  · rw [Instr.fieldsFixed, op_and_eq_iff]
    simp [*]

theorem exists_row_of_fieldsFixed {f : CmdFields} {i : Instr} (h : i.fieldsFixed f) :
    ∃ a, rowBits i = some a := by
  cases i
  case rxev | txev | tick | reset => exact h.elim
  all_goals exact ⟨_, rfl⟩

/-- A word that selects a row decodes to the row's instruction, with the operands the word has. -/
theorem decodeCommand_of_selects {w : Word} {i : Instr} {a : RowBits} (ha : rowBits i = some a)
    (hs : selects w a = true) : decodeCommand w = .ok (i.withFields w) :=
  decodeCommand_of_fieldsFixed ((selects_iff_fieldsFixed w ha).mp hs)

/-- A word that decodes selects the row of what it decodes to. -/
theorem selects_of_decodeCommand {w : Word} {i : Instr} (h : decodeCommand w = .ok i) :
    ∃ a, rowBits i = some a ∧ selects w a = true := by
  obtain he | ⟨j, hj, hfix⟩ := rejectedOrFixed_decodeCommand w
  · cases h.symm.trans he
  · cases h.symm.trans hj
    obtain ⟨a, ha⟩ := exists_row_of_fieldsFixed hfix
    exact ⟨a, ha, (selects_iff_fieldsFixed w ha).mpr hfix⟩

/-- The decoder's law: it answers `i` on exactly the words of the row of `i` that carry its
operands. -/
theorem decodeCommand_eq_ok_iff {w : Word} {i : Instr} {a : RowBits} (ha : rowBits i = some a) :
    decodeCommand w = .ok i ↔ selects w a = true ∧ i = i.withFields w := by
  constructor
  · intro h
    obtain ⟨b, hb, hs⟩ := selects_of_decodeCommand h
    cases hb.symm.trans ha
    exact ⟨hs, Except.ok.inj (h.symm.trans (decodeCommand_of_selects ha hs))⟩
  · rintro ⟨hs, hi⟩
    rw [decodeCommand_of_selects ha hs, ← hi]

/-- The rows are disjoint: the decoder answers one instruction for a word, of one row. -/
theorem row_unique {w : Word} {i j : Instr} {a b : RowBits} (ha : rowBits i = some a)
    (hb : rowBits j = some b) (hsa : selects w a = true) (hsb : selects w b = true) : a = b := by
  have hij : i.withFields w = j.withFields w :=
    Except.ok.inj ((decodeCommand_of_selects ha hsa).symm.trans (decodeCommand_of_selects hb hsb))
  rw [← rowBits_withFields w i, hij, rowBits_withFields, hb] at ha
  exact (Option.some.inj ha).symm

theorem decodeCommand_eq_mustBeZero_iff (w : Word) :
    decodeCommand w = .error .mustBeZero ↔
      ∀ (i : Instr) (a : RowBits), rowBits i = some a → selects w a = false := by
  constructor
  · intro he i a ha
    by_contra hs
    cases he.symm.trans (decodeCommand_of_selects ha (Bool.eq_true_of_not_eq_false hs))
  · intro hnone
    obtain he | ⟨i, hi, -⟩ := rejectedOrFixed_decodeCommand w
    · exact he
    · obtain ⟨a, ha, hs⟩ := selects_of_decodeCommand hi
      exact absurd hs (by simp [hnone i a ha])

/-- Settles O3: each command's clause is the decoder's one law at that row, and the rows are
disjoint because the decoder is a function. -/
theorem commandWordsSelectTheirRows : Obligations.CommandWordsSelectTheirRows := by
  refine ⟨fun w => ⟨?_, ?_, fun r => ?_, ?_, fun t => ?_, fun m => ?_, fun m t => ?_, fun i => ?_,
    fun b => ?_, fun r => ?_⟩, fun _ _ _ _ _ => row_unique, decodeCommand_eq_mustBeZero_iff⟩
  all_goals
    rw [decodeCommand_eq_ok_iff rfl]
    simp only [Instr.withFields, cmdFields, and_true, Instr.avail.injEq, Instr.recv.injEq,
      Instr.frame.injEq, Instr.line.injEq, Instr.rdrec.injEq, Instr.send.injEq,
      Instr.clrovf.injEq]

end Sys2Proof
end

section
/-! The answer to an illegal word (R53). -/

namespace Sys2Proof.Machine

theorem acceptIllegal_idle {s : State} (h : s.phase = .idle) :
    acceptIllegal s = .next { s with
      rspout := s.rspout ++ [rspWord .illegal s.rx.ovf s.tx.ovf false 0#8 0#16] } :=
  whenReady_idle _ h

theorem exec_of_isReservedRow {i : Instr} (s : State) (h : isReservedRow i = true) :
    exec i s = acceptIllegal s := by
  cases i
  case illegalOp9 | illegalOpB | illegalOpCF => rfl
  all_goals cases h

theorem issueCommand_ok {s : State} {w : Word} {ws : List Word} {i : Instr} (h : s.phase = .idle)
    (hp : s.poller = w :: ws) (hw : decodeCommand w = .ok i) :
    issueCommand s = .instr i { s with poller := ws } := by
  simp only [issueCommand, drawWord, if_pos h, hp, hw]

theorem issueCommand_error {s : State} {w : Word} {ws : List Word} {e : Reject}
    (h : s.phase = .idle) (hp : s.poller = w :: ws) (hw : decodeCommand w = .error e) :
    issueCommand s = .illegal { s with poller := ws } := by
  simp only [issueCommand, drawWord, if_pos h, hp, hw]

theorem nextAction_withCommand {s : State} (w : Word) (h : s.phase = .idle) :
    nextAction (withCommand s w) = issueCommand { s with poller := w :: s.poller } := by
  rw [nextAction_slot (drawSlot_cons rfl), withCommand, ← h]
  rfl

theorem step_withCommand_ok {s : State} {w : Word} {i : Instr} (h : s.phase = .idle)
    (hw : decodeCommand w = .ok i) : step (withCommand s w) = exec i s := by
  rw [step, nextAction_withCommand w h,
    issueCommand_ok (s := { s with poller := w :: s.poller }) h rfl hw]

theorem step_withCommand_error {s : State} {w : Word} {e : Reject} (h : s.phase = .idle)
    (hw : decodeCommand w = .error e) : step (withCommand s w) = acceptIllegal s := by
  rw [step, nextAction_withCommand w h,
    issueCommand_error (s := { s with poller := w :: s.poller }) h rfl hw]

/-- A word of no command row is rejected or decodes to a reserved opcode; either way its step is the
`ILLEGAL` answer. -/
theorem step_withCommand_of_no_row {s : State} {w : Word} (h : s.phase = .idle)
    (hnone : ∀ (i : Instr) (a : RowBits), isReservedRow i = false → rowBits i = some a →
      selects w a = false) : step (withCommand s w) = acceptIllegal s := by
  cases hw : decodeCommand w with
  | error e => exact step_withCommand_error h hw
  | ok i =>
    obtain ⟨a, ha, hs⟩ := selects_of_decodeCommand hw
    have hres : isReservedRow i = true := by
      by_contra hi
      simp [hnone i a (Bool.eq_false_of_not_eq_true hi) ha] at hs
    rw [step_withCommand_ok h hw, exec_of_isReservedRow s hres]

/-- Settles O5: on the command port and in `exec` alike, the step is `acceptIllegal`. -/
theorem illegalWordsAnswerIllegal : Obligations.IllegalWordsAnswerIllegal := by
  constructor
  · intro s w h hnone
    rw [step_withCommand_of_no_row h hnone, acceptIllegal_idle h]
  · intro s i h hi
    rw [exec_of_isReservedRow s hi, acceptIllegal_idle h]

end Sys2Proof.Machine
end

section
/-! The single-step commands on the rings and the flags (R68, R69, R72 to R74), each in `IDLE`. -/

namespace Sys2Proof.Machine

/-- R74. -/
theorem exec_nop_idle {s : State} (h : s.phase = .idle) :
    exec .nop s = .next (respond s .ok 0#8 0#16 false) :=
  whenReady_idle _ h

/-- R68 on a ring with a byte. -/
theorem exec_pop_some {s t : State} {v : Byte} (h : s.phase = .idle)
    (hp : popRx s = .ok (some v, t)) :
    exec .pop s = .next (respond t .ok 0#8 (byteVal v) false) := by
  rw [exec, execPop, whenReady_idle _ h, hp]

/-- R68 on an empty ring. -/
theorem exec_pop_none {s t : State} (h : s.phase = .idle) (hp : popRx s = .ok (none, t)) :
    exec .pop s = .next (respond t .empty 0#8 0#16 false) := by
  rw [exec, execPop, whenReady_idle _ h, hp]

/-- R69 for the ring `r` selects. -/
theorem exec_avail_idle {s : State} (r : RingSel) (h : s.phase = .idle) :
    exec (.avail r) s =
      .next (respond s .ok 0#8 (countVal ((ringOf s r).avail (capOf s r))) false) :=
  whenReady_idle _ h

/-- R72. -/
theorem exec_flush_idle {s : State} (h : s.phase = .idle) :
    exec .flush s = .next (respond (flushRx s) .ok 0#8 0#16 false) :=
  whenReady_idle _ h

/-- R73 for the ring `r` selects. -/
theorem exec_clrovf_idle {s : State} (r : RingSel) (h : s.phase = .idle) :
    exec (.clrovf r) s = .next (respond (clearOvf s r) .ok 0#8 0#16 false) :=
  whenReady_idle _ h

/-- Settles O11: `respond` adds one word to `rspout` and writes nothing else. -/
theorem nopReportsTheFlags : Obligations.NopReportsTheFlags :=
  ⟨rfl, fun _ => exec_nop_idle, rfl⟩

/-- Settles O12, by the two answers of a pop of RX. -/
theorem popReturnsTheOldestByteOrEmpty : Obligations.PopReturnsTheOldestByteOrEmpty := by
  refine ⟨rfl, fun s h he => ?_, fun s v h hne hr hv => ?_⟩
  · exact exec_pop_none h (popRx_none.mpr ⟨he, rfl⟩)
  · exact exec_pop_some h (popRx_some.mpr ⟨hne, hr, hv, rfl⟩)

/-- The count of a ring in range fits the response's 16 bits (R7, R63). -/
theorem toNat_countVal_avail {cap : Nat} {q : RingBuf} (hw : q.wp < cap) (hr : q.rp < cap)
    (hc : cap ≤ 65536) :
    (countVal (q.avail cap)).toNat = if q.rp ≤ q.wp then q.wp - q.rp else q.wp + cap - q.rp := by
  have hlt : q.avail cap < cap := q.avail_lt (by omega)
  rw [countVal, BitVec.toNat_ofNat, Nat.mod_eq_of_lt (by omega), RingBuf.avail_of_lt hw hr]

/-- Settles O13: one count for both rings. -/
theorem availCountsThePendingBytes : Obligations.AvailCountsThePendingBytes := by
  refine ⟨rfl, rfl, fun s h hw hr hc => ?_, fun s h hw hr hc => ?_⟩
  · exact ⟨_, toNat_countVal_avail hw hr hc, exec_avail_idle .rx h⟩
  · exact ⟨_, toNat_countVal_avail hw hr hc, exec_avail_idle .tx h⟩

/-- Settles O14: `flushRx` moves `RX.rp` alone, so the flags of the response are the old ones. -/
theorem flushDiscardsWhatIsPending : Obligations.FlushDiscardsWhatIsPending :=
  ⟨rfl, fun _ => exec_flush_idle⟩

/-- Settles O15: the response samples the flags of `clearOvf s r`, which are those after the
clear. -/
theorem clrovfClearsOneFlag : Obligations.ClrovfClearsOneFlag :=
  ⟨rfl, rfl, fun _ => exec_clrovf_idle .rx, fun _ => exec_clrovf_idle .tx⟩

end Sys2Proof.Machine
end

section
/-! The events on the rings, in every phase (R70, R71). -/

namespace Sys2Proof.Machine

theorem storedAt_put (m : Mem) (i : Nat) (v : Byte) : storedAt m (Mem.put m i v) i v :=
  ⟨Mem.get_put_same m i v, fun _ hj => Mem.get_put_ne m v hj⟩

/-- A push on RX when it is full (R61). -/
theorem pushRx_full {s : State} (b : Byte) (h : s.rx.full s.par.rxCap = true) :
    pushRx s b = .ok { s with rx := { s.rx with ovf := true } } :=
  pushRx_ok.mpr ⟨_, RingBuf.push_full b h, rfl⟩

/-- A push on RX when it has room (R61). -/
theorem pushRx_room {s : State} (b : Byte) (h : s.rx.full s.par.rxCap = false)
    (hw : s.rx.wp < s.par.rxCap) :
    pushRx s b = .ok { s with rx := { s.rx with
      buf := Mem.put s.rx.buf s.rx.wp b, wp := nextIndex s.par.rxCap s.rx.wp } } :=
  pushRx_ok.mpr ⟨_, RingBuf.push_room b h hw, rfl⟩

theorem exec_rxev_of_pushRx {s t : State} {b : Byte} (h : pushRx s b = .ok t) :
    exec (.rxev b) s = .next t := by
  rw [exec, execRxev, h]

/-- R71 in queued mode, a byte in TX. -/
theorem exec_txev_some {s t : State} {v : Byte} (hq : s.par.txQueued = true)
    (hp : popTx s = .ok (some v, t)) : exec .txev s = .next (emit t v) := by
  rw [exec, execTxev, if_pos hq, hp]

/-- R71 in queued mode, TX empty. -/
theorem exec_txev_none {s t : State} (hq : s.par.txQueued = true)
    (hp : popTx s = .ok (none, t)) : exec .txev s = .next t := by
  rw [exec, execTxev, if_pos hq, hp]

/-- R71 in direct mode. -/
theorem exec_txev_direct {s : State} (hq : s.par.txQueued = false) : exec .txev s = .next s := by
  simp [exec, execTxev, hq]

/-- Settles O21, by the two answers of a push on RX. -/
theorem rxevPushesOrDropsTheByte : Obligations.RxevPushesOrDropsTheByte := by
  refine ⟨fun s b hfull => ?_, fun s b hroom hw => ?_⟩
  · exact exec_rxev_of_pushRx (pushRx_full b ((RingBuf.full_iff _ _).mpr hfull))
  · have hf : s.rx.full s.par.rxCap = false :=
      Bool.eq_false_of_not_eq_true (mt (RingBuf.full_iff _ _).mp hroom)
    exact ⟨_, storedAt_put s.rx.buf s.rx.wp b, exec_rxev_of_pushRx (pushRx_room b hf hw)⟩

/-- Settles O22, by the two answers of a pop of TX and by the mode. -/
theorem txevEmitsTheOldestQueuedByte : Obligations.TxevEmitsTheOldestQueuedByte := by
  refine ⟨fun s v hq hne hr hv => ?_, fun s hq he => ?_, fun _ => exec_txev_direct⟩
  · exact exec_txev_some hq (popTx_some.mpr ⟨hne, hr, hv, rfl⟩)
  · exact exec_txev_none hq (popTx_none.mpr ⟨he, rfl⟩)

end Sys2Proof.Machine
end

section
/-! The guards of the engine step and the hand-over of a byte (R77, R80, R81, R92). -/

namespace Sys2Proof.Machine

theorem byteOrTimeout_iff (s : State) :
    byteOrTimeout s = true ↔ s.cancel = true ∨ s.rx.rp ≠ s.rx.wp ∨ s.cnt = 0#16 := by
  simp [byteOrTimeout, RingBuf.empty, or_assoc]

theorem handOver_queued {s : State} (hq : s.par.txQueued = true) :
    handOver s = true ↔ (s.tx.wp + 1) % s.par.txCap ≠ s.tx.rp := by
  rw [handOver, if_pos hq, Bool.not_eq_true', ← Bool.not_eq_true, RingBuf.full_iff]

theorem handOver_direct {s : State} (hq : s.par.txQueued = false) : handOver s = s.txReady := by
  simp [handOver, hq]

theorem handOver_iff (s : State) :
    handOver s = true ↔ (s.par.txQueued = true ∧ (s.tx.wp + 1) % s.par.txCap ≠ s.tx.rp) ∨
      (s.par.txQueued = false ∧ s.txReady = true) := by
  cases hq : s.par.txQueued
  · simp [handOver_direct hq]
  · simp [handOver_queued hq]

theorem cancelOrHandOver_iff (s : State) :
    cancelOrHandOver s = true ↔ s.cancel = true ∨ handOver s = true :=
  Bool.or_eq_true_iff

theorem engineEnabled_recvWait {s : State} (h : s.phase = .recvWait) :
    engineEnabled s = byteOrTimeout s := by
  simp only [engineEnabled, h]

theorem engineEnabled_sendWait {s : State} (h : s.phase = .sendWait) :
    engineEnabled s = cancelOrHandOver s := by
  simp only [engineEnabled, h]

theorem handByte_queued {s : State} (b : Byte) (hq : s.par.txQueued = true)
    (hroom : (s.tx.wp + 1) % s.par.txCap ≠ s.tx.rp) (hw : s.tx.wp < s.par.txCap) :
    handByte s b = .ok { s with tx := { s.tx with
      buf := Mem.put s.tx.buf s.tx.wp b, wp := nextIndex s.par.txCap s.tx.wp } } :=
  have hfull : s.tx.full s.par.txCap = false :=
    Bool.eq_false_of_not_eq_true (mt (RingBuf.full_iff _ _).mp hroom)
  handByte_ok.mpr (.inl ⟨hq, pushTx_ok.mpr ⟨_, RingBuf.push_room b hfull hw, rfl⟩⟩)

theorem handByte_direct {s : State} (b : Byte) (hq : s.par.txQueued = false) :
    handByte s b = .ok (emit s b) :=
  handByte_ok.mpr (.inr ⟨hq, rfl⟩)

end Sys2Proof.Machine
end

section
/-! `cancel`: it ends the engine's step in each waiting phase, and no instruction reads it (R83). -/

namespace Sys2Proof.Machine

theorem engineStep_recvWait_cancel {s : State} (h : s.phase = .recvWait) (hc : s.cancel = true) :
    engineStep s = .next (complete s .timeout 0#8 0#16 true) := by
  rw [engineStep_recvWait h ((byteOrTimeout_iff s).mpr (.inl hc)), recvWaitStep, if_pos hc]

theorem engineStep_sendWait_cancel {s : State} (h : s.phase = .sendWait) (hc : s.cancel = true) :
    engineStep s = .next (complete s .timeout 0#8 0#16 true) := by
  rw [engineStep_sendWait h ((cancelOrHandOver_iff s).mpr (.inl hc)), sendWaitStep, if_pos hc]

theorem engineStep_frameHunt_cancel {s : State} (h : s.phase = .frameHunt) (hc : s.cancel = true) :
    engineStep s = .next (complete s .timeout 0#8 0#16 true) := by
  rw [engineStep_frameHunt h, frameHuntStep, if_pos hc]

theorem engineStep_frameCollect_cancel {s : State} (h : s.phase = .frameCollect)
    (hc : s.cancel = true) : engineStep s = .next (complete s .timeout s.len 0#16 true) := by
  rw [engineStep_frameCollect h, frameCollectStep, if_pos hc]

theorem engineStep_lineCollect_cancel {s : State} (h : s.phase = .lineCollect)
    (hc : s.cancel = true) : engineStep s = .next (complete s .timeout s.len 0#16 true) := by
  rw [engineStep_lineCollect h ((byteOrTimeout_iff s).mpr (.inl hc)), lineCollectStep, if_pos hc]

theorem engineEnabled_of_cancel {s : State} (h : s.phase ≠ .idle) (hc : s.cancel = true) :
    engineEnabled s = true := by
  cases hp : s.phase with
  | idle => exact absurd hp h
  | recvWait | sendWait | frameHunt | frameCollect | lineCollect =>
    simp [engineEnabled, hp, byteOrTimeout, cancelOrHandOver, hc]

/-- R83's `len`: `LEN` for `FRAME` and `LINE`, 0 for `RECV` and `SEND`. The hunt's own answer is 0
(R88), which is `LEN` there (log 17). -/
theorem engineStep_cancel {s : State} (h : s.phase ≠ .idle) (hc : s.cancel = true)
    (hlen : s.phase = .frameHunt → s.len = 0#8) :
    engineStep s = .next (complete s .timeout
      (if s.phase = .frameHunt ∨ s.phase = .frameCollect ∨ s.phase = .lineCollect then s.len
        else 0#8) 0#16 true) := by
  cases hp : s.phase with
  | idle => exact absurd hp h
  | recvWait => simpa using engineStep_recvWait_cancel hp hc
  | sendWait => simpa using engineStep_sendWait_cancel hp hc
  | frameHunt => simpa [hlen hp] using engineStep_frameHunt_cancel hp hc
  | frameCollect => simpa using engineStep_frameCollect_cancel hp hc
  | lineCollect => simpa using engineStep_lineCollect_cancel hp hc

/-- A meaning that answers a next state answers the same one, but for the level, at the other level
of `cancel`. -/
def CancelBlind (k : State → Host.Outcome State Fault Refusal) : Prop :=
  ∀ (s t : State) (c : Bool), k s = .next t →
    k { s with cancel := c } = .next { t with cancel := c }

theorem CancelBlind.of_next {f : State → State}
    (hf : ∀ s c, f { s with cancel := c } = { f s with cancel := c }) :
    CancelBlind fun s => .next (f s) := by
  rintro s t c ⟨⟩
  exact congrArg _ (hf s c)

theorem CancelBlind.whenReady {k : State → Host.Outcome State Fault Refusal}
    (hk : CancelBlind k) : CancelBlind fun s => whenReady s (k s) := by
  intro s t c h
  obtain ⟨hp, rfl⟩ | ⟨hp, h⟩ := whenReady_next.mp h
  · exact whenReady_busy _ hp
  · exact (whenReady_idle (s := { s with cancel := c }) _ hp).trans (hk s t c h)

theorem CancelBlind.ite {p : State → Prop} [DecidablePred p]
    {k l : State → Host.Outcome State Fault Refusal}
    (hp : ∀ s c, p { s with cancel := c } ↔ p s) (hk : CancelBlind k) (hl : CancelBlind l) :
    CancelBlind fun s => if p s then k s else l s := by
  intro s t c h
  by_cases hs : p s <;> simp only [hp, hs, if_true, if_false] at h ⊢
  · exact hk s t c h
  · exact hl s t c h

theorem popRx_cancel {s t : State} {o : Option Byte} (c : Bool) (h : popRx s = .ok (o, t)) :
    popRx { s with cancel := c } = .ok (o, { t with cancel := c }) := by
  obtain ⟨q, hq, rfl⟩ := popRx_ok.mp h
  exact popRx_ok.mpr ⟨q, hq, rfl⟩

theorem popTx_cancel {s t : State} {o : Option Byte} (c : Bool) (h : popTx s = .ok (o, t)) :
    popTx { s with cancel := c } = .ok (o, { t with cancel := c }) := by
  obtain ⟨q, hq, rfl⟩ := popTx_ok.mp h
  exact popTx_ok.mpr ⟨q, hq, rfl⟩

theorem pushRx_cancel {s t : State} {b : Byte} (c : Bool) (h : pushRx s b = .ok t) :
    pushRx { s with cancel := c } b = .ok { t with cancel := c } := by
  obtain ⟨q, hq, rfl⟩ := pushRx_ok.mp h
  exact pushRx_ok.mpr ⟨q, hq, rfl⟩

theorem handByte_cancel {s t : State} {b : Byte} (c : Bool) (h : handByte s b = .ok t) :
    handByte { s with cancel := c } b = .ok { t with cancel := c } := by
  obtain ⟨hq, h⟩ | ⟨hq, rfl⟩ := handByte_ok.mp h
  · obtain ⟨q, hp, rfl⟩ := pushTx_ok.mp h
    exact handByte_ok.mpr (.inl ⟨hq, pushTx_ok.mpr ⟨q, hp, rfl⟩⟩)
  · exact handByte_ok.mpr (.inr ⟨hq, rfl⟩)

theorem readRecord_cancel (s : State) (c : Bool) (i : BitVec 8) :
    readRecord { s with cancel := c } i = readRecord s i :=
  rfl

/-- R83: `cancel` prevents no acceptance and changes no event; it is the engine's alone. -/
theorem exec_cancelBlind (i : Instr) : CancelBlind (exec i) := by
  cases i with
  | nop | avail | flush | illegalOp9 | illegalOpB | illegalOpCF | recv =>
    exact .whenReady (.of_next fun _ _ => rfl)
  | clrovf r => cases r <;> exact .whenReady (.of_next fun _ _ => rfl)
  | frame | line =>
    exact .whenReady (.ite (fun _ _ => Iff.rfl) (.of_next fun _ _ => rfl)
      (.of_next fun _ _ => rfl))
  | pop =>
    refine .whenReady fun s t c h => ?_
    split at h <;> cases h
    all_goals
      rename_i hu
      rw [popRx_cancel c hu]
      rfl
  | rdrec k =>
    refine .whenReady (.ite (fun _ _ => Iff.rfl) (fun s t c h => ?_) (.of_next fun _ _ => rfl))
    split at h <;> cases h
    rename_i hv
    rw [readRecord_cancel, hv]
    rfl
  | send b =>
    refine .whenReady (.ite (fun _ _ => Iff.rfl) (fun s t c h => ?_) (.of_next fun _ _ => rfl))
    split at h <;> cases h
    rename_i hu
    rw [handByte_cancel c hu]
    rfl
  | rxev b =>
    intro s t c h
    rw [exec, execRxev] at h
    split at h <;> cases h
    rename_i hu
    exact exec_rxev_of_pushRx (pushRx_cancel c hu)
  | txev =>
    refine .ite (fun _ _ => Iff.rfl) (fun s t c h => ?_) (.of_next fun _ _ => rfl)
    split at h <;> cases h
    all_goals
      rename_i hu
      rw [popTx_cancel c hu]
    rfl
  | tick => exact .ite (fun _ _ => Iff.rfl) (.of_next fun _ _ => rfl) (.of_next fun _ _ => rfl)
  | reset => exact .of_next fun _ _ => rfl

/-- Settles O31: the answers of the five waiting phases at cancel, the engine held in `IDLE`, and no
instruction reading the level. -/
theorem cancelEndsEveryWaitAndNothingElse : Obligations.CancelEndsEveryWaitAndNothingElse :=
  ⟨fun _ h hc hlen => ⟨engineEnabled_of_cancel h hc, engineStep_cancel h hc hlen⟩,
    fun _ => engineStep_idle, exec_cancelBlind⟩

end Sys2Proof.Machine
end

section
/-! `RECV` and `SEND`: acceptance and the engine step that completes them (R76, R77, R80, R81). -/

namespace Sys2Proof.Machine

/-- A packed word decodes to the instruction whose row its fields meet and whose operands they
carry. -/
theorem decodeCommand_packCmd {f : CmdFields} {i : Instr} (h : i.fieldsFixed f)
    (hi : i.withFields (packCmd f) = i) : decodeCommand (packCmd f) = .ok i := by
  rw [decodeCommand_of_fieldsFixed (i := i) (by rwa [cmdFields_packCmd]), hi]

theorem packCmd_recv (t : BitVec 16) :
    packCmd ⟨4#4, 0#3, 0#1, 0#8, t⟩ = (0x4000#16 ++ t : Word) :=
  congrArg (fun x : BitVec 16 => (x ++ t : Word))
    (show (4#4 ++ 0#3 ++ 0#1 ++ 0#8 : BitVec 16) = 0x4000#16 by decide)

theorem packCmd_send (b : BitVec 8) :
    packCmd ⟨8#4, 0#3, 0#1, b, 0#16⟩ = (0x80#8 ++ b ++ 0#16 : Word) :=
  congrArg (fun x : BitVec 8 => (x ++ b ++ 0#16 : Word))
    (show (8#4 ++ 0#3 ++ 0#1 : BitVec 8) = 0x80#8 by decide)

theorem decodeCommand_recvWord (t : BitVec 16) :
    decodeCommand (0x4000#16 ++ t) = .ok (.recv t) := by
  rw [← packCmd_recv]
  exact decodeCommand_packCmd (by simp [Instr.fieldsFixed])
    (by rw [Instr.withFields, cmdFields_packCmd])

theorem decodeCommand_sendWord (b : BitVec 8) :
    decodeCommand (0x80#8 ++ b ++ 0#16) = .ok (.send b) := by
  rw [← packCmd_send]
  exact decodeCommand_packCmd (by simp [Instr.fieldsFixed])
    (by rw [Instr.withFields, cmdFields_packCmd])

/-- R76. -/
theorem exec_recv_idle {s : State} (t : BitVec 16) (h : s.phase = .idle) :
    exec (.recv t) s = .next { s with cnt := t, phase := .recvWait } :=
  whenReady_idle _ h

/-- R80, the byte handed over. -/
theorem exec_send_handed {s u : State} {b : Byte} (h : s.phase = .idle)
    (hg : handOver s = true) (hu : handByte s b = .ok u) :
    exec (.send b) s = .next (respond u .ok 0#8 0#16 false) := by
  rw [exec, execSend, whenReady_idle _ h, if_pos hg, hu]

/-- R80, the byte latched. -/
theorem exec_send_latched {s : State} (b : Byte) (h : s.phase = .idle) (hg : ¬handOver s = true) :
    exec (.send b) s = .next { s with sByte := b, phase := .sendWait } := by
  rw [exec, execSend, whenReady_idle _ h, if_neg hg]

/-- R77, a byte. -/
theorem engineStep_recvWait_some {s u : State} {v : Byte} (h : s.phase = .recvWait)
    (hc : s.cancel = false) (hp : popRx s = .ok (some v, u)) :
    engineStep s = .next (complete u .ok 0#8 (byteVal v) false) := by
  have hne : s.rx.rp ≠ s.rx.wp := (popRx_some.mp hp).1
  rw [engineStep_recvWait h ((byteOrTimeout_iff s).mpr (.inr (.inl hne))), recvWaitStep,
    if_neg (by simp [hc]), hp]

/-- R77, the timeout. -/
theorem engineStep_recvWait_none {s : State} (h : s.phase = .recvWait) (hc : s.cancel = false)
    (he : s.rx.rp = s.rx.wp) (hcnt : s.cnt = 0#16) :
    engineStep s = .next (complete s .timeout 0#8 0#16 false) := by
  rw [engineStep_recvWait h ((byteOrTimeout_iff s).mpr (.inr (.inr hcnt))), recvWaitStep,
    if_neg (by simp [hc]), popRx_none.mpr ⟨he, rfl⟩]

/-- R81, the hand-over. -/
theorem engineStep_sendWait_handed {s u : State} (h : s.phase = .sendWait) (hc : s.cancel = false)
    (hg : handOver s = true) (hu : handByte s s.sByte = .ok u) :
    engineStep s = .next (complete u .ok 0#8 0#16 false) := by
  rw [engineStep_sendWait h ((cancelOrHandOver_iff s).mpr (.inr hg)), sendWaitStep,
    if_neg (by simp [hc]), hu]

/-- Settles O17. -/
theorem recvLoadsTheCountdownAndWaits : Obligations.RecvLoadsTheCountdownAndWaits :=
  ⟨decodeCommand_recvWord, fun _ t => exec_recv_idle t⟩

/-- Settles O18: the guard `handOver` decides between the two answers, and the mode says where the
byte goes. -/
theorem sendHandsTheByteOverOrWaits : Obligations.SendHandsTheByteOverOrWaits := by
  refine ⟨decodeCommand_sendWord, fun s b h hq hroom hw => ?_, fun s b h hq hfull => ?_,
    fun s b h hq hr => ?_, fun s b h hq hr => ?_⟩
  · exact ⟨_, storedAt_put s.tx.buf s.tx.wp b,
      exec_send_handed h ((handOver_queued hq).mpr hroom) (handByte_queued b hq hroom hw)⟩
  · exact exec_send_latched b h fun hg => (handOver_queued hq).mp hg hfull
  · exact exec_send_handed h ((handOver_direct hq).trans hr) (handByte_direct b hq)
  · exact exec_send_latched b h (by simp [handOver_direct hq, hr])

/-- Settles O26, by the level of `cancel` and the two answers of a pop of RX. -/
theorem recvWaitStepTakesByteOrTimesOut : Obligations.RecvWaitStepTakesByteOrTimesOut := by
  refine fun s h => ⟨?_, engineStep_recvWait_cancel h, fun v hc hne hr hv => ?_,
    engineStep_recvWait_none h⟩
  · rw [engineEnabled_recvWait h, byteOrTimeout_iff]
  · exact engineStep_recvWait_some h hc (popRx_some.mpr ⟨hne, hr, hv, rfl⟩)

/-- Settles O27, by the level of `cancel` and the mode. -/
theorem sendWaitStepHandsTheByteOver : Obligations.SendWaitStepHandsTheByteOver := by
  refine fun s h => ⟨?_, engineStep_sendWait_cancel h, fun hc hq hroom hw => ?_,
    fun hc hq hr => ?_⟩
  · rw [engineEnabled_sendWait h, cancelOrHandOver_iff, handOver_iff]
  · exact ⟨_, storedAt_put s.tx.buf s.tx.wp s.sByte,
      engineStep_sendWait_handed h hc ((handOver_queued hq).mpr hroom)
        (handByte_queued s.sByte hq hroom hw)⟩
  · exact engineStep_sendWait_handed h hc ((handOver_direct hq).trans hr)
      (handByte_direct s.sByte hq)

end Sys2Proof.Machine
end

section
/-! Framed receive, the commands: the words of `FRAME`, `LINE` and `RDREC`, and their acceptance in
`IDLE` (R87, R91, R94). -/

namespace Sys2Proof.Machine

/-- The words of a row that fixes `z` and `r` at zero begin with its opcode and four zeros (R49). -/
theorem packCmd_of_head {op : BitVec 4} {c : BitVec 8} (h : op ++ 0#3 ++ 0#1 = c) (m : BitVec 8)
    (t : BitVec 16) : packCmd ⟨op, 0#3, 0#1, m, t⟩ = (c ++ m ++ t : Word) :=
  congrArg (fun x : BitVec 8 => (x ++ m ++ t : Word)) h

/-- Such a word decodes to the instruction whose row its fields meet and whose operands they
carry. -/
theorem decodeCommand_of_head {op : BitVec 4} {c m : BitVec 8} {t : BitVec 16} {i : Instr}
    (hc : op ++ 0#3 ++ 0#1 = c) (hfix : i.fieldsFixed ⟨op, 0#3, 0#1, m, t⟩)
    (hi : ∀ w, cmdFields w = ⟨op, 0#3, 0#1, m, t⟩ → i.withFields w = i) :
    decodeCommand (c ++ m ++ t) = .ok i := by
  rw [← packCmd_of_head hc]
  exact decodeCommand_packCmd hfix (hi _ (cmdFields_packCmd _))

theorem decodeCommand_frameWord (m : BitVec 8) :
    decodeCommand (0x50#8 ++ m ++ 0#16) = .ok (.frame m) :=
  decodeCommand_of_head (op := 5#4) (by decide) (by simp [Instr.fieldsFixed])
    fun w hw => by rw [Instr.withFields, hw]

theorem decodeCommand_lineWord (m : BitVec 8) (t : BitVec 16) :
    decodeCommand (0x60#8 ++ m ++ t) = .ok (.line m t) :=
  decodeCommand_of_head (op := 6#4) (by decide) (by simp [Instr.fieldsFixed])
    fun w hw => by rw [Instr.withFields, hw]

theorem decodeCommand_rdrecWord (i : BitVec 8) :
    decodeCommand (0x70#8 ++ i ++ 0#16) = .ok (.rdrec i) :=
  decodeCommand_of_head (op := 7#4) (by decide) (by simp [Instr.fieldsFixed])
    fun w hw => by rw [Instr.withFields, hw]

theorem boundOk_iff (s : State) (m : BitVec 8) :
    boundOk s m = true ↔ m ≠ 0#8 ∧ m.toNat ≤ s.par.destCap := by
  have hpos : 1 ≤ m.toNat ↔ m ≠ 0#8 :=
    Nat.one_le_iff_ne_zero.trans (not_congr (BitVec.toNat_inj (y := 0#8)))
  rw [boundOk, Bool.and_eq_true, decide_eq_true_iff, decide_eq_true_iff, hpos]

theorem not_boundOk_iff (s : State) (m : BitVec 8) :
    ¬boundOk s m = true ↔ m = 0#8 ∨ s.par.destCap < m.toNat := by
  rw [boundOk_iff, not_and_or, not_not, not_le]

theorem indexOk_iff (s : State) (i : BitVec 8) : indexOk s i = true ↔ i.toNat < s.len.toNat :=
  decide_eq_true_iff

/-- R87, the bound in range. -/
theorem exec_frame_started {s : State} {m : BitVec 8} (h : s.phase = .idle)
    (hb : boundOk s m = true) :
    exec (.frame m) s = .next { s with maxLen := m, len := 0#8, phase := .frameHunt } := by
  rw [exec, execFrame, whenReady_idle _ h, if_pos hb]

/-- R87, the bound out of range. -/
theorem exec_frame_range {s : State} {m : BitVec 8} (h : s.phase = .idle)
    (hb : ¬boundOk s m = true) :
    exec (.frame m) s = .next (respond s .range 0#8 0#16 false) := by
  rw [exec, execFrame, whenReady_idle _ h, if_neg hb]

/-- R91, the bound in range. -/
theorem exec_line_started {s : State} {m : BitVec 8} (t : BitVec 16) (h : s.phase = .idle)
    (hb : boundOk s m = true) :
    exec (.line m t) s =
      .next { s with maxLen := m, len := 0#8, cnt := t, phase := .lineCollect } := by
  rw [exec, execLine, whenReady_idle _ h, if_pos hb]

/-- R91, the bound out of range. -/
theorem exec_line_range {s : State} {m : BitVec 8} (t : BitVec 16) (h : s.phase = .idle)
    (hb : ¬boundOk s m = true) :
    exec (.line m t) s = .next (respond s .range 0#8 0#16 false) := by
  rw [exec, execLine, whenReady_idle _ h, if_neg hb]

/-- R94, an index of the record. -/
theorem exec_rdrec_read {s : State} {i : BitVec 8} {v : Byte} (h : s.phase = .idle)
    (hi : indexOk s i = true) (hv : readRecord s i = .ok v) :
    exec (.rdrec i) s = .next (respond s .ok 0#8 (byteVal v) false) := by
  rw [exec, execRdrec, whenReady_idle _ h, if_pos hi, hv]

/-- R94, an index beyond the record. -/
theorem exec_rdrec_range {s : State} {i : BitVec 8} (h : s.phase = .idle)
    (hi : ¬indexOk s i = true) :
    exec (.rdrec i) s = .next (respond s .range 0#8 0#16 false) := by
  rw [exec, execRdrec, whenReady_idle _ h, if_neg hi]

/-- Settles O16: the check `indexOk` decides between the byte and `RANGE`. -/
theorem rdrecReadsTheRecordBelowLen : Obligations.RdrecReadsTheRecordBelowLen := by
  refine ⟨decodeCommand_rdrecWord, fun s i v h hlen hcap hv => ?_, fun s i h hlen => ?_⟩
  · exact exec_rdrec_read h ((indexOk_iff s i).mpr hlen) (readRecord_ok.mpr ⟨hcap, hv⟩)
  · exact exec_rdrec_range h (mt (indexOk_iff s i).mp hlen.not_gt)

/-- Settles O19: the check `boundOk` decides between the hunt and `RANGE`. -/
theorem frameStartsTheHuntOrAnswersRange : Obligations.FrameStartsTheHuntOrAnswersRange := by
  refine ⟨decodeCommand_frameWord, fun s m h hm hcap => ?_, fun s m h hout => ?_⟩
  · exact exec_frame_started h ((boundOk_iff s m).mpr ⟨hm, hcap⟩)
  · exact exec_frame_range h ((not_boundOk_iff s m).mpr hout)

/-- Settles O20: the check `boundOk` decides between the scan and `RANGE`. -/
theorem lineStartsTheScanOrAnswersRange : Obligations.LineStartsTheScanOrAnswersRange := by
  refine ⟨decodeCommand_lineWord, fun s m t h hm hcap => ?_, fun s m t h hout => ?_⟩
  · exact exec_line_started t h ((boundOk_iff s m).mpr ⟨hm, hcap⟩)
  · exact exec_line_range t h ((not_boundOk_iff s m).mpr hout)

end Sys2Proof.Machine
end

section
/-! Framed receive, the engine: one lemma per end of the step in `FRAME_HUNT`, `FRAME_COLLECT` and
`LINE_COLLECT` (R88, R89, R92). In each, `u` is the state after the pop of RX and `x` the state
after the store into the record. -/

namespace Sys2Proof.Machine

section Ends

variable {s u x : State} {v : Byte}

theorem engineEnabled_frameHunt (h : s.phase = .frameHunt) : engineEnabled s = true := by
  simp only [engineEnabled, h]

theorem engineEnabled_frameCollect (h : s.phase = .frameCollect) : engineEnabled s = true := by
  simp only [engineEnabled, h]

theorem engineEnabled_lineCollect (h : s.phase = .lineCollect) :
    engineEnabled s = byteOrTimeout s := by
  simp only [engineEnabled, h]

/-- A byte to pop is a reason for the guard of R77 and R92. -/
theorem byteOrTimeout_of_popRx (hp : popRx s = .ok (some v, u)) : byteOrTimeout s = true :=
  have hne : s.rx.rp ≠ s.rx.wp := (popRx_some.mp hp).1
  (byteOrTimeout_iff s).mpr (.inr (.inl hne))

/-- R88, the ring empty. -/
theorem engineStep_frameHunt_none (h : s.phase = .frameHunt) (hc : s.cancel = false)
    (he : s.rx.rp = s.rx.wp) :
    engineStep s = .next (complete s .noStart 0#8 0#16 false) := by
  rw [engineStep_frameHunt h, frameHuntStep, if_neg (by simp [hc]), popRx_none.mpr ⟨he, rfl⟩]

/-- R88, a byte: only the phase can tell the start sentinel from a discarded byte. -/
theorem engineStep_frameHunt_some (h : s.phase = .frameHunt) (hc : s.cancel = false)
    (hp : popRx s = .ok (some v, u)) :
    engineStep s = .next { u with
      phase := if v = u.par.sof then .frameCollect else .frameHunt } := by
  have hu : u.phase = .frameHunt := by
    obtain ⟨-, -, -, rfl⟩ := popRx_some.mp hp
    exact h
  rw [engineStep_frameHunt h, frameHuntStep, if_neg (by simp [hc]), hp]
  by_cases hv : v = u.par.sof
  · simp only [if_pos hv]
  · simp only [if_neg hv, ← hu]

/-- R89, the ring empty. -/
theorem engineStep_frameCollect_none (h : s.phase = .frameCollect) (hc : s.cancel = false)
    (he : s.rx.rp = s.rx.wp) :
    engineStep s = .next (complete s .exhausted s.len 0#16 false) := by
  rw [engineStep_frameCollect h, frameCollectStep, if_neg (by simp [hc]),
    popRx_none.mpr ⟨he, rfl⟩]

/-- R89, the end sentinel. -/
theorem engineStep_frameCollect_ended (h : s.phase = .frameCollect) (hc : s.cancel = false)
    (hp : popRx s = .ok (some v, u)) (hv : v = u.par.eof) :
    engineStep s = .next (complete u .ok u.len 0#16 false) := by
  rw [engineStep_frameCollect h, frameCollectStep, if_neg (by simp [hc]), hp]
  exact if_pos hv

/-- R89, the bound reached. -/
theorem engineStep_frameCollect_tooLong (h : s.phase = .frameCollect) (hc : s.cancel = false)
    (hp : popRx s = .ok (some v, u)) (hv : v ≠ u.par.eof) (hl : u.len = u.maxLen) :
    engineStep s = .next (complete u .tooLong u.len 0#16 false) := by
  rw [engineStep_frameCollect h, frameCollectStep, if_neg (by simp [hc]), hp]
  exact (if_neg hv).trans (if_pos hl)

/-- R89, a byte of the record. -/
theorem engineStep_frameCollect_stored (h : s.phase = .frameCollect) (hc : s.cancel = false)
    (hp : popRx s = .ok (some v, u)) (hv : v ≠ u.par.eof) (hl : u.len ≠ u.maxLen)
    (hx : storeRecord u v = .ok x) : engineStep s = .next x := by
  rw [engineStep_frameCollect h, frameCollectStep, if_neg (by simp [hc]), hp]
  simp only [if_neg hv, if_neg hl, hx]

/-- R92, the timeout. -/
theorem engineStep_lineCollect_none (h : s.phase = .lineCollect) (hc : s.cancel = false)
    (he : s.rx.rp = s.rx.wp) (hcnt : s.cnt = 0#16) :
    engineStep s = .next (complete s .timeout s.len 0#16 false) := by
  rw [engineStep_lineCollect h ((byteOrTimeout_iff s).mpr (.inr (.inr hcnt))), lineCollectStep,
    if_neg (by simp [hc]), popRx_none.mpr ⟨he, rfl⟩]

/-- R92, a leading `CR`. -/
theorem engineStep_lineCollect_dropped (h : s.phase = .lineCollect) (hc : s.cancel = false)
    (hp : popRx s = .ok (some v, u)) (hv : v = u.par.cr ∧ u.len = 0#8) :
    engineStep s = .next u := by
  rw [engineStep_lineCollect h (byteOrTimeout_of_popRx hp), lineCollectStep,
    if_neg (by simp [hc]), hp]
  exact if_pos hv

/-- R92, the bound reached. -/
theorem engineStep_lineCollect_tooLong (h : s.phase = .lineCollect) (hc : s.cancel = false)
    (hp : popRx s = .ok (some v, u)) (hv : ¬(v = u.par.cr ∧ u.len = 0#8))
    (hl : u.len = u.maxLen) :
    engineStep s = .next (complete u .tooLong u.len 0#16 false) := by
  rw [engineStep_lineCollect h (byteOrTimeout_of_popRx hp), lineCollectStep,
    if_neg (by simp [hc]), hp]
  exact (if_neg hv).trans (if_pos hl)

/-- R92, a byte of the record, which ends the `LINE` when it is the terminator. -/
theorem engineStep_lineCollect_stored (h : s.phase = .lineCollect) (hc : s.cancel = false)
    (hp : popRx s = .ok (some v, u)) (hv : ¬(v = u.par.cr ∧ u.len = 0#8))
    (hl : u.len ≠ u.maxLen) (hx : storeRecord u v = .ok x) :
    engineStep s = .next (if v = x.par.cr then complete x .ok x.len 0#16 false else x) := by
  rw [engineStep_lineCollect h (byteOrTimeout_of_popRx hp), lineCollectStep,
    if_neg (by simp [hc]), hp]
  simp only [if_neg hv, if_neg hl, hx]

end Ends

/-- Settles O28, by the level of `cancel` and the two answers of a pop of RX. -/
theorem frameHuntStepDiscardsUntilTheStart : Obligations.FrameHuntStepDiscardsUntilTheStart :=
  fun _ h => ⟨engineEnabled_frameHunt h, engineStep_frameHunt_cancel h,
    engineStep_frameHunt_none h,
    fun _ hc hne hr hget => engineStep_frameHunt_some h hc (popRx_some.mpr ⟨hne, hr, hget, rfl⟩)⟩

/-- Settles O29, by the level of `cancel`, the two answers of a pop of RX, and the tests on the
popped byte in their order: sentinel, bound, store. -/
theorem frameCollectStepCollectsUntilTheEnd : Obligations.FrameCollectStepCollectsUntilTheEnd := by
  refine fun s h => ⟨engineEnabled_frameCollect h, engineStep_frameCollect_cancel h,
    engineStep_frameCollect_none h, fun v hc hne hr hget => ?_⟩
  have hp := popRx_some.mpr ⟨hne, hr, hget, rfl⟩
  refine ⟨engineStep_frameCollect_ended h hc hp, engineStep_frameCollect_tooLong h hc hp,
    fun hv hl hcap => ?_⟩
  exact ⟨_, storedAt_put s.record s.len.toNat v,
    engineStep_frameCollect_stored h hc hp hv hl (storeRecord_ok.mpr ⟨hcap, rfl⟩)⟩

/-- Settles O30, by the level of `cancel`, the two answers of a pop of RX, and the tests on the
popped byte in their order: leading `CR`, bound, store, terminator. -/
theorem lineCollectStepCollectsUntilCr : Obligations.LineCollectStepCollectsUntilCr := by
  refine fun s h => ⟨?_, engineStep_lineCollect_cancel h, engineStep_lineCollect_none h,
    fun v hc hne hr hget => ?_⟩
  · rw [engineEnabled_lineCollect h, byteOrTimeout_iff]
  have hp := popRx_some.mpr ⟨hne, hr, hget, rfl⟩
  refine ⟨fun hv hl => ?_, fun hv hl => ?_, fun hv hl hcap => ?_, fun hv h0 hl hcap => ?_⟩
  · exact engineStep_lineCollect_dropped h hc hp ⟨hv, hl⟩
  · exact engineStep_lineCollect_tooLong h hc hp (not_and_or.mpr hv) hl
  · have hstep := engineStep_lineCollect_stored h hc hp (fun hcr => hv hcr.1) hl
      (storeRecord_ok.mpr ⟨hcap, rfl⟩)
    rw [if_neg hv] at hstep
    exact ⟨_, storedAt_put s.record s.len.toNat v, hstep⟩
  · have hstep := engineStep_lineCollect_stored h hc hp (fun hcr => h0 hcr.2) hl
      (storeRecord_ok.mpr ⟨hcap, rfl⟩)
    rw [if_pos hv] at hstep
    exact ⟨_, storedAt_put s.record s.len.toNat v, hstep⟩

end Sys2Proof.Machine
end

section
/-! Decoding and encoding are inverse (sections 1 and 3 of 30_encoding.md), and the bits of a response
word (R55, R99). -/

namespace Sys2Proof

/-- The encoder's word of every instruction selects the instruction's row, or strobes its port. -/
theorem rowWord (i : Instr) : Laws.RowWord.Statement i := by
  cases i with
  | nop => exact Laws.RowWord.nop
  | pop => exact Laws.RowWord.pop
  | avail r => exact Laws.RowWord.avail r
  | flush => exact Laws.RowWord.flush
  | recv t => exact Laws.RowWord.recv t
  | frame m => exact Laws.RowWord.frame m
  | line m t => exact Laws.RowWord.line m t
  | rdrec k => exact Laws.RowWord.rdrec k
  | send b => exact Laws.RowWord.send b
  | clrovf r => exact Laws.RowWord.clrovf r
  | illegalOp9 rest => exact Laws.RowWord.illegalOp9 rest
  | illegalOpB rest => exact Laws.RowWord.illegalOpB rest
  | illegalOpCF op rest => exact Laws.RowWord.illegalOpCF op rest
  | rxev b => exact Laws.RowWord.rxev b
  | txev => exact Laws.RowWord.txev
  | tick => exact Laws.RowWord.tick
  | reset => exact Laws.RowWord.reset

@[simp] theorem ringOfBit_bitOfRing (r : RingSel) : ringOfBit (bitOfRing r) = r := by
  cases r <;> rfl

theorem bitOfRing_ringOfBit (b : BitVec 1) : bitOfRing (ringOfBit b) = b := by
  revert b
  decide

/-- The operands that the encoder puts in a word are those the decoder reads from it. -/
theorem withFields_of_encode {i : Instr} {w : Word} (h : encode i = .command w) :
    i.withFields w = i := by
  cases i <;> cases h <;>
    simp [Instr.withFields, cmdFields_packCmd, cmdFields_op_reserved]

/-- Settles O1: the word selects the row of `i`, so it decodes to `i` with the operands it carries. -/
theorem decodeOfEncodeIsTheInstruction : Obligations.DecodeOfEncodeIsTheInstruction := by
  intro i hwf
  have hrow := rowWord i hwf
  cases he : encode i with
  | command w =>
    cases ha : rowBits i with
    | none => simp [he, ha] at hrow
    | some a =>
      simp only [he, ha] at hrow
      rw [decode, decodeCommand_of_selects ha hrow, withFields_of_encode he]
  | event e =>
    cases ha : rowBits i with
    | none =>
      simp only [he, ha] at hrow
      exact hrow
    | some a => simp [he, ha] at hrow

theorem cmdWord_of_cmdFields {w : Word} {op : BitVec 4} {r : BitVec 1} {imm8 : BitVec 8}
    {imm16 : BitVec 16} (h : cmdFields w = ⟨op, 0#3, r, imm8, imm16⟩) :
    cmdWord op r imm8 imm16 = .command w := by
  rw [cmdWord, ← h, packCmd_cmdFields]

theorem reservedWord_of_op {w : Word} {op : BitVec 4} (h : (cmdFields w).op = op) :
    reservedWord op (w.extractLsb' 0 28) = .command w := by
  subst h
  refine congrArg PortWord.command (BitVec.eq_of_getLsbD_eq fun i hi => ?_)
  simp only [getLsbD_op_rest, cmdFields, BitVec.getLsbD_extractLsb']
  split_ifs with h28
  · simp [h28]
  · simp [show i - 28 < 4 by omega, show 28 + (i - 28) = i by omega]

/-- A row's instruction, with the operands read from a word that meets the row, is well formed and
encodes to that word. -/
theorem encode_withFields {w : Word} {i : Instr} (h : i.fieldsFixed (cmdFields w)) :
    (i.withFields w).wf = true ∧ encode (i.withFields w) = .command w := by
  cases i
  case rxev | txev | tick | reset => exact h.elim
  case illegalOp9 | illegalOpB => exact ⟨rfl, reservedWord_of_op h⟩
  case illegalOpCF =>
    refine ⟨?_, reservedWord_of_op rfl⟩
    have hop : ∀ op : BitVec 4, op &&& 0xC#4 = 0xC#4 → 12 ≤ op.toNat := by decide
    exact decide_eq_true (hop _ h)
  all_goals
    refine ⟨rfl, cmdWord_of_cmdFields ?_⟩
    rw [Instr.fieldsFixed] at h
    generalize cmdFields w = f at h ⊢
    obtain ⟨op, z, r, imm8, imm16⟩ := f
    simpa [bitOfRing_ringOfBit] using h

/-- The bits of an RX event word: its strobe above its data. -/
theorem strobe_append_data (w : BitVec 9) :
    (w.extractLsb' 8 1 ++ w.extractLsb' 0 8 : BitVec 9) = w := by
  refine BitVec.eq_of_getLsbD_eq fun i hi => ?_
  show BitVec.getLsbD (w := 1 + 8) (w.extractLsb' 8 1 ++ w.extractLsb' 0 8) i = _
  rw [BitVec.getLsbD_append]
  interval_cases i <;> simp

/-- An event port's bits that carry an event are the encoding of that event. -/
theorem encode_of_decodeEvent {e : EventWord} {i : Instr} (h : decodeEvent e = .ok i) :
    i.wf = true ∧ encode i = .event e := by
  cases e with
  | rx w =>
    rw [decodeEvent] at h
    split at h <;> cases h
    rename_i hs
    rw [encode, ← hs, strobe_append_data]
    exact ⟨rfl, rfl⟩
  | tx w | tick w | reset w =>
    rw [decodeEvent] at h
    split at h <;> cases h
    rename_i hs
    rw [hs]
    exact ⟨rfl, rfl⟩

/-- Settles O2: the decoder reads the operands of the row that fixes the word's other fields. -/
theorem encodeOfDecodeIsTheWord : Obligations.EncodeOfDecodeIsTheWord := by
  rintro (w | e) i h
  · obtain he | ⟨j, hj, hfix⟩ := rejectedOrFixed_decodeCommand w
    · cases (show decodeCommand w = .ok i from h).symm.trans he
    · cases (show decodeCommand w = .ok i from h).symm.trans hj
      have hi : i.withFields w = i :=
        Except.ok.inj ((decodeCommand_of_fieldsFixed hfix).symm.trans hj)
      have henc := encode_withFields hfix
      rwa [hi] at henc
  · exact encode_of_decodeEvent h

end Sys2Proof

namespace Sys2Proof.Machine

theorem getLsbD_flagBit (b : Bool) : (flagBit b).getLsbD 0 = b := by
  cases b <;> rfl

/-- A response word by its bit positions (R55). -/
theorem getLsbD_rspWord (st : Status) (x y cn : Bool) (len : BitVec 8) (val : BitVec 16) (i : Nat) :
    (rspWord st x y cn len val).getLsbD i =
      if i < 16 then val.getLsbD i else if i < 24 then len.getLsbD (i - 16)
      else if i < 25 then (0#1).getLsbD (i - 24) else if i < 26 then (flagBit cn).getLsbD (i - 25)
      else if i < 27 then (flagBit y).getLsbD (i - 26)
      else if i < 28 then (flagBit x).getLsbD (i - 27) else (statusCode st).getLsbD (i - 28) := by
  show BitVec.getLsbD (w := 4 + 1 + 1 + 1 + 1 + 8 + 16)
    (statusCode st ++ flagBit x ++ flagBit y ++ flagBit cn ++ 0#1 ++ len ++ val) i = _
  simp only [BitVec.getLsbD_append, Nat.sub_sub]
  split_ifs
  any_goals rfl
  all_goals omega

/-- The fields of more than one bit (R55). -/
theorem extractLsb'_rspWord (st : Status) (x y cn : Bool) (len : BitVec 8) (val : BitVec 16) :
    (rspWord st x y cn len val).extractLsb' 28 4 = statusCode st ∧
      (rspWord st x y cn len val).extractLsb' 16 8 = len ∧
      (rspWord st x y cn len val).extractLsb' 0 16 = val := by
  refine ⟨?_, ?_, ?_⟩ <;>
    (refine BitVec.eq_of_getLsbD_eq fun i hi => ?_
     rw [BitVec.getLsbD_extractLsb', getLsbD_rspWord])
  · simp (disch := omega) only [hi, decide_true, Bool.true_and, if_neg, Nat.add_sub_cancel_left]
  · simp (disch := omega) only [hi, decide_true, Bool.true_and, if_neg, if_pos,
      Nat.add_sub_cancel_left]
  · simp only [hi, decide_true, Bool.true_and, Nat.zero_add, if_pos]

/-- Settles O6: the word's layout, the numbers of R99, and `respond` as it is defined. -/
theorem responseWordLayout : Obligations.ResponseWordLayout := by
  refine ⟨fun st x y cn len val => ?_, by decide, fun _ _ _ _ _ => rfl⟩
  obtain ⟨hst, hlen, hval⟩ := extractLsb'_rspWord st x y cn len val
  have hbit := getLsbD_rspWord st x y cn len val
  exact ⟨hst, (hbit 27).trans (getLsbD_flagBit x), (hbit 26).trans (getLsbD_flagBit y),
    (hbit 25).trans (getLsbD_flagBit cn), hbit 24, hlen, hval⟩

/-- Settles O4: each word's row, and the operands in its fields. -/
theorem sampleWordsDecode : Obligations.SampleWordsDecode := by
  refine ⟨?_, ?_, ?_, ?_, ?_, ?_, ?_, ?_, ?_, ?_, ?_⟩ <;> rfl

end Sys2Proof.Machine
end

section
/-! The effect of an instruction and of an engine step, one case per way of answering a next state,
with that state written out. -/

namespace Sys2Proof.Machine

/-- `s` with the oldest byte of RX taken (R62). -/
@[simp] def rxPopped (s : State) : State :=
  { s with rx := { s.rx with rp := nextIndex s.par.rxCap s.rx.rp } }

/-- `s` with a byte stored in RX (R61). -/
@[simp] def rxPushed (s : State) (b : Byte) : State :=
  { s with rx := { s.rx with
    buf := Mem.put s.rx.buf s.rx.wp b, wp := nextIndex s.par.rxCap s.rx.wp } }

/-- `s` with the oldest byte of TX taken (R62). -/
@[simp] def txPopped (s : State) : State :=
  { s with tx := { s.tx with rp := nextIndex s.par.txCap s.tx.rp } }

/-- `s` with a byte stored in TX (R61). -/
@[simp] def txPushed (s : State) (b : Byte) : State :=
  { s with tx := { s.tx with
    buf := Mem.put s.tx.buf s.tx.wp b, wp := nextIndex s.par.txCap s.tx.wp } }

/-- `s` with a byte stored in the record (R89, R92). -/
@[simp] def recorded (s : State) (b : Byte) : State :=
  { s with record := Mem.put s.record s.len.toNat b, len := s.len + 1#8 }

/-- What an instruction that answers a next state does. -/
inductive ExecEffect (s : State) : Instr → State → Prop
  | busy (i : Instr) (hi : isCommand i = true) (hp : s.phase ≠ .idle) : ExecEffect s i s
  | reported (i : Instr) (st : Status) (v : BitVec 16) (hp : s.phase = .idle)
      (hi : isCommand i = true) (hr : ∀ d, i ≠ .recv d) :
      ExecEffect s i (respond s st 0#8 v false)
  | popped (v : Byte) (hp : s.phase = .idle) (hv : popRx s = .ok (some v, rxPopped s)) :
      ExecEffect s .pop (respond (rxPopped s) .ok 0#8 (byteVal v) false)
  | flushed (hp : s.phase = .idle) : ExecEffect s .flush (respond (flushRx s) .ok 0#8 0#16 false)
  | cleared (r : RingSel) (hp : s.phase = .idle) :
      ExecEffect s (.clrovf r) (respond (clearOvf s r) .ok 0#8 0#16 false)
  | receives (d : BitVec 16) (hp : s.phase = .idle) :
      ExecEffect s (.recv d) { s with cnt := d, phase := .recvWait }
  | hunts (m : BitVec 8) (hp : s.phase = .idle) (hm : boundOk s m = true) :
      ExecEffect s (.frame m) { s with maxLen := m, len := 0#8, phase := .frameHunt }
  | scans (m : BitVec 8) (d : BitVec 16) (hp : s.phase = .idle) (hm : boundOk s m = true) :
      ExecEffect s (.line m d) { s with maxLen := m, len := 0#8, cnt := d, phase := .lineCollect }
  | queued (b : Byte) (hp : s.phase = .idle) (hq : s.par.txQueued = true) (hg : handOver s = true)
      (hb : handByte s b = .ok (txPushed s b)) :
      ExecEffect s (.send b) (respond (txPushed s b) .ok 0#8 0#16 false)
  | sent (b : Byte) (hp : s.phase = .idle) (hq : s.par.txQueued = false) :
      ExecEffect s (.send b) (respond (emit s b) .ok 0#8 0#16 false)
  | waits (b : Byte) (hp : s.phase = .idle) :
      ExecEffect s (.send b) { s with sByte := b, phase := .sendWait }
  | dropped (b : Byte) (hf : s.rx.full s.par.rxCap = true) :
      ExecEffect s (.rxev b) { s with rx := { s.rx with ovf := true } }
  | pushed (b : Byte) (hf : s.rx.full s.par.rxCap = false)
      (hb : pushRx s b = .ok (rxPushed s b)) : ExecEffect s (.rxev b) (rxPushed s b)
  | silent (he : s.par.txQueued = true → s.tx.rp = s.tx.wp) : ExecEffect s .txev s
  | emitted (v : Byte) (hq : s.par.txQueued = true) (hv : popTx s = .ok (some v, txPopped s)) :
      ExecEffect s .txev (emit (txPopped s) v)
  | expired (hz : s.cnt = 0#16) : ExecEffect s .tick s
  | ticked (hz : s.cnt ≠ 0#16) : ExecEffect s .tick { s with cnt := s.cnt - 1#16 }
  | reset : ExecEffect s .reset (resetBlock s)

/-- What an engine step that answers a next state does. -/
inductive EngineEffect (s : State) : State → Prop
  | held : EngineEffect s s
  | ended (st : Status) (l : BitVec 8) (v : BitVec 16) (cn : Bool) (hp : s.phase ≠ .idle) :
      EngineEffect s (complete s st l v cn)
  | queued (hp : s.phase = .sendWait) (hq : s.par.txQueued = true) (hg : handOver s = true)
      (hb : handByte s s.sByte = .ok (txPushed s s.sByte)) :
      EngineEffect s (complete (txPushed s s.sByte) .ok 0#8 0#16 false)
  | sent (hp : s.phase = .sendWait) (hq : s.par.txQueued = false) :
      EngineEffect s (complete (emit s s.sByte) .ok 0#8 0#16 false)
  | poppedLast (b : Byte) (st : Status) (l : BitVec 8) (v : BitVec 16) (cn : Bool)
      (hp : s.phase = .recvWait ∨ s.phase = .frameHunt ∨ s.phase = .frameCollect ∨
        s.phase = .lineCollect) (hv : popRx s = .ok (some b, rxPopped s)) :
      EngineEffect s (complete (rxPopped s) st l v cn)
  | started (b : Byte) (hp : s.phase = .frameHunt) (hv : popRx s = .ok (some b, rxPopped s)) :
      EngineEffect s { rxPopped s with phase := .frameCollect }
  | discarded (b : Byte)
      (hp : s.phase = .frameHunt ∨ s.phase = .frameCollect ∨ s.phase = .lineCollect)
      (hv : popRx s = .ok (some b, rxPopped s)) : EngineEffect s (rxPopped s)
  | stored (b : Byte) (hp : s.phase = .frameCollect ∨ s.phase = .lineCollect)
      (hv : popRx s = .ok (some b, rxPopped s)) (hl : s.len ≠ s.maxLen)
      (hx : storeRecord (rxPopped s) b = .ok (recorded (rxPopped s) b)) :
      EngineEffect s (recorded (rxPopped s) b)
  | storedLast (b : Byte) (hp : s.phase = .frameCollect ∨ s.phase = .lineCollect)
      (hv : popRx s = .ok (some b, rxPopped s)) (hl : s.len ≠ s.maxLen)
      (hx : storeRecord (rxPopped s) b = .ok (recorded (rxPopped s) b)) :
      EngineEffect s (complete (recorded (rxPopped s) b) .ok (s.len + 1#8) 0#16 false)

theorem eq_rxPopped {s u : State} {v : Byte} (h : popRx s = .ok (some v, u)) : u = rxPopped s := by
  obtain ⟨-, -, -, hu⟩ := popRx_some.mp h
  exact hu

theorem eq_txPopped {s u : State} {v : Byte} (h : popTx s = .ok (some v, u)) : u = txPopped s := by
  obtain ⟨-, -, -, hu⟩ := popTx_some.mp h
  exact hu

theorem eq_recorded {s x : State} {b : Byte} (h : storeRecord s b = .ok x) : x = recorded s b :=
  (storeRecord_ok.mp h).2

/-- A command is held outside `IDLE` (R50, log 12). -/
theorem exec_busy {i : Instr} {s : State} (hc : isCommand i = true) (hp : s.phase ≠ .idle) :
    exec i s = .next s := by
  cases i
  case rxev | txev | tick | reset => cases hc
  all_goals exact whenReady_busy _ hp

theorem exec_effect {i : Instr} {s t : State} (h : exec i s = .next t) : ExecEffect s i t := by
  cases hc : isCommand i
  · obtain ⟨b, rfl, hb⟩ | ⟨rfl, he, rfl⟩ | ⟨rfl, hq, v, u, hv, rfl⟩ | ⟨rfl, hz, rfl⟩ |
      ⟨rfl, hz, rfl⟩ | ⟨rfl, rfl⟩ := exec_event_cases hc h
    · obtain ⟨hf, rfl⟩ | ⟨hf, -, rfl⟩ := pushRx_cases hb
      · exact .dropped b hf
      · exact .pushed b hf hb
    · exact .silent he
    · cases eq_txPopped hv
      exact .emitted v hq hv
    · exact .expired hz
    · exact .ticked hz
    · exact .reset
  · by_cases hp : s.phase = .idle
    · obtain ⟨⟨-, -, hr, -⟩, st, v, rfl⟩ | ⟨rfl, v, u, hv, rfl⟩ | ⟨rfl, rfl⟩ |
        ⟨r, rfl, rfl⟩ | ⟨d, rfl, rfl⟩ | ⟨m, rfl, hm, rfl⟩ | ⟨m, d, rfl, hm, rfl⟩ |
        ⟨b, u, rfl, hg, hb, rfl⟩ | ⟨b, rfl, -, rfl⟩ :=
        exec_command_cases hc hp h
      · exact .reported i st v hp hc hr
      · cases eq_rxPopped hv
        exact .popped v hp hv
      · exact .flushed hp
      · exact .cleared r hp
      · exact .receives d hp
      · exact .hunts m hp hm
      · exact .scans m d hp hm
      · obtain ⟨hq, -, -, rfl⟩ | ⟨hq, rfl⟩ := handByte_cases hg hb
        · exact .queued b hp hq hg hb
        · exact .sent b hp hq
      · exact .waits b hp
    · cases (exec_busy hc hp).symm.trans h
      exact .busy i hc hp

theorem engine_effect {s t : State} (h : engineStep s = .next t) : EngineEffect s t := by
  obtain rfl | ⟨hp, st, l, v, cn, rfl⟩ | ⟨hp, hg, u, hb, rfl⟩ | ⟨b, u, hv, hp, hend⟩ :=
    engineStep_cases h
  · exact .held
  · exact .ended st l v cn hp
  · obtain ⟨hq, -, -, rfl⟩ | ⟨hq, rfl⟩ := handByte_cases hg hb
    · exact .queued hp hq hg hb
    · exact .sent hp hq
  · cases eq_rxPopped hv
    obtain ⟨st, l, v, cn, rfl⟩ | ⟨hp, -, rfl⟩ | ⟨hr, rfl⟩ | ⟨hp, hl, x, hx, hend⟩ := hend
    · exact .poppedLast b st l v cn hp hv
    · exact .started b hp hv
    · exact .discarded b (hp.resolve_left hr) hv
    · cases eq_recorded hx
      obtain rfl | rfl := hend
      · exact .stored b hp hv hl hx
      · exact .storedLast b hp hv hl hx

/-- What a step leaves of the block before an instruction or the engine runs: everything but the
schedule, the poller's words, the input levels and the count of free values. -/
structure SameBlock (s u : State) : Prop where
  par : u.par = s.par
  rx : u.rx = s.rx
  tx : u.tx = s.tx
  phase : u.phase = s.phase
  maxLen : u.maxLen = s.maxLen
  len : u.len = s.len
  record : u.record = s.record
  txout : u.txout = s.txout
  rspout : u.rspout = s.rspout

theorem sameBlock_nextAction (s : State) : SameBlock s (nextAction s).state := by
  rw [nextAction_frame]
  constructor <;> rfl

/-- What a step that answers a next state does, to a state with the block of the one before. -/
inductive StepEffect (s t : State) : Prop
  | instr (i : Instr) (u : State) (hn : nextAction s = .instr i u) (hu : SameBlock s u)
      (he : ExecEffect u i t)
  | illegal (u : State) (hu : SameBlock s u) (hp : u.phase = .idle)
      (ht : t = respond u .illegal 0#8 0#16 false)
  | engine (u : State) (hn : nextAction s = .engine u) (hu : SameBlock s u) (he : EngineEffect u t)
  | held (hu : SameBlock s t)

theorem step_effect {s t : State} (h : step s = .next t) : StepEffect s t := by
  have hb := sameBlock_nextAction s
  obtain ⟨i, u, hn, he⟩ | ⟨u, hn, he⟩ | ⟨u, hn, he⟩ | hn := step_cases h <;> rw [hn] at hb
  · exact .instr i u hn hb (exec_effect he)
  · obtain ⟨-, rfl⟩ | ⟨hp, rfl⟩ := acceptIllegal_cases he
    · exact .held hb
    · exact .illegal u hb hp rfl
  · exact .engine u hn hb (engine_effect he)
  · exact .held hb

end Sys2Proof.Machine
end

section
/-! The invariant: the state after reset has it, every operation keeps it, and under it nothing
faults. -/

namespace Sys2Proof.Machine

theorem inv_respond {s : State} (st : Status) (l : BitVec 8) (v : BitVec 16) (cn : Bool)
    (h : s.inv) : (respond s st l v cn).inv := h

theorem inv_emit {s : State} (b : Byte) (h : s.inv) : (emit s b).inv := h

/-- Outside the framed phases the invariant asks nothing of `MAXLEN`. -/
theorem inv_enter {s : State} {p : Phase} (c : BitVec 16) (b : Byte) (h : s.inv)
    (hp : p = .idle ∨ p = .recvWait ∨ p = .sendWait) :
    ({ s with cnt := c, sByte := b, phase := p } : State).inv := by
  obtain ⟨hpar, hrx, htx, hrec, -, hovf⟩ := h
  refine ⟨hpar, hrx, htx, hrec, ?_, hovf⟩
  rcases hp with rfl | rfl | rfl <;> simp [boundedPhase]

theorem inv_complete {s : State} (st : Status) (l : BitVec 8) (v : BitVec 16) (cn : Bool)
    (h : s.inv) : (complete s st l v cn).inv :=
  inv_enter (s := s) s.cnt s.sByte h (.inl rfl)

/-- A `FRAME` or `LINE` starts with an empty record and a bound in range (R87, R91). -/
theorem inv_start {s : State} {m : BitVec 8} (c : BitVec 16) (p : Phase) (h : s.inv)
    (hm : boundOk s m = true) :
    ({ s with maxLen := m, len := 0#8, cnt := c, phase := p } : State).inv := by
  obtain ⟨hpar, hrx, htx, ⟨-, hfits, -⟩, -, hovf⟩ := h
  simp only [boundOk, Bool.and_eq_true, decide_eq_true_eq] at hm
  exact ⟨hpar, hrx, htx, ⟨by simp, hfits, by simp⟩, ⟨fun _ => ⟨hm.1, hm.2, by simp⟩, fun _ => rfl⟩,
    hovf⟩

theorem inv_of_rx {s : State} {q : RingBuf} (h : s.inv) (hq : q.ok s.par.rxCap) :
    ({ s with rx := q } : State).inv := by
  obtain ⟨hpar, -, htx, hrec, hbound, hovf⟩ := h
  exact ⟨hpar, hq, htx, hrec, hbound, hovf⟩

theorem inv_of_tx {s : State} {q : RingBuf} (h : s.inv) (hq : q.ok s.par.txCap)
    (hovf : q.ovf = false) : ({ s with tx := q } : State).inv := by
  obtain ⟨hpar, hrx, -, hrec, hbound, -⟩ := h
  exact ⟨hpar, hrx, hq, hrec, hbound, hovf⟩

theorem inv_popRx {s u : State} {o : Option Byte} (h : s.inv) (hp : popRx s = .ok (o, u)) :
    u.inv := by
  obtain ⟨q, hq, rfl⟩ := popRx_ok.mp hp
  exact inv_of_rx h (RingBuf.ok_pop h.1.1 h.2.1 hq)

theorem inv_pushRx {s u : State} {b : Byte} (h : s.inv) (hp : pushRx s b = .ok u) : u.inv := by
  obtain ⟨q, hq, rfl⟩ := pushRx_ok.mp hp
  exact inv_of_rx h (RingBuf.ok_push h.1.1 h.2.1 hq)

theorem inv_popTx {s u : State} {v : Byte} (h : s.inv) (hp : popTx s = .ok (some v, u)) :
    u.inv := by
  obtain ⟨⟨-, -, hcap, -⟩, -, htx, -, -, hovf⟩ := id h
  obtain ⟨q, hq, rfl⟩ := popTx_ok.mp hp
  obtain ⟨-, hn, -⟩ | ⟨-, -, -, -, -, hq'⟩ := RingBuf.pop_ok.mp hq
  · cases hn
  · exact inv_of_tx h (RingBuf.ok_pop hcap htx hq) (by rw [hq']; exact hovf)

/-- A byte handed over under its guard goes to a TX with room, so the flag of TX stays 0 (R75). -/
theorem inv_handByte {s u : State} {b : Byte} (h : s.inv) (hg : handOver s = true)
    (hb : handByte s b = .ok u) : u.inv := by
  obtain ⟨⟨-, -, hcap, -⟩, -, htx, -, -, hovf⟩ := id h
  obtain ⟨-, hf, hw, rfl⟩ | ⟨-, rfl⟩ := handByte_cases hg hb
  · exact inv_of_tx h (RingBuf.ok_push (sp := .txBuf) hcap htx (RingBuf.push_room b hf hw)) hovf
  · exact inv_emit b h

/-- The length of a record with room, after a store. -/
theorem toNat_len_succ {s : State} (h : s.inv)
    (hp : s.phase = .frameCollect ∨ s.phase = .lineCollect) (hl : s.len ≠ s.maxLen) :
    (s.len + 1#8).toNat = s.len.toNat + 1 ∧ s.len.toNat < s.maxLen.toNat ∧
      s.maxLen.toNat ≤ s.par.destCap := by
  obtain ⟨-, -, -, -, ⟨hbound, -⟩, -⟩ := h
  obtain ⟨-, hcap, hle⟩ := hbound (.inr hp)
  have hlt : s.len.toNat < s.maxLen.toNat := lt_of_le_of_ne hle (mt BitVec.eq_of_toNat_eq hl)
  refine ⟨?_, hlt, hcap⟩
  have hmax := s.maxLen.isLt
  rw [BitVec.toNat_add, show (1#8).toNat = 1 from rfl, Nat.mod_eq_of_lt (by omega)]

/-- A store below the bound keeps `LEN` within it, and writes the cell `LEN` passes (R89, R92). -/
theorem inv_storeRecord {s x : State} {b : Byte} (h : s.inv)
    (hp : s.phase = .frameCollect ∨ s.phase = .lineCollect) (hl : s.len ≠ s.maxLen)
    (hx : storeRecord s b = .ok x) : x.inv := by
  obtain ⟨hsucc, hlt, hcap⟩ := toNat_len_succ h hp hl
  obtain ⟨hpar, hrx, htx, ⟨-, hfits, hwritten⟩, ⟨hbound, -⟩, hovf⟩ := h
  obtain ⟨hin, rfl⟩ := storeRecord_ok.mp hx
  refine ⟨hpar, hrx, htx, ⟨?_, Mem.fits_put b hfits hin, fun i hi => ?_⟩, ⟨fun hp' => ?_, ?_⟩, hovf⟩
  · show (s.len + 1#8).toNat ≤ s.par.destCap
    omega
  · have hi' : i < s.len.toNat + 1 := hsucc ▸ hi
    refine Mem.isSome_get_put _ _ _ _ ?_
    by_cases he : i = s.len.toNat
    · exact .inl he
    · exact .inr (hwritten i (by omega))
  · refine ⟨(hbound hp').1, hcap, ?_⟩
    show (s.len + 1#8).toNat ≤ s.maxLen.toNat
    omega
  · intro hh
    obtain hp | hp := hp <;> cases hp.symm.trans hh

theorem inv_rxOvf {s : State} (b : Bool) (h : s.inv) :
    ({ s with rx := { s.rx with ovf := b } } : State).inv :=
  inv_of_rx h h.2.1

theorem inv_clearOvf {s : State} (r : RingSel) (h : s.inv) : (clearOvf s r).inv := by
  cases r with
  | rx => exact inv_rxOvf false h
  | tx => exact inv_of_tx h h.2.2.1 rfl

/-- A block with the reset values of R31 meets the invariant. -/
theorem inv_of_atReset {s : State} (hpar : s.par.wf) (hrx : s.rx = RingBuf.atReset)
    (htx : s.tx = RingBuf.atReset) (hp : s.phase = .idle) (hlen : s.len = 0#8)
    (hrec : s.record = []) : s.inv := by
  obtain ⟨hrxCap, -, htxCap, -⟩ := id hpar
  refine ⟨hpar, ?_, ?_, ⟨?_, ?_, ?_⟩, ?_, ?_⟩
  · exact hrx ▸ RingBuf.ok_atReset (by omega)
  · exact htx ▸ RingBuf.ok_atReset (by omega)
  · simp [hlen]
  · rw [hrec]
    exact ⟨rfl, by simp⟩
  · simp [hlen]
  · simp [boundedPhase, hp]
  · rw [htx]
    rfl

theorem inv_of_sameBlock {s u : State} (h : s.inv) (hu : SameBlock s u) : u.inv := by
  obtain ⟨hpar, hrx, htx, hphase, hmax, hlen, hrec, -, -⟩ := hu
  simpa only [State.inv, recordOk, boundedPhase, hpar, hrx, htx, hphase, hmax, hlen, hrec] using h

theorem inv_execEffect {s t : State} {i : Instr} (h : s.inv) (he : ExecEffect s i t) : t.inv := by
  cases he with
  | busy | silent | expired => exact h
  | reported => exact inv_respond _ _ _ _ h
  | popped v hp hv => exact inv_respond _ _ _ _ (inv_popRx h hv)
  | flushed => exact inv_respond _ _ _ _ (inv_of_rx h (RingBuf.ok_flush h.2.1))
  | cleared r => exact inv_respond _ _ _ _ (inv_clearOvf r h)
  | receives d => exact inv_enter (s := s) d s.sByte h (.inr (.inl rfl))
  | hunts m hp hm => exact inv_start (s := s) s.cnt .frameHunt h hm
  | scans m d hp hm => exact inv_start d .lineCollect h hm
  | queued b hp hq hg hb => exact inv_respond _ _ _ _ (inv_handByte h hg hb)
  | sent b => exact inv_respond _ _ _ _ (inv_emit b h)
  | waits b => exact inv_enter (s := s) s.cnt b h (.inr (.inr rfl))
  | dropped => exact inv_rxOvf true h
  | pushed b hf hb => exact inv_pushRx h hb
  | emitted v hq hv => exact inv_emit v (inv_popTx h hv)
  | ticked => exact h
  | reset => exact inv_of_atReset h.1 rfl rfl rfl rfl rfl

/-- The start of the collection: what the hunt's bound asks, the collection's asks too. -/
theorem inv_startCollect {s : State} (h : s.inv) (hp : s.phase = .frameHunt) :
    ({ s with phase := .frameCollect } : State).inv := by
  obtain ⟨hpar, hrx, htx, hrec, ⟨hbound, -⟩, hovf⟩ := h
  exact ⟨hpar, hrx, htx, hrec, ⟨fun _ => hbound (.inl hp), by simp⟩, hovf⟩

theorem inv_engineEffect {s t : State} (h : s.inv) (he : EngineEffect s t) : t.inv := by
  cases he with
  | held => exact h
  | ended => exact inv_complete _ _ _ _ h
  | queued hp hq hg hb => exact inv_complete _ _ _ _ (inv_handByte h hg hb)
  | sent => exact inv_complete _ _ _ _ (inv_emit _ h)
  | poppedLast b st l v cn hp hv => exact inv_complete _ _ _ _ (inv_popRx h hv)
  | started b hp hv => exact inv_startCollect (inv_popRx h hv) hp
  | discarded b hp hv => exact inv_popRx h hv
  | stored b hp hv hl hx => exact inv_storeRecord (inv_popRx h hv) hp hl hx
  | storedLast b hp hv hl hx =>
    exact inv_complete _ _ _ _ (inv_storeRecord (inv_popRx h hv) hp hl hx)

theorem inv_stepEffect {s t : State} (h : s.inv) (he : StepEffect s t) : t.inv := by
  cases he with
  | instr i u hn hu he => exact inv_execEffect (inv_of_sameBlock h hu) he
  | illegal u hu hp ht =>
    subst ht
    exact inv_respond _ _ _ _ (inv_of_sameBlock h hu)
  | engine u hn hu he => exact inv_engineEffect (inv_of_sameBlock h hu) he
  | held hu => exact inv_of_sameBlock h hu

/-- Settles O33, by the effects a step can have: each operation keeps the invariant. -/
theorem everyStepKeepsTheInvariant : Obligations.EveryStepKeepsTheInvariant :=
  fun _ _ hinv hstep => inv_stepEffect hinv (step_effect hstep)

/-- Settles O32: the invariant reads the parameters and the block, and no part of the environment. -/
theorem invariantHoldsAfterReset : Obligations.InvariantHoldsAfterReset :=
  fun _ _ _ _ _ _ _ hpar => inv_of_atReset hpar rfl rfl rfl rfl rfl

end Sys2Proof.Machine
end

section
/-! What every step leaves as it is, or changes in one way only: the parameters, the streams, the
indices and flags of the rings, the phase (R16, R17, R26, R54, R75), and the frames of the
instructions and of the engine. Each is read off the effects. -/

namespace Sys2Proof.Machine

theorem ExecEffect.par {s t : State} {i : Instr} (he : ExecEffect s i t) : t.par = s.par := by
  cases he with
  | cleared r => cases r <;> rfl
  | _ => rfl

theorem EngineEffect.par {s t : State} (he : EngineEffect s t) : t.par = s.par := by
  cases he <;> rfl

/-- Settles O36: every effect writes to a state with the parameters it found. -/
theorem noStepChangesTheParameters : Obligations.NoStepChangesTheParameters := by
  intro s t hstep
  cases step_effect hstep with
  | instr i u hn hu he => exact he.par.trans hu.par
  | illegal u hu hp ht => exact (congrArg State.par ht).trans hu.par
  | engine u hn hu he => exact he.par.trans hu.par
  | held hu => exact hu.par

/-- R26: nothing appended to `txout`, or one byte. -/
def emitsAtMostOne (s t : State) : Prop := t.txout = s.txout ∨ ∃ b, t.txout = s.txout ++ [b]

/-- R26, R55, R99: nothing appended to `rspout`, or one response word. -/
def respondsAtMostOnce (s t : State) : Prop :=
  t.rspout = s.rspout ∨ ∃ w : Word, t.rspout = s.rspout ++ [w] ∧
    (w.extractLsb' 28 4).toNat ≤ 7 ∧ w.getLsbD 24 = false

/-- The word that `respond` appends has one of the eight numbers and bit 24 zero (R55, R99). -/
theorem respondsAtMostOnce_of_append {s t : State} {st : Status} {x y cn : Bool} {l : BitVec 8}
    {v : BitVec 16} (h : t.rspout = s.rspout ++ [rspWord st x y cn l v]) :
    respondsAtMostOnce s t := by
  refine .inr ⟨_, h, ?_, getLsbD_rspWord st x y cn l v 24⟩
  rw [(extractLsb'_rspWord st x y cn l v).1]
  cases st <;> decide

theorem ExecEffect.streams {s t : State} {i : Instr} (he : ExecEffect s i t) :
    emitsAtMostOne s t ∧ respondsAtMostOnce s t := by
  cases he with
  | busy | receives | hunts | scans | waits | dropped | pushed | silent | expired | ticked |
    reset =>
    exact ⟨.inl rfl, .inl rfl⟩
  | reported | popped | flushed | queued => exact ⟨.inl rfl, respondsAtMostOnce_of_append rfl⟩
  | cleared r => cases r <;> exact ⟨.inl rfl, respondsAtMostOnce_of_append rfl⟩
  | sent b => exact ⟨.inr ⟨b, rfl⟩, respondsAtMostOnce_of_append rfl⟩
  | emitted v => exact ⟨.inr ⟨v, rfl⟩, .inl rfl⟩

theorem EngineEffect.streams {s t : State} (he : EngineEffect s t) :
    emitsAtMostOne s t ∧ respondsAtMostOnce s t := by
  cases he with
  | held | started | discarded | stored => exact ⟨.inl rfl, .inl rfl⟩
  | ended | queued | poppedLast | storedLast =>
    exact ⟨.inl rfl, respondsAtMostOnce_of_append rfl⟩
  | sent => exact ⟨.inr ⟨_, rfl⟩, respondsAtMostOnce_of_append rfl⟩

/-- Settles O37: an effect emits and responds once or not at all, each time by `emit` or `respond`. -/
theorem streamsOnlyGrow : Obligations.StreamsOnlyGrow := by
  intro s t hstep
  show emitsAtMostOne s t ∧ respondsAtMostOnce s t
  cases step_effect hstep with
  | instr i u hn hu he =>
    simpa only [emitsAtMostOne, respondsAtMostOnce, hu.txout, hu.rspout] using he.streams
  | illegal u hu hp ht =>
    subst ht
    exact ⟨.inl hu.txout, respondsAtMostOnce_of_append (by rw [respond_rspout, hu.rspout])⟩
  | engine u hn hu he =>
    simpa only [emitsAtMostOne, respondsAtMostOnce, hu.txout, hu.rspout] using he.streams
  | held hu => exact ⟨.inl hu.txout, .inl hu.rspout⟩

/-- R16, on the effects of an instruction: the owner of each index and buffer. -/
theorem ExecEffect.owner {s t : State} {i : Instr} (he : ExecEffect s i t) :
    (t.rx.wp ≠ s.rx.wp ∨ t.rx.buf ≠ s.rx.buf → (∃ b, i = .rxev b) ∨ i = .reset) ∧
    (t.rx.rp ≠ s.rx.rp → i = .pop ∨ i = .flush ∨ i = .reset) ∧
    (t.tx.wp ≠ s.tx.wp ∨ t.tx.buf ≠ s.tx.buf →
      (s.par.txQueued = true ∧ ∃ b, i = .send b) ∨ i = .reset) ∧
    (t.tx.rp ≠ s.tx.rp → i = .txev ∨ i = .reset) := by
  cases he with
  | cleared r => cases r <;> simp
  | queued b hp hq => simp [hq]
  | _ => simp

/-- R16, on the effects of an engine step. -/
theorem EngineEffect.owner {s t : State} (he : EngineEffect s t) :
    t.rx.wp = s.rx.wp ∧ t.rx.buf = s.rx.buf ∧ t.tx.rp = s.tx.rp ∧
    (t.rx.rp ≠ s.rx.rp → s.phase = .recvWait ∨ s.phase = .frameHunt ∨ s.phase = .frameCollect ∨
      s.phase = .lineCollect) ∧
    (t.tx.wp ≠ s.tx.wp ∨ t.tx.buf ≠ s.tx.buf → s.par.txQueued = true ∧ s.phase = .sendWait) := by
  cases he with
  | held | ended | sent => simp
  | queued hp hq => simp [hp, hq]
  | poppedLast b st l v cn hp => simp [hp]
  | started b hp => simp [hp]
  | discarded b hp => simp [hp]
  | stored b hp | storedLast b hp => rcases hp with hp | hp <;> simp [hp]

/-- Settles O38: the effects that move an index, and the instruction or phase of each. -/
theorem onlyTheOwnerMovesAnIndex : Obligations.OnlyTheOwnerMovesAnIndex := by
  intro s t hstep
  cases step_effect hstep with
  | instr i u hn hu he =>
    obtain ⟨hrw, hrr, htw, htr⟩ := he.owner
    rw [hu.rx] at hrw hrr
    rw [hu.tx] at htw htr
    rw [hu.par] at htw
    refine ⟨fun h => ?_, fun h => ?_, fun h => ?_, fun h => ?_⟩
    · obtain ⟨b, rfl⟩ | rfl := hrw h
      · exact .inl ⟨b, u, hn⟩
      · exact .inr ⟨u, hn⟩
    · obtain rfl | rfl | rfl := hrr h
      · exact .inl ⟨u, hn⟩
      · exact .inr (.inl ⟨u, hn⟩)
      · exact .inr (.inr (.inr (.inr (.inr (.inr ⟨u, hn⟩)))))
    · obtain ⟨hq, b, rfl⟩ | rfl := htw h
      · exact .inl ⟨hq, .inl ⟨b, u, hn⟩⟩
      · exact .inr ⟨u, hn⟩
    · obtain rfl | rfl := htr h
      · exact .inl ⟨u, hn⟩
      · exact .inr ⟨u, hn⟩
  | engine u hn hu he =>
    obtain ⟨hrw, hrb, htr, hrr, htw⟩ := he.owner
    rw [hu.rx] at hrw hrb hrr
    rw [hu.tx] at htw htr
    rw [hu.par] at htw
    refine ⟨by simp [hrw, hrb], fun h => .inr (.inr ?_), fun h => ?_, by simp [htr]⟩
    · obtain hp | hp | hp | hp := hrr h
      · exact .inl ⟨u, hn, hp⟩
      · exact .inr (.inl ⟨u, hn, hp⟩)
      · exact .inr (.inr (.inl ⟨u, hn, hp⟩))
      · exact .inr (.inr (.inr (.inl ⟨u, hn, hp⟩)))
    · obtain ⟨hq, hp⟩ := htw h
      exact .inl ⟨hq, .inr ⟨u, hn, hp⟩⟩
  | illegal u hu hp ht => simp [ht, hu.rx, hu.tx]
  | held hu => simp [hu.rx, hu.tx]

/-- R17 and R75, on the effects of an instruction. -/
theorem ExecEffect.flags {s t : State} {i : Instr} (he : ExecEffect s i t) :
    (s.rx.ovf = false → t.rx.ovf = true → s.rx.full s.par.rxCap = true ∧ ∃ b, i = .rxev b) ∧
    (s.rx.ovf = true → t.rx.ovf = false → i = .clrovf .rx ∨ i = .reset) ∧
    (s.tx.ovf = false → t.tx.ovf = false) ∧
    (s.tx.ovf = true → t.tx.ovf = false → i = .clrovf .tx ∨ i = .reset) := by
  cases he with
  | cleared r => cases r <;> simp +contextual
  | dropped b hf => simp +contextual [hf]
  | reset => simp
  | _ => simp +contextual

/-- An engine step leaves both flags (R17, R75). -/
theorem EngineEffect.flags {s t : State} (he : EngineEffect s t) :
    t.rx.ovf = s.rx.ovf ∧ t.tx.ovf = s.tx.ovf := by
  cases he <;> exact ⟨rfl, rfl⟩

/-- Settles O39: the effects that write a flag; a byte handed over finds TX with room. -/
theorem overflowFlagsAreSticky : Obligations.OverflowFlagsAreSticky := by
  intro s t hstep
  cases step_effect hstep with
  | instr i u hn hu he =>
    obtain ⟨hset, hclr, htx, htxclr⟩ := he.flags
    rw [hu.rx] at hset hclr
    rw [hu.tx] at htx htxclr
    rw [hu.par] at hset
    refine ⟨fun h0 h1 => ?_, fun h0 h1 => ?_, htx, fun h0 h1 => ?_⟩
    · obtain ⟨hf, b, rfl⟩ := hset h0 h1
      exact ⟨hf, b, u, hn⟩
    · obtain rfl | rfl := hclr h0 h1
      · exact .inl ⟨u, hn⟩
      · exact .inr ⟨u, hn⟩
    · obtain rfl | rfl := htxclr h0 h1
      · exact .inl ⟨u, hn⟩
      · exact .inr ⟨u, hn⟩
  | engine u hn hu he =>
    obtain ⟨hrx, htx⟩ := he.flags
    rw [hu.rx] at hrx
    rw [hu.tx] at htx
    simp +contextual [hrx, htx]
  | illegal u hu hp ht => simp +contextual [ht, hu.rx, hu.tx]
  | held hu => simp +contextual [hu.rx, hu.tx]

/-- Back in `IDLE` with exactly one response more. -/
def answered (s t : State) : Prop := t.phase = .idle ∧ ∃ w, t.rspout = s.rspout ++ [w]

theorem answered_complete {s u : State} (st : Status) (l : BitVec 8) (v : BitVec 16) (cn : Bool)
    (h : u.rspout = s.rspout) : answered s (complete u st l v cn) :=
  ⟨rfl, _, by rw [complete_rspout, h]⟩

theorem answered_respond {s u : State} (st : Status) (l : BitVec 8) (v : BitVec 16) (cn : Bool)
    (hp : u.phase = .idle) (h : u.rspout = s.rspout) : answered s (respond u st l v cn) :=
  ⟨hp, _, by rw [respond_rspout, h]⟩

/-- R54 for an accepted command. -/
theorem ExecEffect.answers {s t : State} {i : Instr} (he : ExecEffect s i t)
    (hc : isCommand i = true) (hp : s.phase = .idle) :
    answered s t ∨ (t.phase ≠ .idle ∧ t.rspout = s.rspout) := by
  cases he with
  | busy i hi hp' => exact absurd hp hp'
  | reported | popped | flushed | queued | sent =>
    exact .inl (answered_respond _ _ _ _ hp rfl)
  | cleared r => cases r <;> exact .inl (answered_respond _ _ _ _ hp rfl)
  | receives | hunts | scans | waits => exact .inr ⟨by simp, rfl⟩
  | dropped | pushed | silent | emitted | expired | ticked | reset => cases hc

/-- R54 for an engine step outside `IDLE`. -/
theorem EngineEffect.answers {s t : State} (he : EngineEffect s t) (hp : s.phase ≠ .idle) :
    answered s t ∨ (t.phase ≠ .idle ∧ t.rspout = s.rspout) := by
  cases he with
  | held | discarded | stored => exact .inr ⟨hp, rfl⟩
  | started => exact .inr ⟨by simp, rfl⟩
  | ended | queued | sent | poppedLast | storedLast =>
    exact .inl (answered_complete _ _ _ _ rfl)

/-- R54: no event responds. -/
theorem ExecEffect.event_rspout {s t : State} {i : Instr} (he : ExecEffect s i t)
    (hc : isCommand i = false) : t.rspout = s.rspout := by
  cases he with
  | dropped | pushed | silent | emitted | expired | ticked | reset => rfl
  | busy i hi | reported i st v hp hi => cases hc.symm.trans hi
  | popped | flushed | cleared | receives | hunts | scans | queued | sent | waits => cases hc

/-- Settles O40: an effect that enters `IDLE`, or stays there, is one that responds. -/
theorem oneResponsePerAcceptedCommand : Obligations.OneResponsePerAcceptedCommand := by
  refine ⟨fun i s t hc hp h => (exec_effect h).answers hc hp, fun s t hp h => ?_,
    fun s t hp h => (engine_effect h).answers hp, fun s t hp h => ?_,
    fun i s t hc h => (exec_effect h).event_rspout hc⟩
  · cases (acceptIllegal_idle hp).symm.trans h
    exact answered_respond _ _ _ _ hp rfl
  · cases (engineStep_idle hp).symm.trans h
    rfl

/-- Settles O41, effect by effect. -/
theorem phaseTransitionsAreTheTables : Obligations.PhaseTransitionsAreTheTables := by
  constructor
  · intro s t h
    cases engine_effect h with
    | held | discarded | stored => exact .inl rfl
    | started b hp => exact .inr (.inr ⟨hp, rfl⟩)
    | ended | queued | sent | poppedLast | storedLast => exact .inr (.inl rfl)
  · intro i s t h
    cases exec_effect h with
    | busy | reported | popped | flushed | queued | sent | dropped | pushed | silent | emitted |
      expired | ticked =>
      exact .inl rfl
    | cleared r => cases r <;> exact .inl rfl
    | reset => exact .inr (.inl ⟨rfl, rfl⟩)
    | waits b hp => exact .inr (.inr ⟨hp, .inl ⟨⟨b, rfl⟩, rfl⟩⟩)
    | receives d hp => exact .inr (.inr ⟨hp, .inr (.inl ⟨⟨d, rfl⟩, rfl⟩)⟩)
    | hunts m hp => exact .inr (.inr ⟨hp, .inr (.inr (.inl ⟨⟨m, rfl⟩, rfl⟩))⟩)
    | scans m d hp => exact .inr (.inr ⟨hp, .inr (.inr (.inr ⟨⟨m, d, rfl⟩, rfl⟩))⟩)

/-- Two states with the same arrays read the same. -/
theorem sameReads_of_eq {s t : State} (hrx : t.rx.buf = s.rx.buf) (htx : t.tx.buf = s.tx.buf)
    (hrec : t.record = s.record) : sameReads s t :=
  fun j => by rw [hrx, htx, hrec]; exact ⟨rfl, rfl, rfl⟩

/-- Settles O50: these commands are held or only respond. -/
theorem reportingCommandsChangeNothing : Obligations.ReportingCommandsChangeNothing := by
  intro i s t hi h
  cases exec_effect h with
  | busy | reported => exact ⟨rfl, sameReads_of_eq rfl rfl rfl⟩
  | _ => simp [isReservedRow] at hi

/-- Settles O51: no effect of these commands stores a byte. -/
theorem ringCommandsFrame : Obligations.RingCommandsFrame := by
  refine ⟨fun i s t hi h => ?_, fun s t h => ?_, fun s t h => ?_⟩
  · cases exec_effect h with
    | busy | reported | popped | flushed => exact ⟨rfl, sameReads_of_eq rfl rfl rfl⟩
    | _ => simp at hi
  · cases exec_effect h <;> exact ⟨rfl, sameReads_of_eq rfl rfl rfl⟩
  · cases exec_effect h <;> exact ⟨rfl, sameReads_of_eq rfl rfl rfl⟩

/-- Settles O52: an acceptance loads its registers, or responds `RANGE`. -/
theorem receiveAcceptanceFrame : Obligations.ReceiveAcceptanceFrame := by
  refine ⟨fun d s t h => ?_, fun m s t h => ?_, fun m d s t h => ?_⟩
  · cases exec_effect h with
    | busy | receives => exact ⟨rfl, sameReads_of_eq rfl rfl rfl⟩
    | reported i st v hp hi hr => exact absurd rfl (hr d)
  · cases exec_effect h <;> exact ⟨rfl, sameReads_of_eq rfl rfl rfl⟩
  · cases exec_effect h <;> exact ⟨rfl, sameReads_of_eq rfl rfl rfl⟩

/-- Settles O53, by the mode: a store at `TX.wp`, a byte emitted, or the latch. -/
theorem sendFrame : Obligations.SendFrame := by
  intro b s t h
  cases exec_effect h with
  | busy | reported | waits => exact ⟨rfl, fun _ _ => rfl, fun _ => rfl, fun _ => rfl⟩
  | queued b hp hq => exact ⟨rfl, fun _ hj => Mem.get_put_ne _ b hj, by simp [hq], fun _ => rfl⟩
  | sent b hp hq => exact ⟨rfl, fun _ _ => rfl, fun _ => rfl, by simp [hq]⟩

/-- Settles O54, by the effects of each event. -/
theorem eventsFrame : Obligations.EventsFrame := by
  refine ⟨fun b s t h => ?_, fun s t h => ?_, fun s t h => ?_⟩
  · cases exec_effect h with
    | dropped => exact ⟨rfl, fun _ _ => rfl⟩
    | pushed => exact ⟨rfl, fun _ hj => Mem.get_put_ne _ b hj⟩
    | busy i hi | reported i st v hp hi => cases hi
  · cases exec_effect h with
    | silent | emitted => exact ⟨rfl, sameReads_of_eq rfl rfl rfl⟩
    | busy i hi | reported i st v hp hi => cases hi
  · cases exec_effect h with
    | expired | ticked => exact ⟨rfl, sameReads_of_eq rfl rfl rfl⟩
    | busy i hi | reported i st v hp hi => cases hi

/-- Settles O55: `resetBlock` writes none of these fields. -/
theorem resetFrame : Obligations.ResetFrame := by
  rintro s t ⟨⟩
  simp

/-- Settles O56: a store is at `TX.wp` in `SEND_WAIT` and at `REC[LEN]` in the collecting phases. -/
theorem engineFrame : Obligations.EngineFrame := by
  intro s t h
  cases engine_effect h with
  | held | ended =>
    exact ⟨rfl, fun _ _ => rfl, fun _ _ => rfl, fun _ => ⟨rfl, rfl⟩, fun _ => ⟨rfl, rfl, rfl⟩,
      fun _ => ⟨rfl, rfl⟩⟩
  | queued hp =>
    exact ⟨rfl, fun _ hj => Mem.get_put_ne _ _ hj, fun _ _ => rfl, fun hne => absurd hp hne,
      fun _ => ⟨rfl, rfl, rfl⟩, fun _ => ⟨rfl, rfl⟩⟩
  | sent hp =>
    exact ⟨rfl, fun _ _ => rfl, fun _ _ => rfl, fun hne => absurd hp hne,
      fun _ => ⟨rfl, rfl, rfl⟩, fun _ => ⟨rfl, rfl⟩⟩
  | poppedLast b st l v cn hp =>
    exact ⟨rfl, fun _ _ => rfl, fun _ _ => rfl, fun _ => ⟨rfl, rfl⟩,
      fun hs => by simp [hs] at hp, fun _ => ⟨rfl, rfl⟩⟩
  | started b hp | discarded b hp =>
    exact ⟨rfl, fun _ _ => rfl, fun _ _ => rfl, fun _ => ⟨rfl, rfl⟩,
      fun hs => by simp [hs] at hp, fun _ => ⟨rfl, rfl⟩⟩
  | stored b hp | storedLast b hp =>
    exact ⟨rfl, fun _ _ => rfl, fun _ hj => Mem.get_put_ne _ b hj, fun _ => ⟨rfl, rfl⟩,
      fun hs => by simp [hs] at hp, fun hs => by rcases hs with hs | hs <;> simp [hs] at hp⟩

end Sys2Proof.Machine
end

section
/-! The step as the schedule gives it (R3, R50, R57, log 1, log 2, log 26), and the steps that are
held (log 12). -/

namespace Sys2Proof.Machine

theorem step_of_nextAction_instr {s u : State} {i : Instr} (h : nextAction s = .instr i u) :
    step s = exec i u := by
  rw [step, h]

theorem step_of_nextAction_illegal {s u : State} (h : nextAction s = .illegal u) :
    step s = acceptIllegal u := by
  rw [step, h]

theorem step_of_nextAction_engine {s u : State} (h : nextAction s = .engine u) :
    step s = engineStep u := by
  rw [step, h]

theorem step_of_nextAction_held {s u : State} (h : nextAction s = .held u) : step s = .next u := by
  rw [step, h]

section Slots

variable {s : State} {slot : Slot} {rest : List Slot}
  (h : drawSlot s = some (slot, { s with sched := rest }))
include h

/-- The poller's slot: the word on the port is issued with the slot's levels holding. -/
theorem nextAction_poller (hm : slot.move = .poller) :
    nextAction s = issueCommand (taken s slot rest) := by
  rw [nextAction_slot h, slotAction, hm]
  rfl

/-- The engine's slot. -/
theorem nextAction_engine (hm : slot.move = .engine) :
    nextAction s = .engine (taken s slot rest) := by
  rw [nextAction_slot h, slotAction, hm]
  rfl

/-- An event port's slot. -/
theorem nextAction_event {e : EventWord} (hm : slot.move = .event e) :
    nextAction s = strobeEvent e (taken s slot rest) := by
  rw [nextAction_slot h, slotAction, hm]
  rfl

end Slots

theorem issueCommand_busy {s : State} (h : s.phase ≠ .idle) : issueCommand s = .held s :=
  if_neg h

/-- Settles O7, by the three answers of the command port. -/
theorem stepIssuesTheDecodedCommand : Obligations.StepIssuesTheDecodedCommand := by
  refine fun s slot rest w ws hs hm hw => ⟨fun i hp hd => ?_, fun e hp hd => ?_, fun hp => ?_⟩
  · exact step_of_nextAction_instr ((nextAction_poller (drawSlot_cons hs) hm).trans
      (issueCommand_ok (s := taken s slot rest) hp hw hd))
  · exact step_of_nextAction_illegal ((nextAction_poller (drawSlot_cons hs) hm).trans
      (issueCommand_error (s := taken s slot rest) hp hw hd))
  · exact step_of_nextAction_held ((nextAction_poller (drawSlot_cons hs) hm).trans
      (issueCommand_busy (s := taken s slot rest) hp))

/-- A strobed RX port carries its data bits; one without strobe carries nothing (R57). -/
theorem decodeEvent_rx (b : Byte) :
    decodeEvent (.rx (1#1 ++ b)) = .ok (.rxev b) ∧
      decodeEvent (.rx (0#1 ++ b)) = .error .noStrobe := by
  refine ⟨Laws.RowWord.rxev b rfl, ?_⟩
  rw [decodeEvent, (extract_strobe 0#1 b).1, if_neg (by decide)]

/-- Settles O8, by the two answers of an event port. -/
theorem stepRunsTheStrobedEvent : Obligations.StepRunsTheStrobedEvent := by
  refine ⟨fun s slot rest e hs hm => ⟨fun i hd => ?_, fun r hd => ?_⟩,
    fun b => (decodeEvent_rx b).1, rfl, rfl, rfl, fun b => (decodeEvent_rx b).2, rfl, rfl, rfl⟩
  · refine step_of_nextAction_instr ((nextAction_event (drawSlot_cons hs) hm).trans ?_)
    rw [strobeEvent, hd]
    rfl
  · refine step_of_nextAction_held ((nextAction_event (drawSlot_cons hs) hm).trans ?_)
    rw [strobeEvent, hd]
    rfl

section Quiet

variable {s : State} (hs : s.sched = []) (ht : s.schedTail = .stop)
include hs ht

/-- The block left to itself: the engine first (log 2). -/
theorem step_quiet_engine (hg : engineEnabled s = true) : step s = engineStep s :=
  step_of_nextAction_engine ((nextAction_quiet hs ht).trans (if_pos hg))

/-- The block left to itself: then the tick (log 2). -/
theorem step_quiet_tick (hg : engineEnabled s = false) (hc : s.cnt ≠ 0#16) :
    step s = exec .tick s :=
  step_of_nextAction_instr ((nextAction_quiet hs ht).trans (by simp [quietAction, hg, hc]))

/-- The block left to itself with nothing to do. -/
theorem step_quiet_held (hg : engineEnabled s = false) (hc : s.cnt = 0#16) : step s = .next s :=
  step_of_nextAction_held ((nextAction_quiet hs ht).trans (by simp [quietAction, hg, hc]))

end Quiet

/-- Settles O9: the engine's slot, and the three cases of the block left to itself. -/
theorem stepRunsTheEngine : Obligations.StepRunsTheEngine :=
  ⟨fun _ _ _ hs hm => step_of_nextAction_engine (nextAction_engine (drawSlot_cons hs) hm),
    fun _ => step_quiet_engine, fun _ => step_quiet_tick, fun _ => step_quiet_held⟩

/-- Drawing the same slot is taking the same step. -/
theorem step_eq_of_drawSlot {s t : State} (h : drawSlot s = drawSlot t) (hs : drawSlot t ≠ none) :
    step s = step t := by
  cases ht : drawSlot t with
  | none => exact absurd ht hs
  | some p => rw [step, step, nextAction_slot (h.trans ht), nextAction_slot ht]

/-- Issuing from a state whose poller draws the same word is issuing the same command. -/
theorem issueCommand_eq_of_drawWord {s t : State} (hs : s.phase = .idle) (ht : t.phase = .idle)
    (h : drawWord s = drawWord t) (hw : drawWord t ≠ none) : issueCommand s = issueCommand t := by
  cases hd : drawWord t with
  | none => exact absurd hd hw
  | some p => rw [issueCommand, issueCommand, if_pos hs, if_pos ht, h, hd]

/-- The poller's slot in `IDLE`, when another state's poller draws the same word. -/
theorem step_eq_of_drawWord {s t : State} {slot : Slot} {rest : List Slot}
    (hs : s.sched = slot :: rest) (ht : t.sched = slot :: rest) (hm : slot.move = .poller)
    (hps : s.phase = .idle) (hpt : t.phase = .idle)
    (h : drawWord (taken s slot rest) = drawWord (taken t slot rest))
    (hw : drawWord (taken t slot rest) ≠ none) : step s = step t := by
  rw [step, step, nextAction_poller (drawSlot_cons hs) hm, nextAction_poller (drawSlot_cons ht) hm,
    issueCommand_eq_of_drawWord (s := taken s slot rest) (t := taken t slot rest) hps hpt h hw]

/-- Settles O57: a list that is used up and the list that its tail begins draw the same element. -/
theorem stepRefillsTheSchedule : Obligations.StepRefillsTheSchedule := by
  refine ⟨fun s a l hs ht => ?_, fun s hs ht => ?_, fun s slot rest hs hm hp hw =>
    ⟨fun w ws ht => ?_, fun ht => ?_, fun ht => ?_⟩⟩
  · exact step_eq_of_drawSlot (drawSlot_loop hs ht) (by simp [drawSlot])
  · exact step_eq_of_drawSlot (by simp [drawSlot, hs, ht]) (by simp [drawSlot])
  · exact step_eq_of_drawWord hs hs hm hp hp (by simp [drawWord, taken, hw, ht])
      (by simp [drawWord, taken])
  · exact step_eq_of_drawWord hs hs hm hp hp (by simp [drawWord, taken, hw, ht])
      (by simp [drawWord, taken])
  · refine step_of_nextAction_held ((nextAction_poller (drawSlot_cons hs) hm).trans ?_)
    simp [issueCommand, drawWord, taken, hp, hw, ht]

theorem exec_tick_of_cnt_eq_zero {s : State} (h : s.cnt = 0#16) : exec .tick s = .next s :=
  if_pos h

/-- Settles O10: each guard, when it is false, answers the state it was given. -/
theorem heldStepsChangeNothing : Obligations.HeldStepsChangeNothing :=
  ⟨fun _ _ => exec_busy, fun _ => whenReady_busy _, fun _ => engineStep_held,
    fun _ => exec_tick_of_cnt_eq_zero⟩

/-- A ring after reset has no pending byte (R31). -/
theorem pend_atReset (cap : Nat) : RingBuf.atReset.pend cap = [] := by
  simp [RingBuf.pend, RingBuf.avail]

/-- Settles O24: the fields of `resetBlock`, and an empty ring's pending bytes. -/
theorem resetEventClearsTheBlock : Obligations.ResetEventClearsTheBlock := by
  intro s
  refine ⟨resetBlock s, rfl, ?_⟩
  simp [pend_atReset]

end Sys2Proof.Machine
end

section
/-! Under the invariant nothing faults: what each operation answers, what an enabled engine step
does, and that every run goes on. -/

namespace Sys2Proof.Machine

/-- A pop of RX finds it empty, or takes its oldest byte. -/
theorem popRx_total {s : State} (h : s.inv) :
    s.rx.rp = s.rx.wp ∨ ∃ v, popRx s = .ok (some v, rxPopped s) := by
  obtain ⟨⟨o, q⟩, hq⟩ := RingBuf.pop_total (sp := .rxBuf) h.2.1
  have hp := popRx_ok.mpr ⟨q, hq, rfl⟩
  cases o with
  | none => exact .inl (popRx_none.mp hp).1
  | some v =>
    rw [eq_rxPopped hp] at hp
    exact .inr ⟨v, hp⟩

/-- A pop of TX finds it empty, or takes its oldest byte. -/
theorem popTx_total {s : State} (h : s.inv) :
    s.tx.rp = s.tx.wp ∨ ∃ v, popTx s = .ok (some v, txPopped s) := by
  obtain ⟨⟨o, q⟩, hq⟩ := RingBuf.pop_total (sp := .txBuf) h.2.2.1
  have hp := popTx_ok.mpr ⟨q, hq, rfl⟩
  cases o with
  | none => exact .inl (popTx_none.mp hp).1
  | some v =>
    rw [eq_txPopped hp] at hp
    exact .inr ⟨v, hp⟩

theorem pushRx_total {s : State} (b : Byte) (h : s.inv) : ∃ t, pushRx s b = .ok t := by
  obtain ⟨q, hq⟩ := RingBuf.push_total (sp := .rxBuf) b h.2.1
  exact ⟨_, pushRx_ok.mpr ⟨q, hq, rfl⟩⟩

/-- A byte that can be handed over is, and no response is made yet. -/
theorem handByte_total {s : State} (b : Byte) (h : s.inv) (hg : handOver s = true) :
    ∃ u, handByte s b = .ok u ∧ u.rspout = s.rspout ∧ u.phase = s.phase := by
  cases hq : s.par.txQueued
  · exact ⟨_, handByte_direct b hq, rfl, rfl⟩
  · exact ⟨_, handByte_queued b hq ((handOver_queued hq).mp hg) h.2.2.1.1, rfl, rfl⟩

/-- Every index below `LEN` reads (R97). -/
theorem readRecord_total {s : State} {i : BitVec 8} (h : s.inv) (hi : indexOk s i = true) :
    ∃ v, readRecord s i = .ok v := by
  obtain ⟨-, -, -, ⟨hcap, -, hwritten⟩, -, -⟩ := h
  have hlt := (indexOk_iff s i).mp hi
  obtain ⟨v, hv⟩ := Option.isSome_iff_exists.mp (hwritten _ hlt)
  exact ⟨v, readRecord_ok.mpr ⟨by omega, hv⟩⟩

/-- A store below the bound is in the array (R97). -/
theorem storeRecord_total {s : State} (b : Byte) (h : s.inv)
    (hp : s.phase = .frameCollect ∨ s.phase = .lineCollect) (hl : s.len ≠ s.maxLen) :
    storeRecord s b = .ok (recorded s b) := by
  obtain ⟨-, hlt, hcap⟩ := toNat_len_succ h hp hl
  exact storeRecord_ok.mpr ⟨by omega, rfl⟩

theorem acceptIllegal_total (s : State) : ∃ t, acceptIllegal s = .next t := by
  by_cases hp : s.phase = .idle
  · exact ⟨_, acceptIllegal_idle hp⟩
  · exact ⟨s, whenReady_busy _ hp⟩

theorem exec_total {s : State} (h : s.inv) (i : Instr) : ∃ t, exec i s = .next t := by
  by_cases hb : isCommand i = true ∧ s.phase ≠ .idle
  · exact ⟨s, exec_busy hb.1 hb.2⟩
  replace hb : isCommand i = true → s.phase = .idle := fun hc => not_not.mp fun hp => hb ⟨hc, hp⟩
  cases i with
  | nop | avail | flush | clrovf | recv | illegalOp9 | illegalOpB | illegalOpCF =>
    exact ⟨_, whenReady_idle _ (hb rfl)⟩
  | pop =>
    obtain he | ⟨v, hv⟩ := popRx_total h
    · exact ⟨_, exec_pop_none (hb rfl) (popRx_none.mpr ⟨he, rfl⟩)⟩
    · exact ⟨_, exec_pop_some (hb rfl) hv⟩
  | frame m =>
    by_cases hm : boundOk s m = true
    · exact ⟨_, exec_frame_started (hb rfl) hm⟩
    · exact ⟨_, exec_frame_range (hb rfl) hm⟩
  | line m d =>
    by_cases hm : boundOk s m = true
    · exact ⟨_, exec_line_started d (hb rfl) hm⟩
    · exact ⟨_, exec_line_range d (hb rfl) hm⟩
  | rdrec k =>
    by_cases hk : indexOk s k = true
    · obtain ⟨v, hv⟩ := readRecord_total h hk
      exact ⟨_, exec_rdrec_read (hb rfl) hk hv⟩
    · exact ⟨_, exec_rdrec_range (hb rfl) hk⟩
  | send b =>
    by_cases hg : handOver s = true
    · obtain ⟨u, hu, -⟩ := handByte_total b h hg
      exact ⟨_, exec_send_handed (hb rfl) hg hu⟩
    · exact ⟨_, exec_send_latched b (hb rfl) hg⟩
  | rxev b =>
    obtain ⟨t, ht⟩ := pushRx_total b h
    exact ⟨t, exec_rxev_of_pushRx ht⟩
  | txev =>
    cases hq : s.par.txQueued
    · exact ⟨s, exec_txev_direct hq⟩
    obtain he | ⟨v, hv⟩ := popTx_total h
    · exact ⟨s, exec_txev_none hq (popTx_none.mpr ⟨he, rfl⟩)⟩
    · exact ⟨_, exec_txev_some hq hv⟩
  | tick =>
    by_cases hz : s.cnt = 0#16
    · exact ⟨s, exec_tick_of_cnt_eq_zero hz⟩
    · exact ⟨_, exec_tick_of_cnt_ne_zero hz⟩
  | reset => exact ⟨_, rfl⟩

/-- An engine step that goes on took a byte of RX: hunting, dropping a leading `CR`, or storing
it. -/
def consumes (s t : State) : Prop :=
  ∃ b, popRx s = .ok (some b, rxPopped s) ∧
    ((s.phase = .frameHunt ∧ t = { rxPopped s with
        phase := if b = s.par.sof then .frameCollect else .frameHunt }) ∨
      (s.phase = .lineCollect ∧ b = s.par.cr ∧ s.len = 0#8 ∧ t = rxPopped s) ∨
      ((s.phase = .frameCollect ∨ s.phase = .lineCollect) ∧ s.len ≠ s.maxLen ∧
        t = recorded (rxPopped s) b))

section Outcomes

variable {s : State} (h : s.inv)
include h

theorem recvWait_outcome (hp : s.phase = .recvWait) (hg : engineEnabled s = true) :
    ∃ t, engineStep s = .next t ∧ answered s t := by
  cases hc : s.cancel
  · obtain he | ⟨v, hv⟩ := popRx_total h
    · have hcnt : s.cnt = 0#16 := by
        simpa [engineEnabled_recvWait hp, byteOrTimeout_iff, hc, he] using hg
      exact ⟨_, engineStep_recvWait_none hp hc he hcnt, answered_complete _ _ _ _ rfl⟩
    · exact ⟨_, engineStep_recvWait_some hp hc hv, answered_complete _ _ _ _ rfl⟩
  · exact ⟨_, engineStep_recvWait_cancel hp hc, answered_complete _ _ _ _ rfl⟩

theorem sendWait_outcome (hp : s.phase = .sendWait) (hg : engineEnabled s = true) :
    ∃ t, engineStep s = .next t ∧ answered s t := by
  cases hc : s.cancel
  · have hh : handOver s = true := by
      simpa [engineEnabled_sendWait hp, cancelOrHandOver_iff, hc] using hg
    obtain ⟨u, hu, hr, -⟩ := handByte_total s.sByte h hh
    exact ⟨_, engineStep_sendWait_handed hp hc hh hu, answered_complete _ _ _ _ hr⟩
  · exact ⟨_, engineStep_sendWait_cancel hp hc, answered_complete _ _ _ _ rfl⟩

theorem frameHunt_outcome (hp : s.phase = .frameHunt) :
    ∃ t, engineStep s = .next t ∧ (answered s t ∨ consumes s t) := by
  cases hc : s.cancel
  · obtain he | ⟨v, hv⟩ := popRx_total h
    · exact ⟨_, engineStep_frameHunt_none hp hc he, .inl (answered_complete _ _ _ _ rfl)⟩
    · exact ⟨_, engineStep_frameHunt_some hp hc hv, .inr ⟨v, hv, .inl ⟨hp, rfl⟩⟩⟩
  · exact ⟨_, engineStep_frameHunt_cancel hp hc, .inl (answered_complete _ _ _ _ rfl)⟩

theorem frameCollect_outcome (hp : s.phase = .frameCollect) :
    ∃ t, engineStep s = .next t ∧ (answered s t ∨ consumes s t) := by
  cases hc : s.cancel
  · obtain he | ⟨v, hv⟩ := popRx_total h
    · exact ⟨_, engineStep_frameCollect_none hp hc he, .inl (answered_complete _ _ _ _ rfl)⟩
    by_cases heof : v = s.par.eof
    · exact ⟨_, engineStep_frameCollect_ended hp hc hv heof, .inl (answered_complete _ _ _ _ rfl)⟩
    by_cases hl : s.len = s.maxLen
    · exact ⟨_, engineStep_frameCollect_tooLong hp hc hv heof hl,
        .inl (answered_complete _ _ _ _ rfl)⟩
    · exact ⟨_, engineStep_frameCollect_stored hp hc hv heof hl
        (storeRecord_total v (inv_popRx h hv) (.inl hp) hl),
        .inr ⟨v, hv, .inr (.inr ⟨.inl hp, hl, rfl⟩)⟩⟩
  · exact ⟨_, engineStep_frameCollect_cancel hp hc, .inl (answered_complete _ _ _ _ rfl)⟩

theorem lineCollect_outcome (hp : s.phase = .lineCollect) (hg : engineEnabled s = true) :
    ∃ t, engineStep s = .next t ∧ (answered s t ∨ consumes s t) := by
  cases hc : s.cancel
  · obtain he | ⟨v, hv⟩ := popRx_total h
    · have hcnt : s.cnt = 0#16 := by
        simpa [engineEnabled_lineCollect hp, byteOrTimeout_iff, hc, he] using hg
      exact ⟨_, engineStep_lineCollect_none hp hc he hcnt, .inl (answered_complete _ _ _ _ rfl)⟩
    by_cases hcr : v = s.par.cr ∧ s.len = 0#8
    · exact ⟨_, engineStep_lineCollect_dropped hp hc hv hcr,
        .inr ⟨v, hv, .inr (.inl ⟨hp, hcr.1, hcr.2, rfl⟩)⟩⟩
    by_cases hl : s.len = s.maxLen
    · exact ⟨_, engineStep_lineCollect_tooLong hp hc hv hcr hl,
        .inl (answered_complete _ _ _ _ rfl)⟩
    · have hstep := engineStep_lineCollect_stored hp hc hv hcr hl
        (storeRecord_total v (inv_popRx h hv) (.inr hp) hl)
      refine ⟨_, hstep, ?_⟩
      split_ifs
      · exact .inl (answered_complete _ _ _ _ rfl)
      · exact .inr ⟨v, hv, .inr (.inr ⟨.inr hp, hl, rfl⟩)⟩
  · exact ⟨_, engineStep_lineCollect_cancel hp hc, .inl (answered_complete _ _ _ _ rfl)⟩

/-- An enabled engine step ends the command with one response, or takes a byte of RX and goes on. -/
theorem engineStep_outcome (hg : engineEnabled s = true) :
    ∃ t, engineStep s = .next t ∧ (answered s t ∨ consumes s t) := by
  cases hp : s.phase with
  | idle => simp [engineEnabled, hp] at hg
  | recvWait =>
    obtain ⟨t, ht, ha⟩ := recvWait_outcome h hp hg
    exact ⟨t, ht, .inl ha⟩
  | sendWait =>
    obtain ⟨t, ht, ha⟩ := sendWait_outcome h hp hg
    exact ⟨t, ht, .inl ha⟩
  | frameHunt => exact frameHunt_outcome h hp
  | frameCollect => exact frameCollect_outcome h hp
  | lineCollect => exact lineCollect_outcome h hp hg

theorem engineStep_total : ∃ t, engineStep s = .next t := by
  cases hg : engineEnabled s
  · exact ⟨s, engineStep_held hg⟩
  · obtain ⟨t, ht, -⟩ := engineStep_outcome h hg
    exact ⟨t, ht⟩

theorem step_total : ∃ t, step s = .next t := by
  have hu : (nextAction s).state.inv := inv_of_sameBlock h (sameBlock_nextAction s)
  rw [step]
  cases hn : nextAction s with
  | instr i u => rw [hn] at hu; exact exec_total hu i
  | illegal u => exact acceptIllegal_total u
  | engine u => rw [hn] at hu; exact engineStep_total hu
  | held u => exact ⟨u, rfl⟩

end Outcomes

/-- Settles O34: every index an operation uses is in range and its cell written. -/
theorem noFaultUnderTheInvariant : Obligations.NoFaultUnderTheInvariant :=
  fun _ h => ⟨step_total h, engineStep_total h, exec_total h⟩

/-- Settles O35, by induction on the number of steps: each answers, and keeps the invariant. -/
theorem everyRunUnderTheInvariantIsSafe : Obligations.EveryRunUnderTheInvariantIsSafe := by
  intro s h n
  induction n generalizing s with
  | zero => exact ⟨s, rfl⟩
  | succ n ih =>
    obtain ⟨t, ht⟩ := step_total h
    obtain ⟨u, hu⟩ := ih t (everyStepKeepsTheInvariant s t h ht)
    exact ⟨u, (core_run_succ n ht).trans hu⟩

end Sys2Proof.Machine
end

section
/-! A ring in order as a FIFO queue of its pending bytes (R15, R61 to R64). -/

namespace Sys2Proof.Machine

/-- In order, every pending slot contributes its byte. -/
theorem length_pend {cap : Nat} {q : RingBuf} (h : q.ok cap) :
    (q.pend cap).length = q.avail cap := by
  obtain ⟨-, -, -, hwritten⟩ := h
  rw [RingBuf.pend, List.filterMap_length_eq_length.mpr, List.length_range]
  exact fun k hk => hwritten k (List.mem_range.mp hk)

theorem pend_eq_nil_iff {cap : Nat} {q : RingBuf} (h : q.ok cap) :
    q.pend cap = [] ↔ q.rp = q.wp := by
  rw [← List.length_eq_zero_iff, length_pend h, RingBuf.avail_eq_zero h.1 h.2.1, RingBuf.empty_iff]

/-- The slots of a ring in order, in the order of the queue: the pending ones are not `wp`, and the
one after them is. -/
theorem slot_eq_wp_iff {cap k : Nat} {q : RingBuf} (hw : q.wp < cap) (hr : q.rp < cap)
    (hk : k ≤ q.avail cap) : (q.rp + k) % cap = q.wp ↔ k = q.avail cap := by
  have hav := RingBuf.avail_of_lt hw hr
  have hlt : k < cap := lt_of_le_of_lt hk (q.avail_lt (by omega))
  rw [add_mod_range hr hlt]
  split_ifs at hav ⊢ <;> omega

/-- A push on a ring with room makes one byte more pending. -/
theorem avail_pushed {cap : Nat} {q : RingBuf} (m : Mem) (hc : 2 ≤ cap) (hw : q.wp < cap)
    (hr : q.rp < cap) (hf : q.full cap = false) :
    RingBuf.avail cap { q with buf := m, wp := nextIndex cap q.wp } = q.avail cap + 1 := by
  have hne : nextIndex cap q.wp ≠ q.rp := mt (RingBuf.full_iff cap q).mpr (by simp [hf])
  rw [RingBuf.avail_of_lt (q := { q with buf := m, wp := nextIndex cap q.wp })
    (nextIndex_lt _ (by omega)) hr, RingBuf.avail_of_lt hw hr]
  rw [nextIndex_of_lt hc hw] at hne ⊢
  dsimp only
  split_ifs at hne ⊢ <;> omega

/-- A pop of a byte leaves one byte less pending. -/
theorem avail_popped {cap : Nat} {q : RingBuf} (hc : 2 ≤ cap) (hw : q.wp < cap) (hr : q.rp < cap)
    (hne : q.rp ≠ q.wp) :
    q.avail cap = RingBuf.avail cap { q with rp := nextIndex cap q.rp } + 1 := by
  rw [RingBuf.avail_of_lt (q := { q with rp := nextIndex cap q.rp }) hw
    (nextIndex_lt _ (by omega)), RingBuf.avail_of_lt hw hr, nextIndex_of_lt hc hr]
  dsimp only
  split_ifs <;> omega

/-- The byte of a push stands behind the pending ones. -/
theorem pend_pushed {cap : Nat} {q : RingBuf} (b : Byte) (hc : 2 ≤ cap) (h : q.ok cap)
    (hf : q.full cap = false) :
    RingBuf.pend cap { q with buf := Mem.put q.buf q.wp b, wp := nextIndex cap q.wp } =
      q.pend cap ++ [b] := by
  obtain ⟨hw, hr, -, -⟩ := h
  rw [RingBuf.pend, RingBuf.pend, avail_pushed _ hc hw hr hf, List.range_succ,
    List.filterMap_append]
  congr 1
  · refine List.filterMap_congr fun k hk => Mem.get_put_ne _ _ ?_
    have hk' := List.mem_range.mp hk
    exact fun he => absurd ((slot_eq_wp_iff hw hr hk'.le).mp he) hk'.ne
  · have hlast := (slot_eq_wp_iff hw hr le_rfl).mpr rfl
    simp [hlast, Mem.get_put_same]

/-- The byte of a pop stood before the pending ones. -/
theorem pend_popped {cap : Nat} {q : RingBuf} {v : Byte} (hc : 2 ≤ cap) (h : q.ok cap)
    (hne : q.rp ≠ q.wp) (hv : Mem.get q.buf q.rp = some v) :
    q.pend cap = v :: RingBuf.pend cap { q with rp := nextIndex cap q.rp } := by
  obtain ⟨hw, hr, -, -⟩ := h
  rw [RingBuf.pend, avail_popped hc hw hr hne, List.range_succ_eq_map, List.filterMap_cons,
    Nat.add_zero, Nat.mod_eq_of_lt hr, hv, List.filterMap_map]
  refine congrArg (v :: ·) (List.filterMap_congr fun k _ => congrArg (Mem.get q.buf) ?_)
  show (q.rp + (k + 1)) % cap = (nextIndex cap q.rp + k) % cap
  rw [nextIndex, Nat.mod_add_mod, Nat.add_right_comm, Nat.add_assoc]

/-- Settles O42, by the two answers of a push and of a pop. -/
theorem ringIsAFifoQueue : Obligations.RingIsAFifoQueue := by
  refine fun sp cap q hc h => ⟨fun b q' hp => ?_, fun v q' hp => ?_, fun q' hp => ?_, ?_⟩
  · obtain ⟨hf, rfl⟩ | ⟨hf, -, rfl⟩ := RingBuf.push_ok.mp hp
    · rw [if_pos hf]
      rfl
    · rw [if_neg (by simp [hf]), pend_pushed b hc h hf]
  · obtain ⟨-, hn, -⟩ | ⟨he, -, w, hw, hv, rfl⟩ := RingBuf.pop_ok.mp hp
    · cases hn
    · cases hv
      exact pend_popped hc h (by simpa [RingBuf.empty] using he) hw
  · obtain ⟨he, -, rfl⟩ | ⟨-, -, w, -, hn, -⟩ := RingBuf.pop_ok.mp hp
    · exact ⟨(pend_eq_nil_iff h).mpr ((RingBuf.empty_iff _).mp he), rfl⟩
    · cases hn
  · exact (pend_eq_nil_iff (RingBuf.ok_flush h)).mpr rfl

/-- Settles O43: a pending slot holds a byte, and a count modulo the capacity is below it. -/
theorem availIsTheNumberOfPendingBytes : Obligations.AvailIsTheNumberOfPendingBytes := by
  intro cap q hc h
  have hlt := q.avail_lt (cap := cap) (by omega)
  exact ⟨length_pend h, by omega⟩

/-- `TXEV` neither reads nor writes RX. -/
theorem exec_txev_of_rx {s u : State} (q : RingBuf)
    (h : exec .txev { s with rx := q } = .next u) :
    ∃ t, exec .txev s = .next t ∧ t.rx = s.rx ∧ t.par = s.par ∧ u = { t with rx := q } := by
  obtain ⟨b, hi, -⟩ | ⟨-, he, rfl⟩ | ⟨-, hq, v, p, hv, rfl⟩ | ⟨hi, -⟩ | ⟨hi, -⟩ | ⟨hi, -⟩ :=
    exec_event_cases rfl h
  · cases hi
  · refine ⟨s, ?_, rfl, rfl, rfl⟩
    cases hq : s.par.txQueued
    · exact exec_txev_direct hq
    · exact exec_txev_none hq (popTx_none.mpr ⟨he hq, rfl⟩)
  · obtain ⟨hne, hr, hget, rfl⟩ := popTx_some.mp hv
    exact ⟨_, exec_txev_some hq (popTx_some.mpr ⟨hne, hr, hget, rfl⟩), rfl, rfl, rfl⟩
  · cases hi
  · cases hi
  · cases hi

theorem exec_rxev_iff {s t : State} {b : Byte} :
    exec (.rxev b) s = .next t ↔ pushRx s b = .ok t := by
  refine ⟨fun h => ?_, exec_rxev_of_pushRx⟩
  rw [exec, execRxev] at h
  split at h <;> cases h
  assumption

/-- Settles O44: `RXEV` writes RX alone, which `TXEV` neither reads nor writes. -/
theorem rxevAndTxevCommute : Obligations.RxevAndTxevCommute := by
  intro s t u b hr ht
  obtain ⟨q, hq, rfl⟩ := pushRx_ok.mp (exec_rxev_iff.mp hr)
  obtain ⟨t', ht', hrx, hpar, rfl⟩ := exec_txev_of_rx q ht
  exact ⟨t', ht', exec_rxev_iff.mpr (pushRx_ok.mpr ⟨q, by rw [hrx, hpar, hq], rfl⟩)⟩

end Sys2Proof.Machine
end

section
/-! Whole commands: the round trips of `FRAME` and `LINE`, and `SENDS` (R82, R87 to R92). -/

namespace Sys2Proof.Machine

/-- Under the invariant a pop of RX takes the first pending byte. -/
theorem popRx_of_pend {s : State} {v : Byte} {rest : List Byte} (h : s.inv)
    (hp : s.rx.pend s.par.rxCap = v :: rest) :
    popRx s = .ok (some v, rxPopped s) ∧ (rxPopped s).rx.pend s.par.rxCap = rest := by
  obtain he | ⟨w, hw⟩ := popRx_total h
  · cases ((pend_eq_nil_iff h.2.1).mpr he).symm.trans hp
  · obtain ⟨hne, -, hget, -⟩ := popRx_some.mp hw
    have hpend := pend_popped h.1.1 h.2.1 hne hget
    rw [hp] at hpend
    obtain ⟨rfl, hrest⟩ := List.cons.inj hpend
    exact ⟨hw, hrest.symm⟩

/-- A store below the bound appends its byte to the captured record. -/
theorem capturedRecord_recorded {s : State} (b : Byte) (h : s.inv)
    (hp : s.phase = .frameCollect ∨ s.phase = .lineCollect) (hl : s.len ≠ s.maxLen) :
    capturedRecord (recorded s b) = capturedRecord s ++ [b] := by
  obtain ⟨hsucc, -, -⟩ := toNat_len_succ h hp hl
  have hlen : (recorded s b).len.toNat = s.len.toNat + 1 := hsucc
  rw [capturedRecord, hlen, List.range_succ, List.filterMap_append]
  congr 1
  · exact List.filterMap_congr fun k hk => Mem.get_put_ne _ _ (List.mem_range.mp hk).ne
  · simp [Mem.get_put_same]

/-- From `s`, which is collecting, the command ends in `t` with `data` behind the record and one
response `OK`, and `after` still pending. -/
def collected (s t : State) (data after : List Byte) : Prop :=
  t.phase = .idle ∧ t.len.toNat = s.len.toNat + data.length ∧
    capturedRecord t = capturedRecord s ++ data ∧ t.rx.pend t.par.rxCap = after ∧
    t.rspout = s.rspout ++ [rspWord .ok s.rx.ovf s.tx.ovf false t.len 0#16]

/-- One byte stored before the rest. -/
theorem collected_cons {s t : State} {b : Byte} {data after : List Byte} (h : s.inv)
    (hp : s.phase = .frameCollect ∨ s.phase = .lineCollect) (hl : s.len ≠ s.maxLen)
    (ht : collected (recorded s b) t data after) : collected s t (b :: data) after := by
  obtain ⟨hidle, hlen, hrec, hpend, hrsp⟩ := ht
  refine ⟨hidle, ?_, ?_, hpend, hrsp⟩
  · have hsucc : (recorded s b).len.toNat = s.len.toNat + 1 := (toNat_len_succ h hp hl).1
    rw [hlen, hsucc, List.length_cons]
    omega
  · rw [hrec, capturedRecord_recorded b h hp hl, List.append_assoc, List.singleton_append]

/-- R88, the start sentinel. -/
theorem engineStep_frameHunt_start {s : State} (hp : s.phase = .frameHunt) (hc : s.cancel = false)
    (hv : popRx s = .ok (some s.par.sof, rxPopped s)) :
    engineStep s = .next { rxPopped s with phase := .frameCollect } := by
  simpa using engineStep_frameHunt_some hp hc hv

/-- R88, any other byte. -/
theorem engineStep_frameHunt_discard {s : State} {v : Byte} (hp : s.phase = .frameHunt)
    (hc : s.cancel = false) (hv : popRx s = .ok (some v, rxPopped s)) (hne : v ≠ s.par.sof) :
    engineStep s = .next (rxPopped s) := by
  simpa [hne, hp] using engineStep_frameHunt_some hp hc hv

/-- R88: the hunt discards what stands before the first start sentinel. -/
theorem hunt_run {rest : List Byte} (junk : List Byte) (s : State) (h : s.inv)
    (hp : s.phase = .frameHunt) (hc : s.cancel = false)
    (hpend : s.rx.pend s.par.rxCap = junk ++ s.par.sof :: rest) (hsof : s.par.sof ∉ junk) :
    ∃ q : RingBuf,
      engineRun (junk.length + 1) s = .next { s with rx := q, phase := .frameCollect } ∧
      ({ s with rx := q, phase := .frameCollect } : State).inv ∧ q.pend s.par.rxCap = rest ∧
      q.ovf = s.rx.ovf := by
  induction junk generalizing s with
  | nil =>
    obtain ⟨hv, hrest⟩ := popRx_of_pend h hpend
    exact ⟨_, engineRun_succ 0 (engineStep_frameHunt_start hp hc hv),
      inv_startCollect (inv_popRx h hv) hp, hrest, rfl⟩
  | cons j junk ih =>
    obtain ⟨hv, hrest⟩ := popRx_of_pend h hpend
    obtain ⟨hj, hjunk⟩ := List.ne_and_not_mem_of_not_mem_cons hsof
    have hstep := engineStep_frameHunt_discard hp hc hv hj.symm
    obtain ⟨q, hrun, hq⟩ := ih (rxPopped s) (inv_popRx h hv) hp hc hrest hjunk
    exact ⟨q, (engineRun_succ _ hstep).trans hrun, hq⟩

/-- R89: the payload is stored byte by byte, and the end sentinel ends the `FRAME`. -/
theorem frameCollect_run {after : List Byte} (payload : List Byte) (s : State) (h : s.inv)
    (hp : s.phase = .frameCollect) (hc : s.cancel = false)
    (hpend : s.rx.pend s.par.rxCap = payload ++ s.par.eof :: after) (heof : s.par.eof ∉ payload)
    (hfit : s.len.toNat + payload.length ≤ s.maxLen.toNat) :
    ∃ t, engineRun (payload.length + 1) s = .next t ∧ collected s t payload after := by
  induction payload generalizing s with
  | nil =>
    obtain ⟨hv, hrest⟩ := popRx_of_pend h hpend
    exact ⟨_, engineRun_succ 0 (engineStep_frameCollect_ended hp hc hv rfl),
      rfl, rfl, (List.append_nil _).symm, hrest, rfl⟩
  | cons b payload ih =>
    obtain ⟨hv, hrest⟩ := popRx_of_pend h hpend
    obtain ⟨hb, hpayload⟩ := List.ne_and_not_mem_of_not_mem_cons heof
    have hl : s.len ≠ s.maxLen := fun he => by
      rw [he, List.length_cons] at hfit
      omega
    have hx := storeRecord_total b (inv_popRx h hv) (.inl hp) hl
    have hsucc : (recorded (rxPopped s) b).len.toNat = s.len.toNat + 1 :=
      (toNat_len_succ h (.inl hp) hl).1
    obtain ⟨t, hrun, ht⟩ := ih (recorded (rxPopped s) b)
      (inv_storeRecord (inv_popRx h hv) (.inl hp) hl hx) hp hc hrest hpayload (by
        rw [hsucc]
        rw [List.length_cons] at hfit
        show _ ≤ s.maxLen.toNat
        omega)
    exact ⟨t, (engineRun_succ _ (engineStep_frameCollect_stored hp hc hv hb.symm hl hx)).trans hrun,
      collected_cons (s := rxPopped s) (inv_popRx h hv) (.inl hp) hl ht⟩

/-- R92: the payload is stored byte by byte, then the terminator, which ends the `LINE`. -/
theorem lineCollect_run {after : List Byte} (payload : List Byte) (s : State) (h : s.inv)
    (hp : s.phase = .lineCollect) (hc : s.cancel = false)
    (hpend : s.rx.pend s.par.rxCap = payload ++ s.par.cr :: after) (hcr : s.par.cr ∉ payload)
    (hne : s.len ≠ 0#8 ∨ payload ≠ [])
    (hfit : s.len.toNat + payload.length + 1 ≤ s.maxLen.toNat) :
    ∃ t, engineRun (payload.length + 1) s = .next t ∧
      collected s t (payload ++ [s.par.cr]) after := by
  have hl : s.len ≠ s.maxLen := fun he => by
    rw [he] at hfit
    omega
  induction payload generalizing s with
  | nil =>
    obtain ⟨hv, hrest⟩ := popRx_of_pend h hpend
    have hx := storeRecord_total s.par.cr (inv_popRx h hv) (.inr hp) hl
    have hstep := engineStep_lineCollect_stored hp hc hv
      (fun hz => hne.elim (fun h0 => h0 hz.2) fun h0 => h0 rfl) hl hx
    exact ⟨_, engineRun_succ 0 (hstep.trans (congrArg _ (if_pos rfl))),
      collected_cons (s := rxPopped s) (inv_popRx h hv) (.inr hp) hl
        ⟨rfl, rfl, (List.append_nil _).symm, hrest, rfl⟩⟩
  | cons b payload ih =>
    obtain ⟨hv, hrest⟩ := popRx_of_pend h hpend
    obtain ⟨hb, hpayload⟩ := List.ne_and_not_mem_of_not_mem_cons hcr
    have hx := storeRecord_total b (inv_popRx h hv) (.inr hp) hl
    have hsucc : (recorded (rxPopped s) b).len.toNat = s.len.toNat + 1 :=
      (toNat_len_succ h (.inr hp) hl).1
    have hstep := engineStep_lineCollect_stored hp hc hv (fun hz => hb hz.1.symm) hl hx
    have hfit' : (recorded (rxPopped s) b).len.toNat + payload.length + 1 ≤ s.maxLen.toNat := by
      rw [List.length_cons] at hfit
      omega
    obtain ⟨t, hrun, ht⟩ := ih (recorded (rxPopped s) b)
      (inv_storeRecord (inv_popRx h hv) (.inr hp) hl hx) hp hc hrest hpayload
      (.inl fun hz => by rw [hz] at hsucc; simp at hsucc) hfit'
      (fun he => by rw [he] at hfit'; exact absurd hfit' (by simp))
    exact ⟨t, (engineRun_succ _ (hstep.trans (congrArg _ (if_neg hb.symm)))).trans hrun,
      collected_cons (s := rxPopped s) (inv_popRx h hv) (.inr hp) hl ht⟩

/-- Engine runs compose. -/
theorem engineRun_add {s t : State} (m n : Nat) (h : engineRun m s = .next t) :
    engineRun (m + n) s = engineRun n t := by
  induction m generalizing s with
  | zero =>
    cases h
    rw [Nat.zero_add]
  | succ m ih =>
    cases hs : engineStep s with
    | next u =>
      rw [engineRun_succ m hs] at h
      rw [Nat.add_right_comm, engineRun_succ _ hs, ih h]
    | fault f => simp [engineRun, hs] at h
    | refused r => simp [engineRun, hs] at h

/-- Settles O47: the hunt up to the start sentinel, then the collection up to the end sentinel. -/
theorem frameReturnsTheEnqueuedPayload : Obligations.FrameReturnsTheEnqueuedPayload := by
  intro s m junk payload after h hp hc hpend hsof heof hm hcap hfit
  have hb := (boundOk_iff s m).mpr ⟨hm, hcap⟩
  have hu := inv_start (s := s) s.cnt .frameHunt h hb
  rw [List.append_assoc] at hpend
  obtain ⟨q, hhunt, hq, hqpend, hovf⟩ := hunt_run junk _ hu rfl hc hpend hsof
  obtain ⟨t, hrun, hidle, hlen, hrec, hafter, hrsp⟩ :=
    frameCollect_run payload _ hq rfl hc hqpend heof (by simpa using hfit)
  refine ⟨_, t, exec_frame_started hp hb, ?_, hidle, by simpa using hlen, ?_, hafter, ?_⟩
  · rw [Nat.add_assoc, engineRun_add _ _ hhunt, hrun]
  · simpa [capturedRecord] using hrec
  · rw [hrsp, ← hovf]

/-- Settles O48: the collection up to the terminator, from an empty record. -/
theorem lineReturnsTheEnqueuedPayload : Obligations.LineReturnsTheEnqueuedPayload := by
  intro s m d payload after h hp hc hpend hcr hne hcap hfit
  have hm : m ≠ 0#8 := by
    rintro rfl
    simp at hfit
  have hb := (boundOk_iff s m).mpr ⟨hm, hcap⟩
  obtain ⟨t, hrun, hidle, hlen, hrec, hafter, hrsp⟩ := lineCollect_run payload _
    (inv_start d .lineCollect h hb) rfl hc hpend hcr (.inr hne) (by simpa using hfit)
  refine ⟨_, t, exec_line_started d hp hb, hrun, hidle, by simpa using hlen, ?_, hafter, hrsp⟩
  simpa [capturedRecord] using hrec

theorem execList_cons {i : Instr} {is : List Instr} {s t : State} (h : exec i s = .next t) :
    execList (i :: is) s = execList is t := by
  simp only [execList, h]

/-- R82 in queued mode, with room for the text. -/
theorem sends_queued (text : List Byte) (s : State) (h : s.inv) (hp : s.phase = .idle)
    (hq : s.par.txQueued = true)
    (hroom : s.tx.avail s.par.txCap + text.length ≤ s.par.txCap - 1) :
    ∃ t, execList (text.map .send) s = .next t ∧ t.phase = .idle ∧
      t.tx.pend t.par.txCap = s.tx.pend s.par.txCap ++ text ∧ t.txout = s.txout ∧
      t.rspout = s.rspout ++
        List.replicate text.length (rspWord .ok s.rx.ovf s.tx.ovf false 0#8 0#16) := by
  induction text generalizing s with
  | nil => exact ⟨s, rfl, hp, by simp, rfl, by simp⟩
  | cons b text ih =>
    obtain ⟨⟨-, -, hcap, -⟩, -, htx, -⟩ := id h
    obtain ⟨hw, hr, -⟩ := id htx
    rw [List.length_cons] at hroom
    have hf : s.tx.full s.par.txCap = false := by
      rw [← Bool.not_eq_true, ← RingBuf.avail_eq_pred hcap hw hr]
      omega
    have hmod : (s.tx.wp + 1) % s.par.txCap ≠ s.tx.rp :=
      mt (RingBuf.full_iff _ _).mpr (by simp [hf])
    have hg := (handOver_queued hq).mpr hmod
    have hb := handByte_queued b hq hmod hw
    have hav : (txPushed s b).tx.avail s.par.txCap + text.length ≤ s.par.txCap - 1 := by
      rw [show (txPushed s b).tx.avail s.par.txCap = s.tx.avail s.par.txCap + 1 from
        avail_pushed _ hcap hw hr hf]
      omega
    obtain ⟨t, hrun, hidle, hpend, hout, hrsp⟩ := ih (respond (txPushed s b) .ok 0#8 0#16 false)
      (inv_respond _ _ _ _ (inv_handByte h hg hb)) hp hq hav
    refine ⟨t, (execList_cons (exec_send_handed hp hg hb)).trans hrun, hidle, ?_, hout, ?_⟩
    · exact hpend.trans ((congrArg (· ++ text) (pend_pushed b hcap htx hf)).trans (by simp))
    · rw [hrsp]
      simp [List.replicate_succ]

/-- R82 in direct mode, with the transmitter ready. -/
theorem sends_direct (text : List Byte) (s : State) (hp : s.phase = .idle)
    (hq : s.par.txQueued = false) (hr : s.txReady = true) :
    execList (text.map .send) s = .next { s with
      txout := s.txout ++ text
      rspout := s.rspout ++
        List.replicate text.length (rspWord .ok s.rx.ovf s.tx.ovf false 0#8 0#16) } := by
  induction text generalizing s with
  | nil => simp [execList]
  | cons b text ih =>
    have hstep := exec_send_handed hp ((handOver_direct hq).trans hr) (handByte_direct b hq)
    rw [List.map_cons, execList_cons hstep, ih (respond (emit s b) .ok 0#8 0#16 false) hp hq hr]
    simp [respond, emit, List.replicate_succ]

/-- Settles O49, by the mode, each by induction on the text. -/
theorem sendsQueuesTheTextInOrder : Obligations.SendsQueuesTheTextInOrder :=
  fun s _ text h hp => ⟨sends_queued text s h hp, sends_direct text s hp⟩

end Sys2Proof.Machine
end

section
/-! Runs of a waiting command: `RECV` under ticks, and the block in a silent environment (R77, R92,
sections 3 and 4 of 70_reset_and_hazards.md). -/

namespace Sys2Proof.Machine

/-- A slot of the tick port: the countdown, at its level or one less. -/
theorem step_tickSlot {s : State} {rest : List Slot} (hs : s.sched = tickSlot :: rest) :
    step s = exec .tick (taken s tickSlot rest) :=
  step_of_nextAction_instr (nextAction_event (drawSlot_cons hs) rfl)

theorem step_engineSlot {s : State} {rest : List Slot} (hs : s.sched = engineSlot :: rest) :
    step s = engineStep (taken s engineSlot rest) :=
  step_of_nextAction_engine (nextAction_engine (drawSlot_cons hs) rfl)

/-- One tick and then `k` are `k + 1`. -/
theorem sub_one_sub_ofNat (c : BitVec 16) (k : Nat) :
    c - 1#16 - BitVec.ofNat 16 k = c - BitVec.ofNat 16 (k + 1) := by
  bv_omega

/-- Settles O45, by induction on the ticks: each lowers the countdown, or leaves it at 0. -/
theorem recvTimesOutAfterItsTicks : Obligations.RecvTimesOutAfterItsTicks := by
  intro s k
  induction k generalizing s with
  | zero =>
    intro hp he hs
    have hstep := step_engineSlot (s := s) (rest := []) hs
    refine ⟨fun hk => ?_, fun hk => ?_⟩
    · have hz : s.cnt = 0#16 := BitVec.eq_of_toNat_eq (by simpa using hk)
      rw [engineStep_recvWait_none (s := taken s engineSlot []) hp rfl he hz] at hstep
      rw [core_run_succ 0 hstep, ← hz]
      rfl
    · have hz : s.cnt ≠ 0#16 := fun hz => by simp [hz] at hk
      have hg : engineEnabled (taken s engineSlot []) = false := by
        simp [engineEnabled, byteOrTimeout, RingBuf.empty, taken, engineSlot, hp, he, hz]
      rw [engineStep_held hg] at hstep
      rw [core_run_succ 0 hstep]
      simp [Host.Core.run, taken, engineSlot]
  | succ k ih =>
    intro hp he hs
    have hstep := step_tickSlot (s := s) hs
    by_cases hz : s.cnt = 0#16
    · rw [exec_tick_of_cnt_eq_zero (s := taken s tickSlot _) hz] at hstep
      rw [core_run_succ _ hstep]
      obtain ⟨hdone, -⟩ := ih (taken s tickSlot _) hp he rfl
      exact ⟨fun _ => hdone (by simp [taken, hz]), fun hk => by simp [hz] at hk⟩
    · have hpos : s.cnt.toNat ≠ 0 := mt (fun h0 => BitVec.eq_of_toNat_eq h0) hz
      have hpred : (s.cnt - 1#16).toNat = s.cnt.toNat - 1 := by bv_omega
      rw [exec_tick_of_cnt_ne_zero (s := taken s tickSlot _) hz] at hstep
      rw [core_run_succ _ hstep]
      obtain ⟨hdone, hwait⟩ := ih { taken s tickSlot _ with cnt := s.cnt - 1#16 } hp he rfl
      refine ⟨fun hk => hdone ?_, fun hk => ?_⟩
      · show (s.cnt - 1#16).toNat ≤ k
        omega
      · refine (hwait (show k < (s.cnt - 1#16).toNat by omega)).trans ?_
        simp only [sub_one_sub_ofNat, taken]

/-- The phases that wait for bytes of RX. -/
def receiving (p : Phase) : Prop :=
  p = .recvWait ∨ p = .frameHunt ∨ p = .frameCollect ∨ p = .lineCollect

/-- What an engine step that goes on leaves: a receiving phase, and all but RX, the phase and the
record. -/
theorem consumes_frame {s t : State} (h : consumes s t) :
    receiving t.phase ∧ s.rx.rp ≠ s.rx.wp ∧ t = { s with
      rx := (rxPopped s).rx, phase := t.phase, record := t.record, len := t.len } := by
  obtain ⟨b, hv, ⟨hp, rfl⟩ | ⟨hp, -, -, rfl⟩ | ⟨hp, -, rfl⟩⟩ := h
  all_goals refine ⟨?_, (popRx_some.mp hv).1, rfl⟩
  · dsimp only
    split_ifs <;> simp [receiving]
  · simp [receiving, hp]
  · rcases hp with hp | hp <;> simp [receiving, hp]

theorem answersWithin_of_answered {s t : State} {k : Nat} (hk : 1 ≤ k) (hs : step s = .next t)
    (ht : answered s t) : s.answersWithin k :=
  ⟨1, t, hk, by rw [core_run_succ 0 hs]; rfl, ht⟩

theorem answersWithin_of_step {s t : State} {j k : Nat} (hjk : j + 1 ≤ k) (hs : step s = .next t)
    (hr : t.rspout = s.rspout) (ht : t.answersWithin j) : s.answersWithin k := by
  obtain ⟨n, u, hn, hrun, hp, w, hw⟩ := ht
  exact ⟨n + 1, u, by omega, by rw [core_run_succ n hs, hrun], hp, w, by rw [hw, hr]⟩

/-- What a silent environment leaves a receiving command: bytes to take and ticks to count. -/
def quietMeasure (s : State) : Nat := s.rx.avail s.par.rxCap + s.cnt.toNat

/-- In a silent environment a receiving command is answered in the next step, or goes on with a byte
or a tick less (log 2). -/
theorem quiet_step {s : State} (h : s.inv) (hs : s.sched = []) (ht : s.schedTail = .stop)
    (hp : receiving s.phase) :
    ∃ t, step s = .next t ∧ (answered s t ∨
      (t.rspout = s.rspout ∧ t.sched = [] ∧ t.schedTail = .stop ∧ receiving t.phase ∧
        quietMeasure t < quietMeasure s)) := by
  obtain ⟨hw, hr, -⟩ := id h.2.1
  cases hg : engineEnabled s
  · have hz : s.cnt ≠ 0#16 := by
      rcases hp with hp | hp | hp | hp <;>
        simp_all [engineEnabled, byteOrTimeout]
    refine ⟨_, (step_quiet_tick hs ht hg hz).trans (exec_tick_of_cnt_ne_zero hz),
      .inr ⟨rfl, hs, ht, hp, ?_⟩⟩
    have hpos : s.cnt.toNat ≠ 0 := mt (fun h0 => BitVec.eq_of_toNat_eq h0) hz
    have hpred : (s.cnt - 1#16).toNat = s.cnt.toNat - 1 := by bv_omega
    show s.rx.avail s.par.rxCap + (s.cnt - 1#16).toNat < s.rx.avail s.par.rxCap + s.cnt.toNat
    omega
  · obtain ⟨t, hstep, ha | hc⟩ := engineStep_outcome h hg
    · exact ⟨t, (step_quiet_engine hs ht hg).trans hstep, .inl ha⟩
    · obtain ⟨hp', hne, hframe⟩ := consumes_frame hc
      refine ⟨t, (step_quiet_engine hs ht hg).trans hstep, .inr ?_⟩
      have hav := avail_popped h.1.1 hw hr hne
      have hμ : quietMeasure t < quietMeasure s := by
        rw [hframe]
        show (rxPopped s).rx.avail s.par.rxCap + s.cnt.toNat < s.rx.avail s.par.rxCap + s.cnt.toNat
        rw [hav]
        exact Nat.add_lt_add_right (Nat.lt_succ_self _) _
      rw [hframe] at hp' hμ ⊢
      exact ⟨rfl, hs, ht, hp', hμ⟩

theorem quiet_answers {s : State} (h : s.inv) (hs : s.sched = []) (ht : s.schedTail = .stop)
    (hp : receiving s.phase) : s.answersWithin (quietMeasure s + 1) := by
  induction hn : quietMeasure s using Nat.strong_induction_on generalizing s with
  | _ n ih =>
    obtain ⟨t, hstep, ha | ⟨hr, hst, htt, hpt, hμ⟩⟩ := quiet_step h hs ht hp
    · exact answersWithin_of_answered (by omega) hstep ha
    · exact answersWithin_of_step (by omega) hstep hr (ih _ (by omega)
        (everyStepKeepsTheInvariant s t h hstep) hst htt hpt rfl)

/-- Settles O46: at most `RX_CAP - 1` bytes are pending. -/
theorem quietBlockAnswersEveryReceive : Obligations.QuietBlockAnswersEveryReceive := by
  intro s h hs ht hp
  obtain ⟨n, t, hn, hrun, hdone⟩ := quiet_answers h hs ht hp
  have hlt : s.rx.avail s.par.rxCap < s.par.rxCap := s.rx.avail_lt (by have := h.1.1; omega)
  exact ⟨n, t, by rw [quietMeasure] at hn; omega, hrun, hdone⟩

end Sys2Proof.Machine
end

section
/-! Waiting commands under an endless schedule: what one slot does to them, the claims that need a
number of laps (R131), and the claims that a command never ends (R128). -/

namespace Sys2Proof.Machine

/-- What a slot without a `RESET` does to a waiting command, from the state it is taken in. -/
inductive SlotEffect (s : State) (σ : Slot) : State → Prop
  | held (hm : σ.move ≠ .engine) (hs : ∀ i, ¬σ.strobes i) : SlotEffect s σ s
  | engine (hm : σ.move = .engine) (t : State) (ht : engineStep s = .next t) : SlotEffect s σ t
  | event (i : Instr) (hi : σ.strobes i) (hc : isCommand i = false) (hr : i ≠ .reset) (t : State)
      (he : ExecEffect s i t) : SlotEffect s σ t

theorem strobes_unique {σ : Slot} {i j : Instr} (hi : σ.strobes i) (hj : σ.strobes j) : i = j := by
  obtain ⟨e, hm, hd⟩ := hi
  obtain ⟨e', hm', hd'⟩ := hj
  cases hm.symm.trans hm'
  exact Except.ok.inj (hd.symm.trans hd')

theorem not_engine_of_strobes {σ : Slot} {i : Instr} (h : σ.strobes i) : σ.move ≠ .engine := by
  obtain ⟨e, hm, -⟩ := h
  simp [hm]

/-- One slot under the invariant: the step answers a next state, which meets it. -/
theorem slot_effect {s : State} {σ : Slot} {rest : List Slot} (h : s.inv) (hp : s.phase ≠ .idle)
    (hr : ¬σ.strobes .reset) (hd : drawSlot s = some (σ, { s with sched := rest })) :
    ∃ t, step s = .next t ∧ t.inv ∧ SlotEffect (taken s σ rest) σ t := by
  obtain ⟨t, ht⟩ := step_total h
  refine ⟨t, ht, everyStepKeepsTheInvariant s t h ht, ?_⟩
  obtain ⟨hs, hm, hi⟩ | ⟨hm, hs⟩ | ⟨i, hc, hi, hs⟩ | ⟨-, hidle⟩ := step_taken hd
  · cases hs.symm.trans ht
    exact .held hm hi
  · exact .engine hm t (hs.symm.trans ht)
  · exact .event i hi hc (fun he => hr (he ▸ hi)) t (exec_effect (hs.symm.trans ht))
  · exact absurd hidle hp

/-- An event other than `RESET` leaves all but the rings, `txout` and the countdown. -/
theorem ExecEffect.event_frame {s t : State} {i : Instr} (he : ExecEffect s i t)
    (hc : isCommand i = false) (hr : i ≠ .reset) :
    t = { s with rx := t.rx, tx := t.tx, txout := t.txout, cnt := t.cnt } := by
  cases he with
  | dropped | pushed | silent | emitted | expired | ticked => rfl
  | busy i hi | reported i st v hp hi => cases hc.symm.trans hi
  | reset => exact absurd rfl hr
  | popped | flushed | cleared | receives | hunts | scans | queued | sent | waits => cases hc

/-- A slot that is not the engine's leaves all but the rings, `txout` and the countdown. -/
theorem SlotEffect.frame {s t : State} {σ : Slot} (he : SlotEffect s σ t) (hm : σ.move ≠ .engine) :
    t = { s with rx := t.rx, tx := t.tx, txout := t.txout, cnt := t.cnt } := by
  cases he with
  | held => rfl
  | engine hm' => exact absurd hm' hm
  | event i hi hc hr t he => exact he.event_frame hc hr

theorem EngineEffect.schedule {s t : State} (he : EngineEffect s t) :
    t.sched = s.sched ∧ t.schedTail = s.schedTail := by
  cases he <;> exact ⟨rfl, rfl⟩

theorem SlotEffect.schedule {s t : State} {σ : Slot} (he : SlotEffect s σ t) :
    t.sched = s.sched ∧ t.schedTail = s.schedTail := by
  by_cases hm : σ.move = .engine
  · cases he with
    | held => exact ⟨rfl, rfl⟩
    | engine hm t ht => exact (engine_effect ht).schedule
    | event i hi => exact absurd hm (not_engine_of_strobes hi)
  · rw [he.frame hm]
    exact ⟨rfl, rfl⟩

/-- A waiting command is answered in a slot, or waits on without a response. -/
theorem SlotEffect.answers {s t : State} {σ : Slot} (he : SlotEffect s σ t) (hp : s.phase ≠ .idle) :
    answered s t ∨ (t.phase ≠ .idle ∧ t.rspout = s.rspout) := by
  by_cases hm : σ.move = .engine
  · cases he with
    | held => exact .inr ⟨hp, rfl⟩
    | engine hm t ht => exact (engine_effect ht).answers hp
    | event i hi => exact absurd hm (not_engine_of_strobes hi)
  · rw [he.frame hm]
    exact .inr ⟨hp, rfl⟩

/-- The laps of a looping schedule, for a waiting command: if every slot answers it, or keeps `P` and
lowers the measure or at least wastes no good slot, it is answered within one lap more than the
measure. -/
theorem answersWithin_laps {s : State} {a : Slot} {l : List Slot} (P : State → Prop)
    (Q : Slot → Prop) (μ : State → Nat) (good : State → Slot → Prop) (h : s.inv)
    (ht : s.schedTail = .loop a l) (hp : s.phase ≠ .idle) (hP : P s)
    (hr : ∀ σ ∈ s.sched ++ a :: l, ¬σ.strobes .reset) (hQ : ∀ σ ∈ s.sched ++ a :: l, Q σ)
    (recurs : ∀ s, P s → ∃ σ ∈ a :: l, good s σ)
    (move : ∀ s σ rest t, s.inv → P s → Q σ → SlotEffect (taken s σ rest) σ t → ¬answered s t →
      P t ∧ (μ t < μ s ∨ (μ t = μ s ∧ ¬good s σ ∧ ∀ τ, good s τ → good t τ))) :
    s.answersWithin (s.sched.length + (μ s + 1) * (l.length + 1)) := by
  refine run_laps
    (fun u => P u ∧ u.inv ∧ u.phase ≠ .idle ∧ u.schedTail = .loop a l ∧ u.rspout = s.rspout)
    (fun t => t.phase = .idle ∧ ∃ w, t.rspout = s.rspout ++ [w])
    (fun σ => Q σ ∧ ¬σ.strobes .reset) μ good a l (fun u ⟨_, _, _, hu, _⟩ => hu)
    (fun u hu => recurs u hu.1) ?_ s ⟨hP, h, hp, ht, rfl⟩ fun σ hσ => ⟨hQ σ hσ, hr σ hσ⟩
  rintro u σ rest ⟨hPu, hu, hpu, htu, hru⟩ ⟨hQσ, hrσ⟩ hd
  obtain ⟨t, hstep, hinv, he⟩ := slot_effect hu hpu hrσ hd
  obtain ⟨hsched, htail⟩ := he.schedule
  refine ⟨t, hstep, ?_⟩
  by_cases ha : answered u t
  · left
    rwa [answered, hru] at ha
  · right
    obtain ⟨hpt, hrt⟩ := (he.answers hpu).resolve_left ha
    obtain ⟨hPt, hμ⟩ := move u σ rest t hu hPu hQσ he ha
    exact ⟨⟨hPt, hinv, hpt, htail.trans htu, hrt.trans hru⟩, hsched, hμ⟩

/-- A command that every slot of a looping schedule leaves waiting is never answered. -/
theorem neverAnswers_loop {s : State} {a : Slot} {l : List Slot} (P : State → Prop)
    (Q : Slot → Prop) (h : s.inv) (ht : s.schedTail = .loop a l) (hp : s.phase ≠ .idle) (hP : P s)
    (hr : ∀ σ ∈ s.sched ++ a :: l, ¬σ.strobes .reset) (hQ : ∀ σ ∈ s.sched ++ a :: l, Q σ)
    (move : ∀ s σ rest t, s.inv → s.phase ≠ .idle → P s → Q σ → s.schedTail = .loop a l →
      drawSlot s = some (σ, { s with sched := rest }) → SlotEffect (taken s σ rest) σ t →
      P t ∧ t.phase = s.phase) :
    s.neverAnswers := by
  intro n
  obtain ⟨t, hrun, -, -, hpt, -, hrt⟩ := run_forever
    (fun u => P u ∧ u.inv ∧ u.phase = s.phase ∧ u.schedTail = .loop a l ∧ u.rspout = s.rspout)
    a l (fun σ => Q σ ∧ ¬σ.strobes .reset) (fun u ⟨_, _, _, hu, _⟩ => hu)
    (by
      rintro u σ rest ⟨hPu, hu, hpu, htu, hru⟩ ⟨hQσ, hrσ⟩ hd
      have hbusy : u.phase ≠ .idle := hpu ▸ hp
      obtain ⟨t, hstep, hinv, he⟩ := slot_effect hu hbusy hrσ hd
      obtain ⟨hsched, htail⟩ := he.schedule
      obtain ⟨hPt, hpt⟩ := move u σ rest t hu hbusy hPu hQσ htu hd he
      have hrt : t.rspout = u.rspout :=
        ((he.answers hbusy).resolve_left fun ha => hbusy (hpt ▸ ha.1)).2
      exact ⟨t, hstep, ⟨hPt, hinv, hpt.trans hpu, htail.trans htu, hrt.trans hru⟩, hsched⟩)
    s ⟨hP, h, rfl, ht, rfl⟩ (fun σ hσ => ⟨hQ σ hσ, hr σ hσ⟩) n
  exact ⟨t, hrun, hpt, hrt⟩

/-- The slot a countdown waits for: the tick while it runs, the engine at 0. -/
def countGood (s : State) (σ : Slot) : Prop :=
  if s.cnt = 0#16 then σ.move = .engine else σ.strobes .tick

theorem countGood_recurs {s : State} {L : List Slot} (he : ∃ σ ∈ L, σ.move = .engine)
    (ht : ∃ σ ∈ L, σ.strobes .tick) : ∃ σ ∈ L, countGood s σ := by
  by_cases hz : s.cnt = 0#16
  · simpa only [countGood, if_pos hz] using he
  · simpa only [countGood, if_neg hz] using ht

/-- A slot that is not the engine's lowers the countdown, or leaves it and is none it waits for. -/
theorem SlotEffect.countdown {s t : State} {σ : Slot} (he : SlotEffect s σ t)
    (hm : σ.move ≠ .engine) :
    t.cnt.toNat < s.cnt.toNat ∨ (t.cnt = s.cnt ∧ ¬countGood s σ) := by
  have hgood : (σ.strobes .tick → s.cnt = 0#16) → ¬countGood s σ := fun hz hg => by
    by_cases h0 : s.cnt = 0#16
    · exact hm (by simpa only [countGood, if_pos h0] using hg)
    · exact h0 (hz (by simpa only [countGood, if_neg h0] using hg))
  cases he with
  | held _ hs => exact .inr ⟨rfl, hgood fun h => absurd h (hs _)⟩
  | engine hm' => exact absurd hm' hm
  | event i hi hc hr t he =>
    cases he with
    | ticked hz =>
      have hpos : s.cnt.toNat ≠ 0 := mt (fun h0 => BitVec.eq_of_toNat_eq h0) hz
      left
      show (s.cnt - 1#16).toNat < s.cnt.toNat
      bv_omega
    | expired hz => exact .inr ⟨rfl, hgood fun _ => hz⟩
    | dropped | pushed | silent | emitted =>
      exact .inr ⟨rfl, hgood fun h => by cases strobes_unique hi h⟩
    | busy i hi' | reported i st v hp hi' => cases hc.symm.trans hi'
    | reset => exact absurd rfl hr
    | popped | flushed | cleared | receives | hunts | scans | queued | sent | waits => cases hc

end Sys2Proof.Machine
end

section
/-! The claims about endless schedules, per waiting command (R128, R131). -/

namespace Sys2Proof.Machine

theorem SlotEffect.engineStep {s t : State} {σ : Slot} (he : SlotEffect s σ t)
    (hm : σ.move = .engine) : Machine.engineStep s = .next t := by
  cases he with
  | held hm' => exact absurd hm hm'
  | event i hi => exact absurd hm (not_engine_of_strobes hi)
  | engine _ t ht => exact ht

/-- The engine's slot, when it does not answer: held, or a byte of RX taken. -/
theorem SlotEffect.engine_outcome {s t : State} {σ : Slot} (h : s.inv) (he : SlotEffect s σ t)
    (hm : σ.move = .engine) (ha : ¬answered s t) :
    (engineEnabled s = false ∧ t = s) ∨ (engineEnabled s = true ∧ consumes s t) := by
  have ht := he.engineStep hm
  cases hg : engineEnabled s
  · exact .inl ⟨rfl, Host.Outcome.next.inj (ht.symm.trans (engineStep_held hg))⟩
  · obtain ⟨u, hu, hout⟩ := engineStep_outcome h hg
    cases hu.symm.trans ht
    exact .inr ⟨rfl, hout.resolve_left ha⟩

/-- An engine step held in `RECV_WAIT` or `LINE_COLLECT` is none the countdown waits for. -/
theorem not_countGood_of_held {s : State} {σ : Slot}
    (hp : s.phase = .recvWait ∨ s.phase = .lineCollect) (hm : σ.move = .engine)
    (hg : engineEnabled s = false) : ¬countGood s σ := by
  have hz : s.cnt ≠ 0#16 := by
    rcases hp with hp | hp <;> simp_all [engineEnabled, byteOrTimeout]
  rw [countGood, if_neg hz]
  exact fun hs => not_engine_of_strobes hs hm

theorem countGood_of_cnt_eq {s t : State} {σ : Slot} (hc : t.cnt = s.cnt) (h : countGood s σ) :
    countGood t σ := by
  rwa [countGood, hc]

/-- R131 (1) for `RECV`: the ticks bring the countdown to 0, where the engine's step is enabled. -/
theorem recv_answers {s : State} {a : Slot} {l : List Slot} (h : s.inv)
    (ht : s.schedTail = .loop a l) (hr : ∀ σ ∈ s.sched ++ a :: l, ¬σ.strobes .reset)
    (heng : ∃ σ ∈ a :: l, σ.move = .engine) (hp : s.phase = .recvWait)
    (htick : ∃ σ ∈ a :: l, σ.strobes .tick) :
    s.answersWithin (s.sched.length + (s.cnt.toNat + 1) * (l.length + 1)) := by
  refine answersWithin_laps (fun u => u.phase = .recvWait) (fun _ => True) (fun u => u.cnt.toNat)
    countGood h ht (by simp [hp]) hp hr (fun _ _ => trivial)
    (fun _ _ => countGood_recurs heng htick) fun u σ rest t hu hpu _ he ha => ?_
  have htaken : (taken u σ rest).inv := hu
  by_cases hm : σ.move = .engine
  · obtain ⟨hg, rfl⟩ | ⟨-, b, -, ⟨hp', -⟩ | ⟨hp', -⟩ | ⟨hp' | hp', -⟩⟩ :=
      he.engine_outcome htaken hm ha
    · exact ⟨hpu, .inr ⟨rfl, not_countGood_of_held (s := taken u σ rest) (.inl hpu) hm hg,
        fun _ => id⟩⟩
    all_goals cases hpu.symm.trans hp'
  · refine ⟨(congrArg State.phase (he.frame hm)).trans hpu, ?_⟩
    obtain hlt | ⟨heq, hng⟩ := he.countdown hm
    · exact .inl hlt
    · exact .inr ⟨congrArg BitVec.toNat heq, hng, fun _ => countGood_of_cnt_eq heq⟩

/-- A slot that is not the engine's leaves the pending bytes of RX, or appends the byte it strobes. -/
theorem SlotEffect.pend {s t : State} {σ : Slot} (h : s.inv) (he : SlotEffect s σ t)
    (hm : σ.move ≠ .engine) :
    t.rx.pend s.par.rxCap = s.rx.pend s.par.rxCap ∨
      ∃ b, σ.strobes (.rxev b) ∧ t.rx.pend s.par.rxCap = s.rx.pend s.par.rxCap ++ [b] := by
  cases he with
  | held => exact .inl rfl
  | engine hm' => exact absurd hm' hm
  | event i hi hc hr t he =>
    cases he with
    | pushed b hf => exact .inr ⟨b, hi, pend_pushed b h.1.1 h.2.1 hf⟩
    | dropped | silent | emitted | expired | ticked => exact .inl rfl
    | busy i hi' | reported i st v hp hi' => cases hc.symm.trans hi'
    | reset => exact absurd rfl hr
    | popped | flushed | cleared | receives | hunts | scans | queued | sent | waits => cases hc

/-- A `LINE` that no leading `CR` can keep running: it has a byte, or none is pending and none of
these slots delivers one (log 27). -/
def noLeadingCr (L : List Slot) (s : State) : Prop :=
  s.len ≠ 0#8 ∨ (s.par.cr ∉ s.rx.pend s.par.rxCap ∧ ∀ σ ∈ L, ¬σ.strobes (.rxev s.par.cr))

/-- The pending bytes of RX are those a pop can take. -/
theorem mem_pend_of_popRx {s : State} {b : Byte} (h : s.inv)
    (hv : popRx s = .ok (some b, rxPopped s)) : b ∈ s.rx.pend s.par.rxCap := by
  obtain ⟨hne, -, hget, -⟩ := popRx_some.mp hv
  rw [pend_popped h.1.1 h.2.1 hne hget]
  exact List.mem_cons_self

/-- A slot that is not the engine's brings no leading `CR`. -/
theorem SlotEffect.noLeadingCr {s t : State} {σ : Slot} {L : List Slot} (h : s.inv)
    (he : SlotEffect s σ t) (hm : σ.move ≠ .engine) (hσ : σ ∈ L)
    (hcr : Machine.noLeadingCr L s) : Machine.noLeadingCr L t := by
  have hpend := he.pend h hm
  rw [he.frame hm]
  refine hcr.imp id fun ⟨hpending, hslots⟩ => ⟨?_, hslots⟩
  obtain heq | ⟨b, hb, heq⟩ := hpend
  · exact fun hmem => hpending (heq ▸ hmem)
  · intro hmem
    obtain hmem | hmem := List.mem_append.mp (heq ▸ hmem)
    · exact hpending hmem
    · exact hslots σ hσ (List.mem_singleton.mp hmem ▸ hb)

/-- A store brings the record one byte nearer to its bound. -/
theorem room_recorded {s : State} (b : Byte) (h : s.inv)
    (hp : s.phase = .frameCollect ∨ s.phase = .lineCollect) (hl : s.len ≠ s.maxLen) :
    (recorded s b).maxLen.toNat - (recorded s b).len.toNat < s.maxLen.toNat - s.len.toNat ∧
      (recorded s b).len ≠ 0#8 := by
  obtain ⟨hsucc, hlt, -⟩ := toNat_len_succ h hp hl
  refine ⟨?_, fun hz => ?_⟩
  · show s.maxLen.toNat - (s.len + 1#8).toNat < s.maxLen.toNat - s.len.toNat
    omega
  · rw [show s.len + 1#8 = 0#8 from hz] at hsucc
    simp at hsucc

/-- R131 (1) for `LINE`: every byte goes into the record, and the ticks bring the countdown to 0. -/
theorem line_answers {s : State} {a : Slot} {l : List Slot} (h : s.inv)
    (ht : s.schedTail = .loop a l) (hr : ∀ σ ∈ s.sched ++ a :: l, ¬σ.strobes .reset)
    (heng : ∃ σ ∈ a :: l, σ.move = .engine) (hp : s.phase = .lineCollect)
    (htick : ∃ σ ∈ a :: l, σ.strobes .tick) (hcr : noLeadingCr (s.sched ++ a :: l) s) :
    s.answersWithin (s.sched.length +
      (s.cnt.toNat + (s.maxLen.toNat - s.len.toNat) + 1) * (l.length + 1)) := by
  refine answersWithin_laps
    (fun u => u.phase = .lineCollect ∧ noLeadingCr (s.sched ++ a :: l) u)
    (fun σ => σ ∈ s.sched ++ a :: l)
    (fun u => u.cnt.toNat + (u.maxLen.toNat - u.len.toNat)) countGood h ht (by simp [hp]) ⟨hp, hcr⟩
    hr (fun _ hσ => hσ) (fun _ _ => countGood_recurs heng htick)
    fun u σ rest t hu ⟨hpu, hcru⟩ hσ he ha => ?_
  have htaken : (taken u σ rest).inv := hu
  by_cases hm : σ.move = .engine
  · obtain ⟨hg, rfl⟩ | ⟨-, b, hv, ⟨hp', -⟩ | ⟨-, rfl, hz, -⟩ | ⟨-, hl, rfl⟩⟩ :=
      he.engine_outcome htaken hm ha
    · exact ⟨⟨hpu, hcru⟩, .inr ⟨rfl,
        not_countGood_of_held (s := taken u σ rest) (.inr hpu) hm hg, fun _ => id⟩⟩
    · cases hpu.symm.trans hp'
    · obtain hlen | ⟨hpending, -⟩ := hcru
      · exact absurd hz hlen
      · exact absurd (mem_pend_of_popRx htaken hv) hpending
    · obtain ⟨hlt, hlen⟩ :=
        room_recorded (s := rxPopped (taken u σ rest)) b (inv_popRx htaken hv) (.inr hpu) hl
      exact ⟨⟨hpu, .inl hlen⟩, .inl (Nat.add_lt_add_left hlt u.cnt.toNat)⟩
  · have hframe := he.frame hm
    have hmax : t.maxLen = u.maxLen := (congrArg State.maxLen hframe).trans rfl
    have hlen : t.len = u.len := (congrArg State.len hframe).trans rfl
    refine ⟨⟨(congrArg State.phase hframe).trans hpu, he.noLeadingCr htaken hm hσ hcru⟩, ?_⟩
    rw [hmax, hlen]
    obtain hlt | ⟨heq, hng⟩ := he.countdown hm
    · exact .inl (Nat.add_lt_add_right hlt _)
    · exact .inr ⟨congrArg (·.toNat + _) heq, hng, fun _ => countGood_of_cnt_eq heq⟩

/-- R131 (2) for a `FRAME` that collects: every engine step ends it or stores a byte. -/
theorem frameCollect_answers {s : State} {a : Slot} {l : List Slot} (h : s.inv)
    (ht : s.schedTail = .loop a l) (hr : ∀ σ ∈ s.sched ++ a :: l, ¬σ.strobes .reset)
    (heng : ∃ σ ∈ a :: l, σ.move = .engine) (hp : s.phase = .frameCollect) :
    s.answersWithin (s.sched.length +
      (s.maxLen.toNat - s.len.toNat + 1) * (l.length + 1)) := by
  refine answersWithin_laps (fun u => u.phase = .frameCollect) (fun _ => True)
    (fun u => u.maxLen.toNat - u.len.toNat) (fun _ σ => σ.move = .engine) h ht (by simp [hp]) hp hr
    (fun _ _ => trivial) (fun _ _ => heng) fun u σ rest t hu hpu _ he ha => ?_
  have htaken : (taken u σ rest).inv := hu
  by_cases hm : σ.move = .engine
  · obtain ⟨hg, -⟩ | ⟨-, b, hv, ⟨hp', -⟩ | ⟨hp', -⟩ | ⟨-, hl, rfl⟩⟩ :=
      he.engine_outcome htaken hm ha
    · cases (engineEnabled_frameCollect (s := taken u σ rest) hpu).symm.trans hg
    · cases hpu.symm.trans hp'
    · cases hpu.symm.trans hp'
    · obtain ⟨hlt, -⟩ :=
        room_recorded (s := rxPopped (taken u σ rest)) b (inv_popRx htaken hv) (.inl hpu) hl
      exact ⟨hpu, .inl hlt⟩
  · have hframe := he.frame hm
    have hmax : t.maxLen = u.maxLen := (congrArg State.maxLen hframe).trans rfl
    have hlen : t.len = u.len := (congrArg State.len hframe).trans rfl
    exact ⟨(congrArg State.phase hframe).trans hpu, .inr ⟨by rw [hmax, hlen], hm, fun _ => id⟩⟩

/-- A ring with no byte has room. -/
theorem full_of_empty {cap : Nat} {q : RingBuf} (hc : 2 ≤ cap) (h : q.ok cap) (he : q.rp = q.wp) :
    q.full cap = false := by
  obtain ⟨hw, hr, -⟩ := h
  have h0 := (RingBuf.avail_eq_zero hw hr).mpr ((RingBuf.empty_iff q).mpr he)
  rw [← Bool.not_eq_true, ← RingBuf.avail_eq_pred hc hw hr]
  omega

/-- A ring with a byte taken has room. -/
theorem full_popped {cap : Nat} {q : RingBuf} (hc : 2 ≤ cap) (h : q.ok cap) (hne : q.rp ≠ q.wp) :
    RingBuf.full cap { q with rp := nextIndex cap q.rp } = false := by
  obtain ⟨hw, hr, -⟩ := h
  have hav := avail_popped hc hw hr hne
  have hlt := q.avail_lt (cap := cap) (by omega)
  rw [← Bool.not_eq_true, ← RingBuf.avail_eq_pred (q := { q with rp := nextIndex cap q.rp }) hc hw
    (nextIndex_lt _ (by omega))]
  omega

/-- In queued mode a slot that is not the engine's is a `TXEV` and leaves TX with room, or is none
and leaves it as it is. -/
theorem SlotEffect.tx {s t : State} {σ : Slot} (h : s.inv) (he : SlotEffect s σ t)
    (hm : σ.move ≠ .engine) (hq : s.par.txQueued = true) :
    (σ.strobes .txev ∧ t.tx.full s.par.txCap = false) ∨ (¬σ.strobes .txev ∧ t.tx = s.tx) := by
  obtain ⟨⟨-, -, hcap, -⟩, -, htx, -⟩ := id h
  cases he with
  | held _ hs => exact .inr ⟨hs _, rfl⟩
  | engine hm' => exact absurd hm' hm
  | event i hi hc hr t he =>
    cases he with
    | emitted v _ hv => exact .inl ⟨hi, full_popped hcap htx (popTx_some.mp hv).1⟩
    | silent he => exact .inl ⟨hi, full_of_empty hcap htx (he hq)⟩
    | dropped | pushed | expired | ticked =>
      exact .inr ⟨fun h => (by cases strobes_unique hi h), rfl⟩
    | busy i hi' | reported i st v hp hi' => cases hc.symm.trans hi'
    | reset => exact absurd rfl hr
    | popped | flushed | cleared | receives | hunts | scans | queued | sent | waits => cases hc

/-- A waiting `SEND` that does not answer was held, for want of room or of the transmitter. -/
theorem send_held {s t : State} {σ : Slot} (h : s.inv) (hp : s.phase = .sendWait)
    (he : SlotEffect s σ t) (hm : σ.move = .engine) (ha : ¬answered s t) :
    t = s ∧ handOver s = false := by
  obtain ⟨hg, rfl⟩ | ⟨-, b, -, ⟨hp', -⟩ | ⟨hp', -⟩ | ⟨hp' | hp', -⟩⟩ := he.engine_outcome h hm ha
  · rw [engineEnabled_sendWait hp, ← Bool.not_eq_true, cancelOrHandOver_iff, not_or] at hg
    exact ⟨rfl, by simpa using hg.2⟩
  all_goals cases hp.symm.trans hp'

/-- The slot a queued `SEND` waits for: a `TXEV` while TX is full, then the engine. -/
def roomGood (s : State) (σ : Slot) : Prop :=
  if s.tx.full s.par.txCap = true then σ.strobes .txev else σ.move = .engine

/-- R131 (4) for a queued `SEND`: a `TXEV` makes room, and the engine hands the byte over. -/
theorem queuedSend_answers {s : State} {a : Slot} {l : List Slot} (h : s.inv)
    (ht : s.schedTail = .loop a l) (hr : ∀ σ ∈ s.sched ++ a :: l, ¬σ.strobes .reset)
    (heng : ∃ σ ∈ a :: l, σ.move = .engine) (hp : s.phase = .sendWait)
    (hq : s.par.txQueued = true) (htx : ∃ σ ∈ a :: l, σ.strobes .txev) :
    s.answersWithin (s.sched.length + 2 * (l.length + 1)) := by
  obtain ⟨n, t, hn, hdone⟩ := answersWithin_laps
    (fun u => u.phase = .sendWait ∧ u.par.txQueued = true) (fun _ => True)
    (fun u => (u.tx.full u.par.txCap).toNat) roomGood h ht (by simp [hp]) ⟨hp, hq⟩ hr
    (fun _ _ => trivial)
    (fun u _ => by
      by_cases hf : u.tx.full u.par.txCap = true
      · simpa only [roomGood, if_pos hf] using htx
      · simpa only [roomGood, if_neg hf] using heng)
    (by
      rintro u σ rest t hu ⟨hpu, hqu⟩ - he ha
      by_cases hm : σ.move = .engine
      · obtain ⟨rfl, hh⟩ := send_held (s := taken u σ rest) hu hpu he hm ha
        have hf : u.tx.full u.par.txCap = true := by
          simpa [handOver, taken, hqu] using hh
        refine ⟨⟨hpu, hqu⟩, .inr ⟨rfl, ?_, fun _ => id⟩⟩
        rw [roomGood, if_pos hf]
        exact fun hs => not_engine_of_strobes hs hm
      · have hframe := he.frame hm
        have hpar : t.par = u.par := (congrArg State.par hframe).trans rfl
        refine ⟨⟨(congrArg State.phase hframe).trans hpu, hpar ▸ hqu⟩, ?_⟩
        simp only [roomGood, hpar]
        obtain ⟨-, hroom⟩ | ⟨hno, hsame⟩ := he.tx (s := taken u σ rest) hu hm hqu
        · replace hroom : t.tx.full u.par.txCap = false := hroom
          cases hf : u.tx.full u.par.txCap
          · simp [hroom, hm]
          · simp [hroom]
        · replace hsame : t.tx = u.tx := hsame
          cases hf : u.tx.full u.par.txCap <;> simp [hsame, hf, hm, hno])
  have hle : (s.tx.full s.par.txCap).toNat + 1 ≤ 2 := Nat.add_le_add_right (Bool.toNat_le _) 1
  exact ⟨n, t, hn.trans (Nat.add_le_add_left (Nat.mul_le_mul_right _ hle) _), hdone⟩

/-- R131 (4) for a direct `SEND`: the engine hands the byte over at `tx_ready`. -/
theorem directSend_answers {s : State} {a : Slot} {l : List Slot} (h : s.inv)
    (ht : s.schedTail = .loop a l) (hr : ∀ σ ∈ s.sched ++ a :: l, ¬σ.strobes .reset)
    (hp : s.phase = .sendWait) (hq : s.par.txQueued = false)
    (hready : ∃ σ ∈ a :: l, σ.move = .engine ∧ σ.txReady = true) :
    s.answersWithin (s.sched.length + (l.length + 1)) := by
  have hlaps := answersWithin_laps
    (fun u => u.phase = .sendWait ∧ u.par.txQueued = false) (fun _ => True)
    (fun _ => 0) (fun _ σ => σ.move = .engine ∧ σ.txReady = true) h ht (by simp [hp]) ⟨hp, hq⟩ hr
    (fun _ _ => trivial) (fun _ _ => hready)
    (by
      rintro u σ rest t hu ⟨hpu, hqu⟩ - he ha
      by_cases hm : σ.move = .engine
      · obtain ⟨rfl, hh⟩ := send_held (s := taken u σ rest) hu hpu he hm ha
        rw [handOver_direct (s := taken u σ rest) hqu] at hh
        have hng : ¬(σ.move = .engine ∧ σ.txReady = true) := fun hg => by
          cases hg.2.symm.trans hh
        exact ⟨⟨hpu, hqu⟩, .inr ⟨rfl, hng, fun _ => id⟩⟩
      · have hframe := he.frame hm
        exact ⟨⟨(congrArg State.phase hframe).trans hpu,
          (congrArg (fun v => v.par.txQueued) hframe).trans hqu⟩,
          .inr ⟨rfl, fun hg => hm hg.1, fun _ => id⟩⟩)
  simpa using hlaps

/-- Settles O60, by the measure of each waiting command. -/
theorem fairLoopAnswersWaitingCommands : Obligations.FairLoopAnswersWaitingCommands :=
  fun _ _ _ h ht hr heng => ⟨recv_answers h ht hr heng, line_answers h ht hr heng,
    frameCollect_answers h ht hr heng, queuedSend_answers h ht hr heng,
    directSend_answers h ht hr⟩

/-- A waiting `SEND` that can neither hand its byte over nor be cancelled is held. -/
theorem sendWait_stays {s t : State} {σ : Slot} (hp : s.phase = .sendWait) (he : SlotEffect s σ t)
    (hm : σ.move = .engine) (hc : s.cancel = false) (hh : handOver s = false) : t = s := by
  have hg : engineEnabled s = false := by
    rw [engineEnabled_sendWait hp, cancelOrHandOver, hc, hh, Bool.or_false]
  exact Host.Outcome.next.inj ((he.engineStep hm).symm.trans (engineStep_held hg))

/-- Settles O59: while TX stays full, or the transmitter not ready, every engine step is held. -/
theorem waitingSendWaitsForTheEnvironment : Obligations.WaitingSendWaitsForTheEnvironment := by
  intro s a l h hp ht hslots
  have hbusy : s.phase ≠ .idle := by simp [hp]
  have hr := fun σ hσ => (hslots σ hσ).2
  refine ⟨fun hq hf htx => ?_, fun hq hready => ?_⟩
  · refine neverAnswers_loop
      (fun u => u.phase = .sendWait ∧ u.par.txQueued = true ∧ u.tx.full u.par.txCap = true)
      (fun σ => σ.cancel = false ∧ ¬σ.strobes .txev) h ht hbusy ⟨hp, hq, hf⟩ hr
      (fun σ hσ => ⟨(hslots σ hσ).1, htx σ hσ⟩) ?_
    rintro u σ rest t hu - ⟨hpu, hqu, hfu⟩ ⟨hc, hno⟩ - - he
    by_cases hm : σ.move = .engine
    · have hh : handOver (taken u σ rest) = false := by simp [handOver, taken, hqu, hfu]
      cases sendWait_stays (s := taken u σ rest) hpu he hm hc hh
      exact ⟨⟨hpu, hqu, hfu⟩, rfl⟩
    · have hframe := he.frame hm
      have hphase : t.phase = u.phase := (congrArg State.phase hframe).trans rfl
      have hpar : t.par = u.par := (congrArg State.par hframe).trans rfl
      obtain ⟨hyes, -⟩ | ⟨-, hsame⟩ := he.tx (s := taken u σ rest) hu hm hqu
      · exact absurd hyes hno
      · rw [hphase, hpar, hsame]
        exact ⟨⟨hpu, hqu, hfu⟩, rfl⟩
  · refine neverAnswers_loop (fun u => u.phase = .sendWait ∧ u.par.txQueued = false)
      (fun σ => σ.cancel = false ∧ σ.txReady = false) h ht hbusy ⟨hp, hq⟩ hr
      (fun σ hσ => ⟨(hslots σ hσ).1, hready σ hσ⟩) ?_
    rintro u σ rest t hu - ⟨hpu, hqu⟩ ⟨hc, hno⟩ - - he
    by_cases hm : σ.move = .engine
    · have hh : handOver (taken u σ rest) = false :=
        (handOver_direct (s := taken u σ rest) hqu).trans hno
      cases sendWait_stays (s := taken u σ rest) hpu he hm hc hh
      exact ⟨⟨hpu, hqu⟩, rfl⟩
    · have hframe := he.frame hm
      have hphase : t.phase = u.phase := (congrArg State.phase hframe).trans rfl
      have hpar : t.par = u.par := (congrArg State.par hframe).trans rfl
      rw [hphase, hpar]
      exact ⟨⟨hpu, hqu⟩, rfl⟩

theorem rxSlot_strobes (b : Byte) : (rxSlot b).strobes (.rxev b) :=
  ⟨_, rfl, (decodeEvent_rx b).1⟩

theorem tickSlot_strobes_tick : tickSlot.strobes .tick := ⟨_, rfl, rfl⟩

/-- After an `RXEV` RX is not empty: the byte is pending, or RX was full. -/
theorem rx_nonempty_of_rxSlot {s t : State} {b : Byte} (h : s.inv)
    (he : SlotEffect s (rxSlot b) t) : t.rx.rp ≠ t.rx.wp := by
  obtain ⟨⟨hcap, -⟩, ⟨hw, -⟩, -⟩ := h
  cases he with
  | held _ hs => exact absurd (rxSlot_strobes b) (hs _)
  | engine hm => exact absurd hm (not_engine_of_strobes (rxSlot_strobes b))
  | event i hi hc hr t he =>
    cases strobes_unique (rxSlot_strobes b) hi
    cases he with
    | dropped b hf =>
      have hrp : nextIndex s.par.rxCap s.rx.wp = s.rx.rp := (RingBuf.full_iff _ _).mp hf
      have hnext := nextIndex_of_lt hcap hw
      show s.rx.rp ≠ s.rx.wp
      split_ifs at hnext <;> omega
    | pushed b hf =>
      exact fun heq => by
        have hfull := (RingBuf.full_iff s.par.rxCap s.rx).mpr heq.symm
        cases hfull.symm.trans hf
    | busy i hi' | reported i st v hp hi' => cases hc.symm.trans hi'

/-- The slot a schedule gives, and what it leaves of the schedule, are its only ones. -/
theorem drawSlot_unique {s : State} {σ τ : Slot} {rest rest' : List Slot}
    (h : drawSlot s = some (σ, { s with sched := rest }))
    (h' : drawSlot s = some (τ, { s with sched := rest' })) : σ = τ ∧ rest = rest' := by
  have heq := Prod.mk.inj (Option.some.inj (h.symm.trans h'))
  exact ⟨heq.1, congrArg State.sched heq.2⟩

/-- Where the endless producer's schedule stands: at the byte, at the engine with a byte in RX, or at
the tick. -/
def producerTurn (s : State) : Prop :=
  s.sched = [] ∨ (s.sched = [engineSlot, tickSlot] ∧ s.rx.rp ≠ s.rx.wp) ∨ s.sched = [tickSlot]

/-- A hunt that finds no start sentinel: none is pending, and the bytes to come are none. -/
def huntsInVain (b : Byte) (s : State) : Prop :=
  s.phase = .frameHunt ∧ b ≠ s.par.sof ∧ s.par.sof ∉ s.rx.pend s.par.rxCap

/-- A slot that is not the engine's and strobes no start sentinel leaves the hunt in vain. -/
theorem SlotEffect.huntsInVain {s t : State} {σ : Slot} {b : Byte} (h : s.inv)
    (he : SlotEffect s σ t) (hm : σ.move ≠ .engine) (hσ : ∀ c, σ.strobes (.rxev c) → c = b)
    (hv : Machine.huntsInVain b s) : Machine.huntsInVain b t := by
  have hpend := he.pend h hm
  obtain ⟨hp, hb, hsof⟩ := hv
  rw [he.frame hm]
  refine ⟨hp, hb, fun hmem => ?_⟩
  obtain heq | ⟨c, hc, heq⟩ := hpend
  · exact hsof (heq ▸ hmem)
  · obtain hmem | hmem := List.mem_append.mp (heq ▸ hmem)
    · exact hsof hmem
    · exact hb ((List.mem_singleton.mp hmem).trans (hσ c hc)).symm

/-- An engine step of a hunt in vain discards a byte. -/
theorem huntsInVain_engine {s t : State} {b : Byte} (h : s.inv) (hc : s.cancel = false)
    (hne : s.rx.rp ≠ s.rx.wp) (hv : huntsInVain b s) (ht : engineStep s = .next t) :
    huntsInVain b t := by
  obtain ⟨hp, hb, hsof⟩ := hv
  obtain ⟨v, hpop⟩ := (popRx_total h).resolve_left hne
  obtain ⟨-, -, hget, -⟩ := popRx_some.mp hpop
  have hpend := pend_popped h.1.1 h.2.1 hne hget
  have hvsof : v ≠ s.par.sof := fun he => hsof (he ▸ mem_pend_of_popRx h hpop)
  cases (engineStep_frameHunt_discard hp hc hpop hvsof).symm.trans ht
  exact ⟨hp, hb, fun hmem => hsof (hpend ▸ List.mem_cons_of_mem v hmem)⟩

/-- Settles O58: the engine never moves on an empty RX, and what it takes is no start sentinel. -/
theorem endlessProducerKeepsFrameRunning : Obligations.EndlessProducerKeepsFrameRunning := by
  intro s b h hp hs ht hb hsof
  refine neverAnswers_loop (fun u => huntsInVain b u ∧ producerTurn u) (fun _ => True) h ht
    (by simp [hp]) ⟨⟨hp, hb, hsof⟩, .inl hs⟩ ?_ (fun _ _ => trivial) ?_
  · rw [hs, List.nil_append]
    intro σ hσ hreset
    obtain rfl | rfl | rfl : σ = rxSlot b ∨ σ = engineSlot ∨ σ = tickSlot := by simpa using hσ
    · cases strobes_unique (rxSlot_strobes b) hreset
    · exact not_engine_of_strobes hreset rfl
    · cases strobes_unique tickSlot_strobes_tick hreset
  · rintro u σ rest t hu - ⟨hv, hturn⟩ - htail hd he
    have htaken : (taken u σ rest).inv := hu
    have hsched : t.sched = rest := he.schedule.1
    have hvt : huntsInVain b t ∧ producerTurn t := by
      obtain hsu | ⟨hsu, hne⟩ | hsu := hturn
      · obtain ⟨rfl, rfl⟩ := drawSlot_unique hd (drawSlot_loop hsu htail)
        exact ⟨he.huntsInVain htaken (not_engine_of_strobes (rxSlot_strobes b))
          (fun c hc => by cases strobes_unique (rxSlot_strobes b) hc; rfl) hv,
          .inr (.inl ⟨hsched, rx_nonempty_of_rxSlot htaken he⟩)⟩
      · obtain ⟨rfl, rfl⟩ := drawSlot_unique hd (drawSlot_cons hsu)
        exact ⟨huntsInVain_engine htaken rfl hne hv (he.engineStep rfl), .inr (.inr hsched)⟩
      · obtain ⟨rfl, rfl⟩ := drawSlot_unique hd (drawSlot_cons hsu)
        exact ⟨he.huntsInVain htaken (not_engine_of_strobes tickSlot_strobes_tick)
          (fun c hc => by cases strobes_unique tickSlot_strobes_tick hc) hv, .inl hsched⟩
    exact ⟨hvt, hvt.1.1.trans hv.1.symm⟩

end Sys2Proof.Machine
end
